-- ==== Sys2Proof/Word.lean ====
section
/-! DEFINITION. Sys2Proof/Word.lean: the value types of 00_scope.md section 6. -/

namespace Sys2Proof

/-- An 8-bit unsigned value (00_scope.md section 6, `Byte`). -/
abbrev Byte := BitVec 8

/-- A finite sequence of bytes (00_scope.md section 6, `ByteStr`). -/
abbrev ByteStr := List Byte

/-- A finite sequence of bits, first bit first (00_scope.md section 6, `BitStr`; R11: true is 1). -/
abbrev BitStr := List Bool

end Sys2Proof
end

