-- ==== Sys2Proof/Machine/Bytes.lean ====
section
/-! DEFINITION. Sys2Proof/Machine/Bytes.lean: bit order (R10, R63), bit flips and text helpers (R12, R62). -/

namespace Sys2Proof.Machine

/-- A byte's bits, bit 7 first (R10). -/
def byteBits (x : Byte) : BitStr :=
  [x.getLsbD 7, x.getLsbD 6, x.getLsbD 5, x.getLsbD 4, x.getLsbD 3, x.getLsbD 2, x.getLsbD 1, x.getLsbD 0]

/-- `BytesToBits` (R130). -/
def bytesToBits (b : ByteStr) : BitStr := b.flatMap byteBits

/-- The byte whose bits are given, bit 7 first (R131: the sum of `v[8i + j] · 2^(7 − j)`). -/
def byteOfBits (b7 b6 b5 b4 b3 b2 b1 b0 : Bool) : Byte :=
  BitVec.ofNat 8 (128 * b7.toNat + 64 * b6.toNat + 32 * b5.toNat + 16 * b4.toNat + 8 * b3.toNat + 4 * b2.toNat +
    2 * b1.toNat + b0.toNat)

/-- `BitsToBytes` (R131), on the whole bytes of `v`; R131 uses it only where `len(v)` is a multiple of 8. -/
def bitsToBytes : BitStr → ByteStr
  | b7 :: b6 :: b5 :: b4 :: b3 :: b2 :: b1 :: b0 :: rest =>
    byteOfBits b7 b6 b5 b4 b3 b2 b1 b0 :: bitsToBytes rest
  | _ => []

/-- `flip(s, P)` (R12): every bit of `s` whose index (R10) is in `P` inverted. -/
def flipBits (s : ByteStr) (P : Nat → Bool) : ByteStr :=
  bitsToBytes ((bytesToBits s).mapIdx fun k x => if P k then !x else x)

/-- A text's ASCII codes, one byte per character (R62). -/
def ascii (cs : List Char) : ByteStr := cs.map fun ch => BitVec.ofNat 8 ch.toNat

/-- NL, the byte 0x0A (00_scope.md section 6). -/
def nl : Byte := 0x0A

/-- The ASCII decimal digit of `d ≤ 9` (R12). -/
def decDigit (d : Nat) : Byte := BitVec.ofNat 8 (48 + d)

/-- The ASCII lowercase hexadecimal digit of `d ≤ 15` (R12). -/
def hexDigit (d : Nat) : Byte := BitVec.ofNat 8 (if d < 10 then 48 + d else 87 + d)

/-- `dec4` (R12). -/
def dec4 (v : Nat) : ByteStr := [decDigit (v / 1000 % 10), decDigit (v / 100 % 10), decDigit (v / 10 % 10), decDigit (v % 10)]

/-- `hex2` (R12). -/
def hex2 (v : Byte) : ByteStr := [hexDigit (v.toNat / 16), hexDigit (v.toNat % 16)]

/-- `dec1` of a bit (R12, R89: N is 0 or 1). -/
def dec1 (n : Bool) : ByteStr := [decDigit n.toNat]

/-- `bitchars` (R12): `'0'` or `'1'` for each bit. -/
def bitchars (v : BitStr) : ByteStr := v.map fun b => decDigit b.toNat

/-- DIGIT of R90: `'0'..'9'`. -/
def isDigit (x : Byte) : Bool := decide (48 ≤ x.toNat) && decide (x.toNat ≤ 57)

/-- LHEX of R90: `'0'..'9'` and `'a'..'f'`. -/
def isLowerHex (x : Byte) : Bool := isDigit x || (decide (97 ≤ x.toNat) && decide (x.toNat ≤ 102))

/-- BITCH of R90: `'0'` and `'1'`. -/
def isBitChar (x : Byte) : Bool := decide (x.toNat = 48) || decide (x.toNat = 49)

/-- `decimal` of R90: the value of a run of digits, most significant first. -/
def decimalVal (ds : ByteStr) : Nat := ds.foldl (fun acc x => 10 * acc + (x.toNat - 48)) 0

/-- A lowercase hexadecimal digit's value (R90). -/
def hexDigitVal (x : Byte) : Nat := if x.toNat ≤ 57 then x.toNat - 48 else x.toNat - 87

/-- `hexval` of R90. -/
def hexVal (ds : ByteStr) : Nat := ds.foldl (fun acc x => 16 * acc + hexDigitVal x) 0

/-- `bits` of R90: `'0'` to 0 and `'1'` to 1. -/
def charBits (cs : ByteStr) : BitStr := cs.map fun x => decide (x.toNat = 49)

end Sys2Proof.Machine
end

