-- ==== Sys2Proof/Syntax.lean ====
section
/-! DEFINITION. Sys2Proof/Syntax.lean: the instruction set, one constructor per row of spec/opcode_table.json, and
the inputs that carry instructions to the core. -/

namespace Sys2Proof

/-- A protocol version (R2, R83). -/
inductive Version where
  | v10
  | v20
  | v21
  | v22
  | v30
deriving DecidableEq, Repr

/-- A header format: the optional fields a header carries after S, T and F (R85). -/
inductive Format where
  | plain
  | c
  | cN
  | ec
  | ecN
  | n
deriving DecidableEq, Repr

/-- The 18 commands (R82), the three events (R94), the reset input (R450) and every other command word (R80). -/
inductive Instr where
  /-- B2BITS, R130. -/
  | b2bits
  /-- BITS2B, R131. -/
  | bits2b
  /-- CKGEN, R142. -/
  | ckgen
  /-- CKVER, R143. -/
  | ckver
  /-- PARGEN, R161. -/
  | pargen
  /-- PARVER, R162. -/
  | parver
  /-- INJFLIP, R185. -/
  | injflip
  /-- INJBURST, R186. -/
  | injburst
  /-- INJPKT, R187. -/
  | injpkt
  /-- HDRENC with the header format of its SUBOP, R201. -/
  | hdrenc (f : Format)
  /-- HDRDEC with the header format of its SUBOP, R203. -/
  | hdrdec (f : Format)
  /-- FRAG, R205. -/
  | frag
  /-- RBCLR, R208. -/
  | rbclr
  /-- RBADD, R209. -/
  | rbadd
  /-- OPEN with the protocol version of its SUBOP, R240. -/
  | openSession (v : Version)
  /-- SEND, R241. -/
  | send
  /-- RECV, R242. -/
  | recv
  /-- FINISH, R243. -/
  | finish
  /-- The event RX with its packet, R254. -/
  | rx (p : ByteStr)
  /-- The event TIMEOUT, R256. -/
  | timeout
  /-- The event CHAN_CLOSE, R257. -/
  | chanClose
  /-- The reset input, R450. -/
  | reset
  /-- A command word that R80 does not decode, with the word. -/
  | illegal (w : BitVec 32)
deriving DecidableEq, Repr

/-- An operand port (R22). -/
inductive ArgPort where
  | arg0
  | arg1
  | arg2
  | arg3
deriving DecidableEq, Repr

/-- One move of the environment: a host write of CMD (R21), an event with its code and data (R94), reset (R450), or a
host write of an operand port (R70). -/
inductive Input where
  | cmdWrite (w : BitVec 32)
  | event (code : BitVec 8) (data : ByteStr)
  | resetLine
  | writeA (b : ByteStr)
  | writeV (v : BitStr)
  | writeArg (port : ArgPort) (x : BitVec 16)
deriving DecidableEq, Repr

end Sys2Proof
end

