-- ==== Sys2Proof/Decode.lean ====
section
/-! DEFINITION. Sys2Proof/Decode.lean: the decoder of command words (R80 to R84) and events (R94), and the encoder. -/

namespace Sys2Proof

/-- OPC, bits 7:0 of a command word (R80). -/
def opcField (w : BitVec 32) : BitVec 8 := w.extractLsb' 0 8

/-- SUBOP, bits 11:8 of a command word (R80). -/
def subopField (w : BitVec 32) : BitVec 4 := w.extractLsb' 8 4

/-- RSV, bits 31:12 of a command word (R80). -/
def rsvField (w : BitVec 32) : BitVec 20 := w.extractLsb' 12 20

/-- The opcodes of the map of R82. -/
def opcodeMap : List (BitVec 8) :=
  [0x01, 0x02, 0x10, 0x11, 0x18, 0x19, 0x20, 0x21, 0x22, 0x30, 0x31, 0x32, 0x33, 0x34, 0x40, 0x41, 0x42, 0x43]

/-- The sub-code with which R80's `decode` raises ILLEGAL_COMMAND on a word, if it does: 1 RSV, 2 opcode, 3 SUBOP, the
first failing check in that order. -/
def illegalSubcode (w : BitVec 32) : Option (BitVec 16) :=
  if rsvField w ≠ 0 then some 1
  else if opcField w ∉ opcodeMap then some 2
  else if opcField w = 0x40 ∧ 4 < (subopField w).toNat then some 3
  else if (opcField w = 0x30 ∨ opcField w = 0x31) ∧ 5 < (subopField w).toNat then some 3
  else if (opcField w ≠ 0x40 ∧ opcField w ≠ 0x30 ∧ opcField w ≠ 0x31) ∧ subopField w ≠ 0 then some 3
  else none

/-- The SUBOP code of a version, which is also its CFG_VER value (R83, R27). -/
def Version.code : Version → BitVec 4
  | .v10 => 0
  | .v20 => 1
  | .v21 => 2
  | .v22 => 3
  | .v30 => 4

/-- The version a SUBOP code selects (R83). -/
def versionOf (sub : BitVec 4) : Option Version :=
  if sub = 0 then some .v10
  else if sub = 1 then some .v20
  else if sub = 2 then some .v21
  else if sub = 3 then some .v22
  else if sub = 4 then some .v30
  else none

/-- The SUBOP code of a header format (R85). -/
def Format.code : Format → BitVec 4
  | .plain => 0
  | .c => 1
  | .cN => 2
  | .ec => 3
  | .ecN => 4
  | .n => 5

/-- The header format a SUBOP code selects (R84, R85). -/
def formatOf (sub : BitVec 4) : Option Format :=
  if sub = 0 then some .plain
  else if sub = 1 then some .c
  else if sub = 2 then some .cN
  else if sub = 3 then some .ec
  else if sub = 4 then some .ecN
  else if sub = 5 then some .n
  else none

/-- The command of a word whose opcode takes no SUBOP: SUBOP must be 0 (R80). -/
def plainCommand (w : BitVec 32) (i : Instr) : Instr :=
  if subopField w = 0 then i else .illegal w

/-- A command word's instruction (R80, R82): total, every word outside the map is `illegal`. -/
def decodeWord (w : BitVec 32) : Instr :=
  if rsvField w ≠ 0 then .illegal w
  else if opcField w = 0x01 then plainCommand w .b2bits
  else if opcField w = 0x02 then plainCommand w .bits2b
  else if opcField w = 0x10 then plainCommand w .ckgen
  else if opcField w = 0x11 then plainCommand w .ckver
  else if opcField w = 0x18 then plainCommand w .pargen
  else if opcField w = 0x19 then plainCommand w .parver
  else if opcField w = 0x20 then plainCommand w .injflip
  else if opcField w = 0x21 then plainCommand w .injburst
  else if opcField w = 0x22 then plainCommand w .injpkt
  else if opcField w = 0x30 then (formatOf (subopField w)).elim (.illegal w) .hdrenc
  else if opcField w = 0x31 then (formatOf (subopField w)).elim (.illegal w) .hdrdec
  else if opcField w = 0x32 then plainCommand w .frag
  else if opcField w = 0x33 then plainCommand w .rbclr
  else if opcField w = 0x34 then plainCommand w .rbadd
  else if opcField w = 0x40 then (versionOf (subopField w)).elim (.illegal w) .openSession
  else if opcField w = 0x41 then plainCommand w .send
  else if opcField w = 0x42 then plainCommand w .recv
  else if opcField w = 0x43 then plainCommand w .finish
  else .illegal w

/-- Why an input carries no instruction. -/
inductive Reject where
  /-- The event code is none of R94's three. -/
  | unknownEvent (code : BitVec 8)
  /-- TIMEOUT or CHAN_CLOSE offered with data; R94 gives them none. -/
  | eventWithData (code : BitVec 8)
  /-- A host write of an operand port, which is no step of the core (R4, R70). -/
  | portWrite
deriving DecidableEq, Repr

/-- An event's instruction (R94). -/
def decodeEvent (code : BitVec 8) (data : ByteStr) : Except Reject Instr :=
  if code = 0x01 then .ok (.rx data)
  else if code = 0x02 then (if data = [] then .ok .timeout else .error (.eventWithData code))
  else if code = 0x03 then (if data = [] then .ok .chanClose else .error (.eventWithData code))
  else .error (.unknownEvent code)

/-- The instruction an input carries to the core. -/
def decode : Input → Except Reject Instr
  | .cmdWrite w => .ok (decodeWord w)
  | .event code data => decodeEvent code data
  | .resetLine => .ok .reset
  | .writeA _ => .error .portWrite
  | .writeV _ => .error .portWrite
  | .writeArg _ _ => .error .portWrite

/-- The command word with opcode `opc` and SUBOP `sub`, RSV 0 (R80, R96). -/
def commandWord (opc : BitVec 8) (sub : BitVec 4) : BitVec 32 := (0#20 ++ sub) ++ opc

/-- The input that carries an instruction: its command word (R82), its event (R94) or the reset line (R450). -/
def encode : Instr → Input
  | .b2bits => .cmdWrite (commandWord 0x01 0)
  | .bits2b => .cmdWrite (commandWord 0x02 0)
  | .ckgen => .cmdWrite (commandWord 0x10 0)
  | .ckver => .cmdWrite (commandWord 0x11 0)
  | .pargen => .cmdWrite (commandWord 0x18 0)
  | .parver => .cmdWrite (commandWord 0x19 0)
  | .injflip => .cmdWrite (commandWord 0x20 0)
  | .injburst => .cmdWrite (commandWord 0x21 0)
  | .injpkt => .cmdWrite (commandWord 0x22 0)
  | .hdrenc f => .cmdWrite (commandWord 0x30 f.code)
  | .hdrdec f => .cmdWrite (commandWord 0x31 f.code)
  | .frag => .cmdWrite (commandWord 0x32 0)
  | .rbclr => .cmdWrite (commandWord 0x33 0)
  | .rbadd => .cmdWrite (commandWord 0x34 0)
  | .openSession v => .cmdWrite (commandWord 0x40 v.code)
  | .send => .cmdWrite (commandWord 0x41 0)
  | .recv => .cmdWrite (commandWord 0x42 0)
  | .finish => .cmdWrite (commandWord 0x43 0)
  | .rx p => .event 0x01 p
  | .timeout => .event 0x02 []
  | .chanClose => .event 0x03 []
  | .reset => .resetLine
  | .illegal w => .cmdWrite w

/-- The input that an opcode-table row's bits stand for: 32 bits are a word written to CMD, 8 bits an event code with
its data all absent (spec/opcode_table.json, formats CMD32 and event). -/
def tableInput (nbits w : Nat) : Option Input :=
  if nbits = 32 then some (.cmdWrite (BitVec.ofNat 32 w))
  else if nbits = 8 then some (.event (BitVec.ofNat 8 w) [])
  else none

/-- The instruction the decoder reads from an opcode-table row's bits. -/
def decodeTableWord (nbits w : Nat) : Option Instr :=
  match tableInput nbits w with
  | none => none
  | some inp =>
    match decode inp with
    | .ok i => some i
    | .error _ => none

end Sys2Proof
end

