-- ==== Sys2Proof/Config.lean ====
section
/-! DEFINITION. Sys2Proof/Config.lean: what an implementation fixes, and the free values. -/

namespace Sys2Proof

/-- BURST_START_MODE (R7): the range of a burst's start position, R182. -/
inductive BurstMode where
  | fit
  | any
deriving DecidableEq, Repr

namespace Config

/-- MAXLEN = 2^28 − 1 bytes (R8). -/
def maxLen : Nat := 268435455

/-- PACKET_DATA_LEN − 1 of the core that leaves reset (R5: an open parameter, an integer 1..16384; the
spec gives no value). Opaque: no proof can use a value of it. Log 5. -/
opaque packetDataLenPred : Fin 16384

/-- The draw source's answer number `k` once no scripted answer is left (R180: a free input). Opaque: no
proof can use a value of it. Log 4. -/
opaque freeDraw : Nat → Nat

end Config

end Sys2Proof
end

