-- ==== Sys2Proof/Machine/State.lean ====
section
/-! DEFINITION. Sys2Proof/Machine/State.lean: the registers of 10_state.md, the environment the step reads and writes,
and reset. -/

namespace Sys2Proof.Machine

/-- The error codes of STATUS.ERR (R401). -/
inductive ErrCode where
  | ok
  | malformedHeader
  | checksumMismatch
  | parityUncorrectable
  | channelClosed
  | timeoutExceeded
  | illegalCommand
  | overrun
  | noSession
  | sessionOpen
  | configError
  | operandError
  | injectRange
deriving DecidableEq, Repr

/-- STATUS.SESS, the session lifecycle (R28). -/
inductive Sess where
  | none
  | opened
  | ended
deriving DecidableEq, Repr

/-- STATUS.END_CAUSE, why SESS became ENDED (R25). -/
inductive EndCause where
  | none
  | finSent
  | finReceived
  | channelClosed
  | fatalError
deriving DecidableEq, Repr

/-- STATUS.OP, the blocking operation in progress (R29). -/
inductive Op where
  | none
  | send
  | recv
deriving DecidableEq, Repr

/-- STATUS.SND_STATE, the sender's FSM state (R30). -/
inductive SndState where
  | idle
  | waitForReply
deriving DecidableEq, Repr

/-- STATUS.RCV_STATE, the receiver's FSM state (R35). -/
inductive RcvState where
  | idle
  | waitForPacket
deriving DecidableEq, Repr

/-- The operand ports (R22). -/
structure OperandPorts where
  a : ByteStr
  v : BitStr
  arg0 : BitVec 16
  arg1 : BitVec 16
  arg2 : BitVec 16
  arg3 : BitVec 16
deriving DecidableEq, Repr

/-- The result ports (R23). -/
structure ResultPorts where
  r : ByteStr
  rv : BitStr
  rl : List ByteStr
  rs0 : BitVec 32
  rs1 : BitVec 32
  rs2 : BitVec 32
  rs3 : BitVec 32
  rflag : Bool
deriving DecidableEq, Repr

/-- The fields of STATUS that are stored here (R25). BUSY and the mirrors of SND_BIT and RCV_BIT are computed by
`statusWord` from the registers they equal (R25, R29; log 8). -/
structure StatusFields where
  err : ErrCode
  faultSeen : Bool
  overrun : Bool
  sess : Sess
  endCause : EndCause
  op : Op
  sndState : SndState
  rcvState : RcvState
deriving DecidableEq, Repr

/-- The configuration registers (R27). -/
structure CfgRegs where
  ver : Version
  num : BitVec 16
  prob : BitVec 16
  burst : BitVec 16
  retry : BitVec 16
deriving DecidableEq, Repr

/-- The sender's internals: SND_FRAGS, SND_TOTAL, SND_IDX (R31), LAST_PKT (R32), RETRY_CNT (R33), SND_BIT (R34). -/
structure SenderRegs where
  frags : List ByteStr
  total : Nat
  idx : Nat
  lastPkt : Option ByteStr
  retryCnt : Nat
  bit : Bool
deriving DecidableEq, Repr

/-- The receiver's internals: RCV_BUF, as (seq, payload) pairs with rising seq, and RCV_TOTAL (R37), RCV_BIT (R36). -/
structure ReceiverRegs where
  buf : List (Nat × ByteStr)
  total : Option Nat
  bit : Bool
deriving DecidableEq, Repr

/-- The draw source (R180): the answers it will give next, and how many answers the free value has given since
(log 4). The model's own field. -/
structure DrawSource where
  script : List Nat
  count : Nat
deriving DecidableEq, Repr

/-- The environment the core meets: the packets emitted, oldest first (R66), the inputs the environment offers, in its
order (R460), and the draw source. The model's own fields; no register of the core (R40). -/
structure Env where
  tx : List ByteStr
  pending : List Input
  draws : DrawSource
deriving DecidableEq, Repr

/-- The parameters fixed for the core instance: PACKET_DATA_LEN − 1 (R5) and BURST_START_MODE (R7). The model's own
fields; no step writes them (R20). -/
structure Params where
  dataLenPred : Fin 16384
  burstMode : BurstMode
deriving DecidableEq, Repr

/-- The core's state (R20) with its environment and parameters. -/
structure State where
  cmd : BitVec 32
  ports : OperandPorts
  res : ResultPorts
  status : StatusFields
  errInfo : BitVec 16
  cfg : CfgRegs
  snd : SenderRegs
  rcv : ReceiverRegs
  env : Env
  params : Params
deriving DecidableEq, Repr

/-- Why a step can stop. The spec's own errors are no faults: they are reported in STATUS and the run goes on (R400).
Each constructor is for states that no run reaches, where the rules describe no step (log 10). -/
inductive Fault where
  /-- Raised by an RX in a version 1.0 sender's wait: R254 has no row for it and says it never holds. Safe: the machine
  stops where the spec gives no step. -/
  | noSenderRule
  /-- Raised by Advance and SEND when SND_IDX names no element of SND_FRAGS (R244, R249). Safe: the machine stops where
  the spec gives no step. -/
  | noFragment
  /-- Raised by Retransmit when LAST_PKT is none (R248). Safe: the machine stops where the spec gives no step. -/
  | noLastPacket
deriving DecidableEq, Repr

/-- Why an instruction has no meaning. -/
inductive Refusal where
  /-- Raised by an arm of `exec` whose instruction is not modelled yet, with its mnemonic; no arm raises it. Safe. -/
  | notModelled (mnemonic : String)
deriving DecidableEq, Repr

/-- The machine right after reset: the table of R41. The environment is empty (log 3, 1, 4) and PACKET_DATA_LEN is the
open parameter (log 5); BURST_START_MODE has its default FIT (R7). -/
def State.reset : State where
  cmd := 0
  ports := ⟨[], [], 0, 0, 0, 0⟩
  res := ⟨[], [], [], 0, 0, 0, 0, false⟩
  status := ⟨.ok, false, false, .none, .none, .none, .idle, .idle⟩
  errInfo := 0
  cfg := ⟨.v10, 0, 0, 0, 0⟩
  snd := ⟨[], 0, 0, none, 0, false⟩
  rcv := ⟨[], none, false⟩
  env := ⟨[], [], ⟨[], 0⟩⟩
  params := ⟨Config.packetDataLenPred, .fit⟩

end Sys2Proof.Machine
end

