-- ==== Sys2Proof/Machine/Flags.lean ====
section
/-! DEFINITION. Sys2Proof/Machine/Flags.lean: the error codes, the STATUS word and the packet flags. -/

namespace Sys2Proof.Machine

/-- An error with its sub-code (R402). -/
structure Raise where
  code : ErrCode
  info : BitVec 16
deriving DecidableEq, Repr

/-- STATUS.ERR's value (R401). -/
def ErrCode.value : ErrCode → BitVec 8
  | .ok => 0x00
  | .malformedHeader => 0x01
  | .checksumMismatch => 0x02
  | .parityUncorrectable => 0x03
  | .channelClosed => 0x04
  | .timeoutExceeded => 0x05
  | .illegalCommand => 0x10
  | .overrun => 0x11
  | .noSession => 0x12
  | .sessionOpen => 0x13
  | .configError => 0x14
  | .operandError => 0x15
  | .injectRange => 0x16

/-- STATUS.SESS's value (R25). -/
def Sess.value : Sess → BitVec 2
  | .none => 0
  | .opened => 1
  | .ended => 2

/-- STATUS.END_CAUSE's value (R25). -/
def EndCause.value : EndCause → BitVec 3
  | .none => 0
  | .finSent => 1
  | .finReceived => 2
  | .channelClosed => 3
  | .fatalError => 4

/-- STATUS.OP's value (R25). -/
def Op.value : Op → BitVec 2
  | .none => 0
  | .send => 1
  | .recv => 2

/-- STATUS.SND_STATE's value (R25). -/
def SndState.value : SndState → Bool
  | .idle => false
  | .waitForReply => true

/-- STATUS.RCV_STATE's value (R25). -/
def RcvState.value : RcvState → Bool
  | .idle => false
  | .waitForPacket => true

/-- STATUS.BUSY: 1 exactly when OP ≠ NONE (R25, R29). -/
def State.busy (s : State) : Bool := decide (s.status.op ≠ .none)

/-- The 32-bit STATUS register the host reads (R25), bits 31:22 zero. -/
def State.statusWord (s : State) : BitVec 32 :=
  0#10 ++ BitVec.ofBool s.rcv.bit ++ BitVec.ofBool s.snd.bit ++ BitVec.ofBool s.status.rcvState.value ++
    BitVec.ofBool s.status.sndState.value ++ s.status.op.value ++ s.status.endCause.value ++ s.status.sess.value ++
    BitVec.ofBool s.status.overrun ++ BitVec.ofBool s.status.faultSeen ++ BitVec.ofBool s.busy ++ s.status.err.value

/-- The 3-bit CFG_VER register the host reads (R27). -/
def State.cfgVerWord (s : State) : BitVec 3 := s.cfg.ver.code.setWidth 3

/-- The packet flag ACK, bit 0 of F (R87). -/
def ackFlag (fl : Byte) : Bool := fl.getLsbD 0

/-- The packet flag FIN, bit 1 of F (R87). -/
def finFlag (fl : Byte) : Bool := fl.getLsbD 1

/-- The packet flag NACK, bit 2 of F (R87). -/
def nackFlag (fl : Byte) : Bool := fl.getLsbD 2

end Sys2Proof.Machine
end

