-- ==== Sys2Proof/Machine/Noise.lean ====
section
/-! DEFINITION. Sys2Proof/Machine/Noise.lean: draws (R180) and the three corruption functions (R181 to R184). -/

namespace Sys2Proof.Machine

/-- The draw source's next answer: its script's, and the free value's once the script is empty (R180; log 4). -/
def DrawSource.next (d : DrawSource) : Nat × DrawSource :=
  match d.script with
  | x :: xs => (x, { d with script := xs })
  | [] => (Config.freeDraw d.count, { d with count := d.count + 1 })

/-- `draw x ∈ {0 .. m − 1}` for `m ≥ 1` (R180): the answer's remainder, so that every element can be drawn. -/
def drawBelow (m : Nat) (d : DrawSource) : Nat × DrawSource := (d.next.1 % m, d.next.2)

/-- `draw P ⊆ pool, |P| = n` (R181): `n` draws, each taking one of the positions left, so that every such set can be
drawn. -/
def drawSubset : Nat → List Nat → DrawSource → List Nat × DrawSource
  | 0, _, d => ([], d)
  | n + 1, pool, d =>
    let pick := drawBelow pool.length d
    let rest := drawSubset n (pool.eraseIdx pick.1) pick.2
    (pool.getD pick.1 0 :: rest.1, rest.2)

/-- Splits at the first NL: the bytes before it and the bytes after it (R90, R183). -/
def splitNl : ByteStr → Option (ByteStr × ByteStr)
  | [] => none
  | x :: xs => if x = nl then some ([], xs) else (splitNl xs).map fun hp => (x :: hp.1, hp.2)

/-- `FlipN` (R181): the draw source afterwards, and the string or INJECT_RANGE(1). -/
def flipN (d : DrawSource) (b : ByteStr) (n : Nat) : DrawSource × Except Raise ByteStr :=
  if n > 8 * b.length then (d, .error ⟨.injectRange, 1⟩)
  else
    let draw := drawSubset n (List.range (8 * b.length)) d
    (draw.2, .ok (flipBits b fun k => draw.1.contains k))

/-- The number of start positions of a burst (R182). -/
def burstStarts (mode : BurstMode) (bits len : Nat) : Nat :=
  match mode with
  | .fit => bits - len + 1
  | .any => bits

/-- `Burst` (R182): the draw source afterwards, and the string. -/
def burst (mode : BurstMode) (d : DrawSource) (b : ByteStr) (len : Nat) : DrawSource × ByteStr :=
  if len = 0 ∨ b.length = 0 then (d, b)
  else
    let st := drawBelow (burstStarts mode (8 * b.length) len) d
    (st.2, flipBits b fun k => decide (st.1 ≤ k) && decide (k < min (st.1 + len) (8 * b.length)))

/-- The choice of `CorruptPacket` between corrupting and not (R183, R184): drawn only strictly between the endpoints. -/
def drawCorrupt (prob : Nat) (d : DrawSource) : Bool × DrawSource :=
  if prob = 0 then (false, d)
  else if prob = 10000 then (true, d)
  else (decide ((drawBelow 2 d).1 = 1), (drawBelow 2 d).2)

/-- `CorruptPacket` (R183): the draw source afterwards, and the packet with whether its payload went through the
corruption, or INJECT_RANGE(1). -/
def corruptPacket (mode : BurstMode) (d : DrawSource) (p : ByteStr) (n prob len : Nat) :
    DrawSource × Except Raise (ByteStr × Bool) :=
  let choice := drawCorrupt prob d
  if choice.1 = false then (choice.2, .ok (p, false))
  else
    match splitNl p with
    | none => (choice.2, .ok (p, false))
    | some (h, pay) =>
      if len > 0 then
        let run := burst mode choice.2 pay len
        (run.1, .ok (h ++ nl :: run.2, true))
      else
        match flipN choice.2 pay n with
        | (d', .ok pay2) => (d', .ok (h ++ nl :: pay2, true))
        | (d', .error e) => (d', .error e)

end Sys2Proof.Machine
end

