-- ==== Sys2Proof/Machine/Operands.lean ====
section
/-! DEFINITION. Sys2Proof/Machine/Operands.lean: the forms an operand or result takes: the fields of a header format
(R85), a version's format (R86), a scalar result (R23), the parameters (R5, R7). -/

namespace Sys2Proof

/-- Whether a format has the C field (R85). -/
def Format.hasC : Format → Bool
  | .c | .cN => true
  | .plain | .ec | .ecN | .n => false

/-- Whether a format has the EC field (R85). -/
def Format.hasEC : Format → Bool
  | .ec | .ecN => true
  | .plain | .c | .cN | .n => false

/-- Whether a format has the N field (R85). -/
def Format.hasN : Format → Bool
  | .cN | .ecN | .n => true
  | .plain | .c | .ec => false

/-- `FormatOf`: the format of a version's packets (R86). -/
def Version.format : Version → Format
  | .v10 => .plain
  | .v20 => .c
  | .v21 | .v22 | .v30 => .cN

namespace Machine

/-- `zext_32` of a natural (R23: scalar results are 32 bits wide). -/
def scalar (v : Nat) : BitVec 32 := BitVec.ofNat 32 v

/-- A bit written to a one-bit or scalar result (R11). -/
def bitScalar (b : Bool) : BitVec 32 := scalar b.toNat

/-- PACKET_DATA_LEN of the core instance (R5): 1 to 16384. -/
def State.packetDataLen (s : State) : Nat := s.params.dataLenPred.val + 1

/-- `fmt`, the format of the session's packets (45_session.md). -/
def State.fmt (s : State) : Format := s.cfg.ver.format

end Machine

end Sys2Proof
end

