-- ==== Sys2Proof/Machine/Packet.lean ====
section
/-! DEFINITION. Sys2Proof/Machine/Packet.lean: the packet format (R88 to R90, R200), fragmentation (R204) and the
reassembly buffer (R206, R207). -/

namespace Sys2Proof.Machine

/-- A decoded packet (R200). -/
structure Hdr where
  s : Nat
  t : Nat
  fl : Byte
  e : BitStr
  n : Bool
  pay : ByteStr
deriving DecidableEq, Repr

/-- The field values a format can carry (R89, R200), absent fields empty or 0. -/
def Hdr.legal (f : Format) (h : Hdr) : Bool :=
  decide (h.s ≤ 9999) && decide (h.t ≤ 9999) &&
    (if f.hasC then decide (h.e.length = 8) else if f.hasEC then decide (1 ≤ h.e.length) else decide (h.e = [])) &&
    (f.hasN || !h.n)

/-- `header(f, s, t, fl, e, n)` (R88). -/
def header (f : Format) (s t : Nat) (fl : Byte) (e : BitStr) (n : Bool) : ByteStr :=
  ascii ['H', 'E', 'A', 'D', 'E', 'R', ' ', 'S', ':'] ++ dec4 s ++ ascii [' ', 'T', ':'] ++ dec4 t ++
    ascii [' ', 'F', ':'] ++ hex2 fl ++
    (if f.hasC then ascii [' ', 'C', ':'] ++ bitchars e else []) ++
    (if f.hasEC then ascii [' ', 'E', 'C', ':'] ++ bitchars e else []) ++
    (if f.hasN then ascii [' ', 'N', ':'] ++ dec1 n else [])

/-- `Render` (R200). -/
def render (f : Format) (h : Hdr) : ByteStr := header f h.s h.t h.fl h.e h.n ++ nl :: h.pay

/-- `lit` of R90: a literal at the cursor, or fail with sub-code `c`. -/
def parseLit (x : ByteStr) (c : BitVec 16) (h : ByteStr) : Except (BitVec 16) ByteStr :=
  if h.take x.length = x then .ok (h.drop x.length) else .error c

/-- `run` of R90: exactly `m` bytes of a class at the cursor, or fail with sub-code `c`. -/
def parseRun (m : Nat) (cls : Byte → Bool) (c : BitVec 16) (h : ByteStr) : Except (BitVec 16) (ByteStr × ByteStr) :=
  if m ≤ h.length ∧ (h.take m).all cls then .ok (h.take m, h.drop m) else .error c

/-- The C field of R90. -/
def parseC (f : Format) (h : ByteStr) : Except (BitVec 16) (BitStr × ByteStr) :=
  if f.hasC then do
    let h ← parseLit (ascii [' ', 'C', ':']) 6 h
    let r ← parseRun 8 isBitChar 6 h
    .ok (charBits r.1, r.2)
  else .ok ([], h)

/-- The EC field of R90, the longest run of bit characters; `e` is what the C field gave. -/
def parseEC (f : Format) (e : BitStr) (h : ByteStr) : Except (BitVec 16) (BitStr × ByteStr) :=
  if f.hasEC then do
    let h ← parseLit (ascii [' ', 'E', 'C', ':']) 7 h
    let run := h.takeWhile isBitChar
    if run.length = 0 then .error 7 else .ok (charBits run, h.drop run.length)
  else .ok (e, h)

/-- The N field of R90. -/
def parseN (f : Format) (h : ByteStr) : Except (BitVec 16) (Bool × ByteStr) :=
  if f.hasN then do
    let h ← parseLit (ascii [' ', 'N', ':']) 8 h
    let r ← parseRun 1 isBitChar 8 h
    .ok (decide (decimalVal r.1 = 1), r.2)
  else .ok (false, h)

/-- A header's fields, given the payload (R90, from the first `lit` on). -/
def parseHeader (f : Format) (h pay : ByteStr) : Except (BitVec 16) Hdr := do
  let h ← parseLit (ascii ['H', 'E', 'A', 'D', 'E', 'R', ' ', 'S', ':']) 2 h
  let s ← parseRun 4 isDigit 3 h
  let h ← parseLit (ascii [' ', 'T', ':']) 4 s.2
  let t ← parseRun 4 isDigit 4 h
  let h ← parseLit (ascii [' ', 'F', ':']) 5 t.2
  let fl ← parseRun 2 isLowerHex 5 h
  let c ← parseC f fl.2
  let e ← parseEC f c.1 c.2
  let n ← parseN f e.2
  if n.2.length = 0 then
    .ok ⟨decimalVal s.1, decimalVal t.1, BitVec.ofNat 8 (hexVal fl.1), e.1, n.1, pay⟩
  else .error 9

/-- `Parse(f, p)` (R90): the record, or the sub-code of the first failing check. -/
def parse (f : Format) (p : ByteStr) : Except (BitVec 16) Hdr :=
  match splitNl p with
  | none => .error 1
  | some (h, pay) => parseHeader f h pay

/-- `Fragment(m, L)` for `L ≥ 1` (R204). -/
def fragment (m : ByteStr) (len : Nat) : List ByteStr :=
  (List.range ((m.length + len - 1) / len)).map fun i => (m.drop (i * len)).take len

/-- RCV_BUF's canonical form: keys strictly rising, so that equal maps are equal lists (R37; log 13). -/
abbrev bufWf (buf : List (Nat × ByteStr)) : Prop := buf.Pairwise fun x y => x.1 < y.1

/-- `RCV_BUF[s]`, if `s ∈ dom(RCV_BUF)` (R37). -/
def bufLookup (s : Nat) : List (Nat × ByteStr) → Option ByteStr
  | [] => none
  | (k, pay) :: rest => if k = s then some pay else bufLookup s rest

/-- `RCV_BUF[s] <- pay` (R206), in place in the rising order. -/
def bufInsert (s : Nat) (pay : ByteStr) : List (Nat × ByteStr) → List (Nat × ByteStr)
  | [] => [(s, pay)]
  | (k, q) :: rest =>
    if s < k then (s, pay) :: (k, q) :: rest
    else if s = k then (s, pay) :: rest
    else (k, q) :: bufInsert s pay rest

/-- What BufAdd returns (R206). -/
inductive BufResult where
  | dup
  | new
deriving DecidableEq, Repr

/-- `BufAdd(s, t, pay)` (R206), `len` being PACKET_DATA_LEN. Its first check is the whole invariant 1 ≤ seq ≤ total ≤ 9999
(R206, R37, R60; 90_conflicts.md C3; log 9). -/
def bufAdd (len : Nat) (rc : ReceiverRegs) (s t : Nat) (pay : ByteStr) : Except Raise (ReceiverRegs × BufResult) :=
  if s < 1 ∨ s > t ∨ t > 9999 then .error ⟨.malformedHeader, 10⟩
  else if rc.total ≠ none ∧ rc.total ≠ some t then .error ⟨.malformedHeader, 11⟩
  else if pay.length > len then .error ⟨.malformedHeader, 13⟩
  else
    match bufLookup s rc.buf with
    | some _ => .ok (rc, .dup)
    | none => .ok ({ rc with buf := bufInsert s pay rc.buf, total := some t }, .new)

/-- `Complete()` (R207). -/
def bufComplete (rc : ReceiverRegs) : Bool :=
  match rc.total with
  | none => false
  | some t => decide (rc.buf.length = t)

/-- `Reassemble()` (R207), where `Complete()` holds: the payloads of seq 1 to RCV_TOTAL joined in order. -/
def reassemble (rc : ReceiverRegs) : ByteStr :=
  match rc.total with
  | none => []
  | some t => (List.range t).flatMap fun i => (bufLookup (i + 1) rc.buf).getD []

end Sys2Proof.Machine
end

