-- ==== Sys2Proof/Machine/Sums.lean ====
section
/-! DEFINITION. Sys2Proof/Machine/Sums.lean: the one's-complement checksum (R140 to R143) and the parity matrix (R160 to
R165). -/

namespace Sys2Proof.Machine

/-- `OCADD8` (R140): 8-bit addition with end-around carry. -/
def ocAdd8 (a b : Byte) : Byte :=
  BitVec.ofNat 8 ((a.toNat + b.toNat) % 256 + (a.toNat + b.toNat) / 256)

/-- `OCSUM` (R141). -/
def ocSum (b : ByteStr) : Byte := b.foldl ocAdd8 0

/-- `Checksum` (R142): the complement of the sum. -/
def checksum (b : ByteStr) : Byte := ~~~ (ocSum b)

/-- `CkValid` (R143). -/
def ckValid (b : ByteStr) (c : Byte) : Bool := decide (checksum (b ++ [c]) = 0)

/-- The exclusive-or of a bit sequence. -/
def xorAll (v : BitStr) : Bool := v.foldl Bool.xor false

/-- `RowPar` of a row (R160). -/
def rowPar (x : Byte) : Bool := xorAll (byteBits x)

/-- `ColPar(b, j)` (R160): column `j` is bit `7 − j` of each byte. -/
def colPar (b : ByteStr) (j : Nat) : Bool := xorAll (b.map fun x => x.getLsbD (7 - j))

/-- `ParityOf` (R160): the row parities, then the 8 column parities. -/
def parityOf (b : ByteStr) : BitStr := b.map rowPar ++ (List.range 8).map (colPar b)

/-- The positions `from .. from + n − 1`, counted from `from`, at which two bit sequences differ (R162's Rm and Cm). -/
def mismatches (start n : Nat) (p v : BitStr) : List Nat :=
  (List.range n).filter fun i => p.getD (start + i) false != v.getD (start + i) false

/-- PARVER's three outcomes (R162 to R165). -/
inductive ParityOutcome where
  | clean
  | corrected (row col : Nat) (payload : ByteStr)
  | uncorrectable
deriving DecidableEq, Repr

/-- PARVER's comparison and outcome (R162 to R165), for `len(v) = len(a) + 8`. -/
def parityCheck (a : ByteStr) (v : BitStr) : ParityOutcome :=
  match mismatches 0 a.length (parityOf a) v, mismatches a.length 8 (parityOf a) v with
  | [], [] => .clean
  | [i], [j] =>
    if parityOf (flipBits a fun k => k == 8 * i + j) = v then .corrected i j (flipBits a fun k => k == 8 * i + j)
    else .uncorrectable
  | _, _ => .uncorrectable

end Sys2Proof.Machine
end

