-- ==== Sys2Proof/Machine/Ops.lean ====
section
/-! DEFINITION. Sys2Proof/Machine/Ops.lean: completing and raising (R402, R403), the overrun check (R455), and the
primitives every version's state machine shares (R188, R244 to R253). -/

namespace Sys2Proof.Machine

/-! ## The end of a step -/

/-- `complete(OK)` (R403). -/
def State.complete (s : State) : State :=
  { s with status := { s.status with err := .ok }, errInfo := 0 }

/-- The report of a raise (R402): ERR, ERR_INFO and FAULT_SEEN. A raise that ends only its command does no more. -/
def State.report (e : Raise) (s : State) : State :=
  { s with status := { s.status with err := e.code, faultSeen := true }, errInfo := e.info }

/-- OP <- NONE (so BUSY 0), SND_STATE <- IDLE, RCV_STATE <- IDLE (R402). -/
def State.endOperation (s : State) : State :=
  { s with status := { s.status with op := .none, sndState := .idle, rcvState := .idle } }

/-- SESS <- ENDED with a cause (R25, R28). -/
def State.endSession (cause : EndCause) (s : State) : State :=
  { s with status := { s.status with sess := .ended, endCause := cause } }

/-- The whole effect of a raise that ends the blocking operation and the session (R402): the report, the operation's
end, and the session's end with FATAL_ERROR unless the raising rule has already ended it. -/
def State.raiseFatal (e : Raise) (s : State) : State :=
  if s.status.sess = .opened then ((s.report e).endOperation).endSession .fatalError
  else (s.report e).endOperation

/-- A command written while BUSY = 1 (R455, R38): not executed, OVERRUN and FAULT_SEEN set. -/
def State.overrun (s : State) : State :=
  { s with status := { s.status with overrun := true, faultSeen := true } }

/-- The issue of a command: the overrun check comes before everything else (R80, R409, R455). -/
def issue (s : State) (body : State → Host.Outcome State Fault Refusal) : Host.Outcome State Fault Refusal :=
  if s.busy then .next s.overrun else body s

/-- A command that completes normally (R403). -/
def completed (s : State) : Host.Outcome State Fault Refusal := .next s.complete

/-- A command that raises and ends only itself (R402). -/
def raised (e : Raise) (s : State) : Host.Outcome State Fault Refusal := .next (s.report e)

/-- How a rule of a blocking operation ends: it has run to its end, or it has raised with the writes made so far, or it
has met a state that no run reaches. -/
inductive Flow where
  | done (s : State)
  | raise (e : Raise) (s : State)
  | stuck (f : Fault)
deriving DecidableEq, Repr

/-- The rest of a rule, after a part that may end it. -/
def Flow.andThen (r : Flow) (k : State → Flow) : Flow :=
  match r with
  | .done s => k s
  | .raise e s => .raise e s
  | .stuck f => .stuck f

/-- The step's outcome: a raise keeps the writes made before it and ends the operation and the session (R402). -/
def Flow.settle : Flow → Host.Outcome State Fault Refusal
  | .done s => .next s
  | .raise e s => .next (s.raiseFatal e)
  | .stuck f => .fault f

/-! ## The channel and the noise stage -/

/-- `Emit(p)` (R66). -/
def State.emit (p : ByteStr) (s : State) : State :=
  { s with env := { s.env with tx := s.env.tx ++ [p] } }

/-- The draw source after some draws. -/
def State.setDraws (d : DrawSource) (s : State) : State :=
  { s with env := { s.env with draws := d } }

/-- `Noise(p)` (R188): the draw source afterwards, and the packet or INJECT_RANGE(1). -/
def noise (s : State) (p : ByteStr) : DrawSource × Except Raise (ByteStr × Bool) :=
  corruptPacket s.params.burstMode s.env.draws p s.cfg.num.toNat s.cfg.prob.toNat s.cfg.burst.toNat

/-- `Emit(Noise(p))`. -/
def emitNoisy (p : ByteStr) (s : State) : Flow :=
  match noise s p with
  | (d, .ok q) => .done ((s.setDraws d).emit q.1)
  | (d, .error e) => .raise e (s.setDraws d)

/-! ## Packet builders -/

/-- The C field of a payload's packet: its checksum, bit 7 first (R244). -/
def checksumBits (pay : ByteStr) : BitStr := bytesToBits [checksum pay]

/-- The packet of fragment `i` with payload `pay` (R244). Fields `fmt` does not have are not rendered. -/
def dataPacket (s : State) (i : Nat) (pay : ByteStr) : ByteStr :=
  render s.fmt ⟨i + 1, s.snd.total, 0x00, checksumBits pay, s.snd.bit, pay⟩

/-- `BuildData(i)` (R244), where SND_FRAGS has an element `i`. -/
def buildData (s : State) (i : Nat) : Option ByteStr := s.snd.frags[i]?.map (dataPacket s i)

/-- The rows of R245's table: the replies a receiver builds. -/
inductive Reply where
  | v20Ack
  | v20Nack
  | textAck
  | textNak
  | v30Ack
deriving DecidableEq, Repr

/-- The literal `"ACK"` (R93). -/
def ackText : ByteStr := [0x41, 0x43, 0x4B]

/-- The literal `"NAK"` (R93). -/
def nakText : ByteStr := [0x4E, 0x41, 0x4B]

/-- A reply's flags (R245). -/
def Reply.flags : Reply → Byte
  | .v20Ack => 0x01
  | .v20Nack => 0x04
  | .textAck => 0x00
  | .textNak => 0x00
  | .v30Ack => 0x01

/-- A reply's payload (R245). -/
def Reply.payload : Reply → ByteStr
  | .v20Ack => []
  | .v20Nack => []
  | .textAck => ackText
  | .textNak => nakText
  | .v30Ack => ackText

/-- `BuildReply(s, t, k, n)` (R245) for the packet `h` it answers. -/
def buildReply (s : State) (k : Reply) (h : Hdr) (n : Bool) : ByteStr :=
  render s.fmt ⟨h.s, h.t, k.flags, checksumBits k.payload, n, k.payload⟩

/-- `BuildFin()` (R246). -/
def buildFin (s : State) : ByteStr := render s.fmt ⟨0, 0, 0x02, checksumBits [], s.snd.bit, []⟩

/-! ## The sender's primitives -/

/-- `Transmit(p)` (R247). -/
def transmit (p : ByteStr) (s : State) : Flow :=
  emitNoisy p { s with snd := { s.snd with lastPkt := some p, retryCnt := 0 } }

/-- `Transmit(BuildData(i))` and then SND_STATE <- WAIT_FOR_REPLY (R241, R249). -/
def transmitFragment (i : Nat) (s : State) : Flow :=
  match buildData s i with
  | none => .stuck .noFragment
  | some p =>
    (transmit p s).andThen fun s => .done { s with status := { s.status with sndState := .waitForReply } }

/-- Why the sender retransmits (R248). -/
inductive Why where
  | nack
  | garbled
  | stale
  | timeout
deriving DecidableEq, Repr

/-- What the retry ceiling raises (R248, R401). -/
def Why.raise : Why → Raise
  | .nack => ⟨.checksumMismatch, 1⟩
  | .garbled => ⟨.checksumMismatch, 2⟩
  | .stale => ⟨.checksumMismatch, 3⟩
  | .timeout => ⟨.timeoutExceeded, 0⟩

/-- `Retransmit(why)` (R248). -/
def retransmit (why : Why) (s : State) : Flow :=
  if s.cfg.retry.toNat > 0 ∧ s.snd.retryCnt + 1 > s.cfg.retry.toNat then .raise why.raise s
  else
    match s.snd.lastPkt with
    | none => .stuck .noLastPacket
    | some p => emitNoisy p { s with snd := { s.snd with retryCnt := s.snd.retryCnt + 1 } }

/-- `Advance()` (R249). -/
def advance (s : State) : Flow :=
  let s1 : State :=
    { s with status := { s.status with sndState := .idle }, snd := { s.snd with idx := s.snd.idx + 1 } }
  if s1.snd.idx = s1.snd.total then .done ({ s1 with status := { s1.status with op := .none } }).complete
  else transmitFragment s1.snd.idx s1

/-- SND_BIT <- 1 − SND_BIT, then Advance (R311, R341). -/
def acceptAck (s : State) : Flow := advance { s with snd := { s.snd with bit := !s.snd.bit } }

/-! ## The receiver's primitives -/

/-- `Deliver()` (R250). -/
def deliver (s : State) : State :=
  if bufComplete s.rcv then
    ({ s with
        res := { s.res with r := reassemble s.rcv }
        status := { s.status with rcvState := .idle, op := .none } }).complete
  else s

/-- `SendReply(p, inj)` (R251). -/
def sendReply (p : ByteStr) (inj : Bool) (s : State) : Flow :=
  if inj then emitNoisy p s else .done (s.emit p)

/-- `BufAdd` on RCV_BUF and RCV_TOTAL (R206). -/
def bufferFragment (h : Hdr) (s : State) : Flow :=
  match bufAdd s.packetDataLen s.rcv h.s h.t h.pay with
  | .error e => .raise e s
  | .ok rc => .done { s with rcv := rc.1 }

/-- The checksum byte of a decoded packet, `BitsToBytes(h.e)[0]` (R285, R311, R313, R341, R343); a format with a C field
gives 8 bits. -/
def Hdr.checkByte (h : Hdr) : Byte := (bitsToBytes h.e).headD 0

/-- `CkValid(h.pay, c)` of those rules. -/
def Hdr.checks (h : Hdr) : Bool := ckValid h.pay h.checkByte

/-! ## The RX prologues -/

/-- The FIN branch of both prologues (R252, R253): the session ends with FIN_RECEIVED and CHANNEL_CLOSED(2) is raised. -/
def finReceived (s : State) : Flow := .raise ⟨.channelClosed, 2⟩ (s.endSession .finReceived)

/-- The sender's RX prologue, then the version's rule (R252). -/
def senderRx (p : ByteStr) (rule : Hdr → State → Flow) (s : State) : Flow :=
  match parse s.fmt p with
  | .error c => .raise ⟨.malformedHeader, c⟩ s
  | .ok h => if finFlag h.fl then finReceived s else rule h s

/-- Whether a receiver drops a packet as a stale reply (R253). -/
def staleReply (v : Version) (fl : Byte) : Bool :=
  (decide (v = .v20) || decide (v = .v30)) && (ackFlag fl || nackFlag fl)

/-- The receiver's RX prologue, then the version's rule (R253). -/
def receiverRx (p : ByteStr) (rule : Hdr → State → Flow) (s : State) : Flow :=
  match parse s.fmt p with
  | .error c => .raise ⟨.malformedHeader, c⟩ s
  | .ok h =>
    if finFlag h.fl then finReceived s
    else if staleReply s.cfg.ver h.fl then .done s
    else rule h s

/-! ## The preconditions of SEND, RECV and FINISH -/

/-- NO_SESSION and CHANNEL_CLOSED(1) (R241 to R243). -/
def inSession (s : State) (body : State → Host.Outcome State Fault Refusal) : Host.Outcome State Fault Refusal :=
  match s.status.sess with
  | .none => raised ⟨.noSession, 0⟩ s
  | .ended => raised ⟨.channelClosed, 1⟩ s
  | .opened => body s

end Sys2Proof.Machine
end

