-- ==== Sys2Proof/Machine/BitCodec.lean ====
section
/-! DEFINITION. Sys2Proof/Machine/BitCodec.lean: the BitCodec commands (R130, R131). -/

namespace Sys2Proof.Machine

/-- B2BITS (R130). -/
def execB2bits (s : State) : Host.Outcome State Fault Refusal :=
  issue s fun s => completed { s with res := { s.res with rv := bytesToBits s.ports.a } }

/-- BITS2B (R131). -/
def execBits2b (s : State) : Host.Outcome State Fault Refusal :=
  issue s fun s =>
    if s.ports.v.length % 8 ≠ 0 then raised ⟨.operandError, 1⟩ s
    else completed { s with res := { s.res with r := bitsToBytes s.ports.v } }

end Sys2Proof.Machine
end

