-- ==== Sys2Proof/Machine/Checksum.lean ====
section
/-! DEFINITION. Sys2Proof/Machine/Checksum.lean: the ChecksumEngine commands (R142, R143). -/

namespace Sys2Proof.Machine

/-- CKGEN (R142). -/
def execCkgen (s : State) : Host.Outcome State Fault Refusal :=
  issue s fun s =>
    let c := checksum s.ports.a
    completed { s with res := { s.res with rs0 := c.setWidth 32, rv := bytesToBits [c] } }

/-- CKVER (R143): `BitsToBytes(V)[0]` exists, V having 8 bits. -/
def execCkver (s : State) : Host.Outcome State Fault Refusal :=
  issue s fun s =>
    if s.ports.v.length ≠ 8 then raised ⟨.operandError, 3⟩ s
    else completed { s with res := { s.res with rflag := ckValid s.ports.a ((bitsToBytes s.ports.v).headD 0) } }

end Sys2Proof.Machine
end

