-- ==== Sys2Proof/Machine/Arq.lean ====
section
/-! DEFINITION. Sys2Proof/Machine/Arq.lean: the version rules of the state machines (R281 to R285, R311 to R313, R341 to
R344). -/

namespace Sys2Proof.Machine

/-- V10RecvRX (R281). -/
def v10RecvRx (h : Hdr) (s : State) : Flow :=
  (bufferFragment h s).andThen fun s => .done (deliver s)

/-- V20SendRX (R284): a reply with both flags counts as a NACK. -/
def v20SendRx (h : Hdr) (s : State) : Flow :=
  if ackFlag h.fl ∧ ¬ nackFlag h.fl then advance s
  else if nackFlag h.fl then retransmit .nack s
  else retransmit .garbled s

/-- V20RecvRX (R285): replies are never injected. -/
def v20RecvRx (h : Hdr) (s : State) : Flow :=
  if h.checks then
    (bufferFragment h s).andThen fun s =>
      (sendReply (buildReply s .v20Ack h false) false s).andThen fun s => .done (deliver s)
  else sendReply (buildReply s .v20Nack h false) false s

/-- V21SendRX, for versions 2.1 and 2.2 (R311); version 2.2 also checks the reply's N (R312). -/
def v21SendRx (h : Hdr) (s : State) : Flow :=
  if h.checks ∧ h.pay = ackText then
    if s.cfg.ver = .v22 ∧ h.n ≠ s.snd.bit then retransmit .stale s
    else acceptAck s
  else if h.checks ∧ h.pay = nakText then retransmit .nack s
  else retransmit .garbled s

/-- A new fragment in versions 2.1, 2.2 and 3.0 (R313, R343): buffer it, invert RCV_BIT, acknowledge it, uncorrupted
when it completes the message, and deliver. -/
def newFragment (k : Reply) (h : Hdr) (s : State) : Flow :=
  (bufferFragment h s).andThen fun s =>
    let s : State := { s with rcv := { s.rcv with bit := !s.rcv.bit } }
    (sendReply (buildReply s k h h.n) (!bufComplete s.rcv) s).andThen fun s => .done (deliver s)

/-- V21RecvRX, for versions 2.1 and 2.2 (R313). -/
def v21RecvRx (h : Hdr) (s : State) : Flow :=
  if ¬ h.checks then sendReply (buildReply s .textNak h s.rcv.bit) true s
  else if h.n = s.rcv.bit then newFragment .textAck h s
  else sendReply (buildReply s .textAck h h.n) true s

/-- V30SendRX (R341). -/
def v30SendRx (h : Hdr) (s : State) : Flow :=
  if nackFlag h.fl then retransmit .nack s
  else if ¬ ackFlag h.fl then retransmit .garbled s
  else if ¬ h.checks then retransmit .garbled s
  else if h.n ≠ s.snd.bit then retransmit .stale s
  else acceptAck s

/-- V30RecvRX (R343): a corrupt packet is answered with the prior ACK. -/
def v30RecvRx (h : Hdr) (s : State) : Flow :=
  if ¬ h.checks then sendReply (buildReply s .v30Ack h (!s.rcv.bit)) true s
  else if h.n = s.rcv.bit then newFragment .v30Ack h s
  else sendReply (buildReply s .v30Ack h h.n) true s

/-- The rule of an RX in a wait state (R254); a version 1.0 sender never waits. -/
def rxRule (p : ByteStr) (s : State) : Flow :=
  match s.status.op, s.cfg.ver with
  | .send, .v10 => .stuck .noSenderRule
  | .send, .v20 => senderRx p v20SendRx s
  | .send, .v21 => senderRx p v21SendRx s
  | .send, .v22 => senderRx p v21SendRx s
  | .send, .v30 => senderRx p v30SendRx s
  | .recv, .v10 => receiverRx p v10RecvRx s
  | .recv, .v20 => receiverRx p v20RecvRx s
  | .recv, .v21 => receiverRx p v21RecvRx s
  | .recv, .v22 => receiverRx p v21RecvRx s
  | .recv, .v30 => receiverRx p v30RecvRx s
  | .none, _ => .done s

/-- The rule of a TIMEOUT in a wait with a timer (R256): the version 3.0 sender retransmits (R342), the version 1.0 and
3.0 receivers keep waiting (R282, R344). -/
def timeoutRule (s : State) : Flow :=
  match s.status.op with
  | .send => retransmit .timeout s
  | .recv => .done s
  | .none => .done s

end Sys2Proof.Machine
end

