-- ==== Sys2Proof/Machine/Events.lean ====
section
/-! DEFINITION. Sys2Proof/Machine/Events.lean: the events (R254 to R257), reset (R450) and the illegal words (R80, R81). -/

namespace Sys2Proof.Machine

/-- A wait state, in which RX is enabled (R255). -/
def State.waiting (s : State) : Bool :=
  (decide (s.status.op = .send) && decide (s.status.sndState = .waitForReply)) ||
    (decide (s.status.op = .recv) && decide (s.status.rcvState = .waitForPacket))

/-- A wait with a timer, in which TIMEOUT is enabled (R256): the version 1.0 receiver, the version 3.0 sender and
receiver. -/
def State.timedWait (s : State) : Bool :=
  (decide (s.status.op = .send) && decide (s.status.sndState = .waitForReply) && decide (s.cfg.ver = .v30)) ||
    (decide (s.status.op = .recv) && decide (s.status.rcvState = .waitForPacket) &&
      (decide (s.cfg.ver = .v10) || decide (s.cfg.ver = .v30)))

/-- A packet that the channel cannot deliver stays in the channel (R40, R255; log 11). -/
def State.keepInChannel (p : ByteStr) (s : State) : State :=
  { s with env := { s.env with pending := .event 0x01 p :: s.env.pending } }

/-- RX (R254, R255). -/
def execRx (p : ByteStr) (s : State) : Host.Outcome State Fault Refusal :=
  if s.waiting then (rxRule p s).settle else .next (s.keepInChannel p)

/-- TIMEOUT (R256); where it is not enabled there is no timer and nothing happens. -/
def execTimeout (s : State) : Host.Outcome State Fault Refusal :=
  if s.timedWait then (timeoutRule s).settle else .next s

/-- CHAN_CLOSE (R257). -/
def execChanClose (s : State) : Host.Outcome State Fault Refusal :=
  if s.status.sess = .opened then
    if s.status.op = .none then .next (s.endSession .channelClosed)
    else .next ((s.endSession .channelClosed).raiseFatal ⟨.channelClosed, 3⟩)
  else .next s

/-- RESET (R450): every register takes R41's value; the channel, the draw source and the parameters are not touched. -/
def execReset (s : State) : Host.Outcome State Fault Refusal :=
  .next { State.reset with env := s.env, params := s.params }

/-- ILLEGAL_COMMAND with the sub-code of R80's first failing check (R80, R81); a well-formed `illegal` has one. -/
def execIllegal (w : BitVec 32) (s : State) : Host.Outcome State Fault Refusal :=
  issue s fun s => raised ⟨.illegalCommand, (illegalSubcode w).getD 0⟩ s

end Sys2Proof.Machine
end

