-- ==== Sys2Proof/Machine/Injector.lean ====
section
/-! DEFINITION. Sys2Proof/Machine/Injector.lean: the ErrorInjector commands (R185 to R187). -/

namespace Sys2Proof.Machine

/-- INJFLIP (R185). -/
def execInjflip (s : State) : Host.Outcome State Fault Refusal :=
  issue s fun s =>
    match flipN s.env.draws s.ports.a s.ports.arg0.toNat with
    | (d, .error e) => raised e (s.setDraws d)
    | (d, .ok r) => completed { (s.setDraws d) with res := { s.res with r := r } }

/-- INJBURST (R186). -/
def execInjburst (s : State) : Host.Outcome State Fault Refusal :=
  issue s fun s =>
    let run := burst s.params.burstMode s.env.draws s.ports.a s.ports.arg0.toNat
    completed { (s.setDraws run.1) with res := { s.res with r := run.2 } }

/-- INJPKT (R187): a raise of the flip count comes after the probability draw. -/
def execInjpkt (s : State) : Host.Outcome State Fault Refusal :=
  issue s fun s =>
    if s.ports.arg1.toNat > 10000 then raised ⟨.operandError, 5⟩ s
    else
      match corruptPacket s.params.burstMode s.env.draws s.ports.a s.ports.arg0.toNat s.ports.arg1.toNat
          s.ports.arg2.toNat with
      | (d, .error e) => raised e (s.setDraws d)
      | (d, .ok q) => completed { (s.setDraws d) with res := { s.res with r := q.1, rflag := q.2 } }

end Sys2Proof.Machine
end

