-- ==== Sys2Proof/Machine/PacketCodec.lean ====
section
/-! DEFINITION. Sys2Proof/Machine/PacketCodec.lean: the PacketCodec commands (R201, R203, R205, R208, R209). -/

namespace Sys2Proof.Machine

/-- HDRENC's field checks, in order (R201): the sub-code of MALFORMED_HEADER, if one fails. -/
def hdrencCheck (f : Format) (p : OperandPorts) : Option (BitVec 16) :=
  if p.arg0.toNat > 9999 then some 3
  else if p.arg1.toNat > 9999 then some 4
  else if p.arg2.toNat > 255 then some 5
  else if f.hasC ∧ p.v.length ≠ 8 then some 6
  else if f.hasEC ∧ p.v.length = 0 then some 7
  else if f.hasN ∧ p.arg3.toNat > 1 then some 8
  else none

/-- The record HDRENC renders (R201): V and ARG3 only where the format has the field. -/
def hdrencRecord (f : Format) (p : OperandPorts) : Hdr :=
  ⟨p.arg0.toNat, p.arg1.toNat, p.arg2.setWidth 8, if f.hasC || f.hasEC then p.v else [],
    f.hasN && decide (p.arg3.toNat = 1), p.a⟩

/-- HDRENC (R201). -/
def execHdrenc (f : Format) (s : State) : Host.Outcome State Fault Refusal :=
  issue s fun s =>
    match hdrencCheck f s.ports with
    | some c => raised ⟨.malformedHeader, c⟩ s
    | none =>
      let p := render f (hdrencRecord f s.ports)
      if p.length > Config.maxLen then raised ⟨.operandError, 4⟩ s
      else completed { s with res := { s.res with r := p } }

/-- HDRDEC (R203). -/
def execHdrdec (f : Format) (s : State) : Host.Outcome State Fault Refusal :=
  issue s fun s =>
    match parse f s.ports.a with
    | .error c => raised ⟨.malformedHeader, c⟩ s
    | .ok h =>
      completed
        { s with
          res := { s.res with
            rs0 := scalar h.s, rs1 := scalar h.t, rs2 := h.fl.setWidth 32, rs3 := bitScalar h.n, rv := h.e,
            r := h.pay } }

/-- FRAG (R205). -/
def execFrag (s : State) : Host.Outcome State Fault Refusal :=
  issue s fun s =>
    let fs := fragment s.ports.a s.packetDataLen
    if fs.length > 9999 then raised ⟨.malformedHeader, 12⟩ s
    else completed { s with res := { s.res with rl := fs, rs0 := scalar fs.length } }

/-- RBCLR (R208). -/
def execRbclr (s : State) : Host.Outcome State Fault Refusal :=
  issue s fun s => completed { s with rcv := { s.rcv with buf := [], total := none } }

/-- RBADD's results from the buffer after BufAdd (R209). -/
def rbaddResults (rc : ReceiverRegs) (r : BufResult) (res : ResultPorts) : ResultPorts :=
  { res with
    rs0 := scalar rc.buf.length
    rs1 := bitScalar (decide (r = .dup))
    rflag := bufComplete rc
    r := if bufComplete rc then reassemble rc else [] }

/-- RBADD (R209). -/
def execRbadd (s : State) : Host.Outcome State Fault Refusal :=
  issue s fun s =>
    match bufAdd s.packetDataLen s.rcv s.ports.arg0.toNat s.ports.arg1.toNat s.ports.a with
    | .error e => raised e s
    | .ok rc => completed { s with rcv := rc.1, res := rbaddResults rc.1 rc.2 s.res }

end Sys2Proof.Machine
end

