-- ==== Sys2Proof/Machine/Parity.lean ====
section
/-! DEFINITION. Sys2Proof/Machine/Parity.lean: the ParityEngine commands (R161 to R165). -/

namespace Sys2Proof.Machine

/-- PARGEN (R161). -/
def execPargen (s : State) : Host.Outcome State Fault Refusal :=
  issue s fun s => completed { s with res := { s.res with rv := parityOf s.ports.a } }

/-- PARVER's results: R, RFLAG, RS0 (0 clean, 1 corrected, 2 uncorrectable), RS1 and RS2 (R162 to R165). -/
def parityResults (a : ByteStr) (res : ResultPorts) : ParityOutcome → ResultPorts
  | .clean => { res with r := a, rflag := true, rs0 := 0, rs1 := 0, rs2 := 0 }
  | .corrected i j a2 => { res with r := a2, rflag := true, rs0 := 1, rs1 := scalar i, rs2 := scalar j }
  | .uncorrectable => { res with r := [], rflag := false, rs0 := 2, rs1 := 0, rs2 := 0 }

/-- PARVER (R162 to R165). -/
def execParver (s : State) : Host.Outcome State Fault Refusal :=
  issue s fun s =>
    if s.ports.v.length ≠ s.ports.a.length + 8 then raised ⟨.operandError, 2⟩ s
    else completed { s with res := parityResults s.ports.a s.res (parityCheck s.ports.a s.ports.v) }

end Sys2Proof.Machine
end

