-- ==== Sys2Proof/Machine/Session.lean ====
section
/-! DEFINITION. Sys2Proof/Machine/Session.lean: OPEN, SEND, RECV and FINISH (R240 to R243, R280). -/

namespace Sys2Proof.Machine

/-- The registers of a fresh session of version `v` (R240). -/
def openState (v : Version) (s : State) : State :=
  { s with
    cfg := ⟨v, s.ports.arg0, s.ports.arg1, s.ports.arg2, s.ports.arg3⟩
    snd := ⟨[], 0, 0, none, 0, false⟩
    rcv := ⟨[], none, false⟩
    status := { s.status with sndState := .idle, rcvState := .idle, sess := .opened, endCause := .none } }

/-- OPEN (R240). -/
def execOpen (v : Version) (s : State) : Host.Outcome State Fault Refusal :=
  issue s fun s =>
    if s.status.sess = .opened then raised ⟨.sessionOpen, 0⟩ s
    else if s.ports.arg1.toNat > 10000 then raised ⟨.configError, 1⟩ s
    else completed (openState v s)

/-- The packets of a version 1.0 message, in seq order (R280). -/
def allPackets (s : State) : List ByteStr := s.snd.frags.mapIdx fun i pay => dataPacket s i pay

/-- `V10Send` (R280), SND_FRAGS and SND_TOTAL being set: every packet emitted in order, none through the noise stage. -/
def v10Send (s : State) : State :=
  { s with
    env := { s.env with tx := s.env.tx ++ allPackets s }
    snd := { s.snd with lastPkt := buildData s (s.snd.total - 1), idx := s.snd.total } }

/-- SND_FRAGS, SND_TOTAL, SND_IDX and RETRY_CNT at the start of a SEND (R241). -/
def loadMessage (fs : List ByteStr) (s : State) : State :=
  { s with snd := { s.snd with frags := fs, total := fs.length, idx := 0, retryCnt := 0 } }

/-- SEND after its preconditions (R241). -/
def sendMessage (s : State) : Flow :=
  let fs := fragment s.ports.a s.packetDataLen
  if fs.length > 9999 then .raise ⟨.malformedHeader, 12⟩ s
  else if fs.length = 0 then .done (loadMessage fs s).complete
  else if s.cfg.ver = .v10 then .done (v10Send (loadMessage fs s)).complete
  else
    transmitFragment 0
      { loadMessage fs s with status := { s.status with op := .send } }

/-- SEND (R241). -/
def execSend (s : State) : Host.Outcome State Fault Refusal :=
  issue s fun s => inSession s fun s => (sendMessage s).settle

/-- RECV (R242): it does not complete in its own step. -/
def execRecv (s : State) : Host.Outcome State Fault Refusal :=
  issue s fun s => inSession s fun s =>
    .next
      { s with
        rcv := { s.rcv with buf := [], total := none }
        status := { s.status with op := .recv, rcvState := .waitForPacket } }

/-- FINISH (R243). -/
def execFinish (s : State) : Host.Outcome State Fault Refusal :=
  issue s fun s => inSession s fun s => completed ((s.emit (buildFin s)).endSession .finSent)

end Sys2Proof.Machine
end

