-- ==== Sys2Proof/Machine/Dispatch.lean ====
section
/-! DEFINITION. Sys2Proof/Machine/Dispatch.lean: each instruction's meaning. -/

namespace Sys2Proof.Machine

/-- One step of the core for one instruction (R4). -/
def exec (i : Instr) (s : State) : Host.Outcome State Fault Refusal :=
  match i with
  | .b2bits => Sys2Proof.Machine.execB2bits s
  | .bits2b => Sys2Proof.Machine.execBits2b s
  | .ckgen => Sys2Proof.Machine.execCkgen s
  | .ckver => Sys2Proof.Machine.execCkver s
  | .pargen => Sys2Proof.Machine.execPargen s
  | .parver => Sys2Proof.Machine.execParver s
  | .injflip => Sys2Proof.Machine.execInjflip s
  | .injburst => Sys2Proof.Machine.execInjburst s
  | .injpkt => Sys2Proof.Machine.execInjpkt s
  | .hdrenc f => Sys2Proof.Machine.execHdrenc f s
  | .hdrdec f => Sys2Proof.Machine.execHdrdec f s
  | .frag => Sys2Proof.Machine.execFrag s
  | .rbclr => Sys2Proof.Machine.execRbclr s
  | .rbadd => Sys2Proof.Machine.execRbadd s
  | .openSession v => Sys2Proof.Machine.execOpen v s
  | .send => Sys2Proof.Machine.execSend s
  | .recv => Sys2Proof.Machine.execRecv s
  | .finish => Sys2Proof.Machine.execFinish s
  | .rx p => Sys2Proof.Machine.execRx p s
  | .timeout => Sys2Proof.Machine.execTimeout s
  | .chanClose => Sys2Proof.Machine.execChanClose s
  | .reset => Sys2Proof.Machine.execReset s
  | .illegal w => Sys2Proof.Machine.execIllegal w s

end Sys2Proof.Machine
end

