-- ==== Sys2Proof/Machine/Inputs.lean ====
section
/-! DEFINITION. Sys2Proof/Machine/Inputs.lean: which input the core takes next (R94, R255 to R257, R460), and what the
host's port writes do (R70). -/

namespace Sys2Proof.Machine

/-- Whether an input can be taken now: a CMD write and reset always (R21, R450), an event as R255 to R257 say, a port
write within R71's lengths. An event that R94 does not define is no input of the core (log 12). -/
def inputEnabled (s : State) : Input → Bool
  | .cmdWrite _ => true
  | .event code data =>
    match decodeEvent code data with
    | .error _ => false
    | .ok (.rx p) => s.waiting && decide (p.length ≤ Config.maxLen)
    | .ok .timeout => s.timedWait
    | .ok .chanClose => true
    | .ok _ => false
  | .resetLine => true
  | .writeA b => decide (b.length ≤ Config.maxLen)
  | .writeV v => decide (v.length ≤ 8 * Config.maxLen)
  | .writeArg _ _ => true

/-- The first input of a list that can be taken, and the list without it; what cannot be taken stays where it is (R255:
a packet offered outside a wait stays in the channel). -/
def takeEnabled (s : State) : List Input → Option (Input × List Input)
  | [] => none
  | inp :: rest =>
    if inputEnabled s inp then some (inp, rest) else (takeEnabled s rest).map fun r => (r.1, inp :: r.2)

/-- The pending inputs replaced. -/
def State.setPending (l : List Input) (s : State) : State :=
  { s with env := { s.env with pending := l } }

/-- The operand ports after the host's write of ARGk (R22, R70). -/
def OperandPorts.setArg (port : ArgPort) (x : BitVec 16) (p : OperandPorts) : OperandPorts :=
  match port with
  | .arg0 => { p with arg0 := x }
  | .arg1 => { p with arg1 := x }
  | .arg2 => { p with arg2 := x }
  | .arg3 => { p with arg3 := x }

/-- What a step has to do. -/
inductive Fetched where
  /-- No input can be taken: the core takes no step (R419, R451). -/
  | idle
  /-- The host has written an operand port: the core takes no step (R70). -/
  | portWritten (s : State)
  /-- The core steps with this instruction. -/
  | run (i : Instr) (s : State)
deriving DecidableEq, Repr

/-- What taking an input does before the instruction runs: a CMD write puts the word in CMD (R21), a host write of an
operand port changes only the port (R70). -/
def accept (inp : Input) (s : State) : Fetched :=
  match inp with
  | .cmdWrite w => .run (decodeWord w) { s with cmd := w }
  | .event code data =>
    match decodeEvent code data with
    | .ok i => .run i s
    | .error _ => .idle
  | .resetLine => .run .reset s
  | .writeA b => .portWritten { s with ports := { s.ports with a := b } }
  | .writeV v => .portWritten { s with ports := { s.ports with v := v } }
  | .writeArg port x => .portWritten { s with ports := s.ports.setArg port x }

/-- The next input of a state, taken. -/
def fetch (s : State) : Fetched :=
  match takeEnabled s s.env.pending with
  | none => .idle
  | some (inp, rest) => accept inp (s.setPending rest)

/-- A wait of a version 1.0 receiver, in which RX and TIMEOUT are enabled (R255, R256), unless the input can already be
taken: what an opcode-table row needs to be the next step's instruction (log 20). -/
def State.enable (inp : Input) (s : State) : State :=
  if inputEnabled s inp then s
  else
    { s with
      cfg := { s.cfg with ver := .v10 }
      status :=
        { s.status with
          sess := .opened, endCause := .none, op := .recv, sndState := .idle, rcvState := .waitForPacket } }

/-- The bits of an opcode-table row offered to the core before every other input. -/
def State.offerTableWord (s : State) (nbits w : Nat) : State :=
  match tableInput nbits w with
  | none => s
  | some inp => (s.enable inp).setPending (inp :: s.env.pending)

end Sys2Proof.Machine
end

