-- ==== Sys2Proof/Machine/Step.lean ====
section
/-! DEFINITION. Sys2Proof/Machine/Step.lean: one step of the machine (R4). -/

namespace Sys2Proof.Machine

/-- One step: the next input that can be taken, and its instruction run; with none, nothing happens (R419, R451). -/
def step (s : State) : Host.Outcome State Fault Refusal :=
  match fetch s with
  | .idle => .next s
  | .portWritten s' => .next s'
  | .run i s' => exec i s'

/-- `s` with an opcode-table row's instruction as its next input (log 20). -/
def State.withFetchWord (s : State) (nbits w : Nat) : State := s.offerTableWord nbits w

end Sys2Proof.Machine
end

