-- ==== Sys2Proof/WellFormed.lean ====
section
/-! DEFINITION. Sys2Proof/WellFormed.lean: the operands an instruction admits, beyond its types. -/

namespace Sys2Proof

/-- An RX packet is at most MAXLEN bytes (R71), and an illegal word is one that R80 raises on; every other operand is
legal by its type. -/
def Instr.wf : Instr → Bool
  | .rx p => decide (p.length ≤ Config.maxLen)
  | .illegal w => (illegalSubcode w).isSome
  | .b2bits | .bits2b | .ckgen | .ckver | .pargen | .parver | .injflip | .injburst | .injpkt => true
  | .frag | .rbclr | .rbadd => true
  | .send | .recv | .finish | .timeout | .chanClose | .reset => true
  | .hdrenc _ | .hdrdec _ | .openSession _ => true

end Sys2Proof
end

