-- ==== Sys2Proof/Safety.lean ====
section
/-! DEFINITION. Sys2Proof/Safety.lean: the invariant of the core's runs, and the terms the statements use. -/

namespace Sys2Proof

/-- The rows of format CMD32: what a host write of CMD can issue (R80, R82). -/
def Instr.isCommand : Instr → Bool
  | .b2bits | .bits2b | .ckgen | .ckver | .pargen | .parver | .injflip | .injburst | .injpkt => true
  | .hdrenc _ | .hdrdec _ | .frag | .rbclr | .rbadd => true
  | .openSession _ | .send | .recv | .finish | .illegal _ => true
  | .rx _ | .timeout | .chanClose | .reset => false

/-- The datapath commands, opcodes 0x01 to 0x34 (R402, R452). -/
def Instr.isDatapath : Instr → Bool
  | .b2bits | .bits2b | .ckgen | .ckver | .pargen | .parver | .injflip | .injburst | .injpkt => true
  | .hdrenc _ | .hdrdec _ | .frag | .rbclr | .rbadd => true
  | .openSession _ | .send | .recv | .finish | .illegal _ => false
  | .rx _ | .timeout | .chanClose | .reset => false

/-- The result ports (R23). -/
inductive ResultPort where
  | r
  | rv
  | rl
  | rs0
  | rs1
  | rs2
  | rs3
  | rflag
deriving DecidableEq, Repr

/-- The result ports an instruction may write (R23's table; reset writes every register, R450). -/
def Instr.writes : Instr → List ResultPort
  | .b2bits | .pargen => [.rv]
  | .bits2b | .injflip | .injburst | .hdrenc _ | .rx _ => [.r]
  | .ckgen => [.rv, .rs0]
  | .ckver => [.rflag]
  | .parver => [.rflag, .r, .rs0, .rs1, .rs2]
  | .injpkt => [.r, .rflag]
  | .hdrdec _ => [.rs0, .rs1, .rs2, .rs3, .rv, .r]
  | .frag => [.rs0, .rl]
  | .rbadd => [.rflag, .rs0, .rs1, .r]
  | .rbclr | .openSession _ | .send | .recv | .finish | .timeout | .chanClose | .illegal _ => []
  | .reset => [.r, .rv, .rl, .rs0, .rs1, .rs2, .rs3, .rflag]

namespace Machine

/-- The sub-codes an error code is reported with (R401); a code that is never written has none. -/
def ErrCode.subcodes : ErrCode → List (BitVec 16)
  | .ok => [0]
  | .malformedHeader => [1, 2, 3, 4, 5, 6, 7, 8, 9, 10, 11, 12, 13]
  | .checksumMismatch => [1, 2, 3]
  | .parityUncorrectable => []
  | .channelClosed => [1, 2, 3]
  | .timeoutExceeded => [0]
  | .illegalCommand => [1, 2, 3]
  | .overrun => []
  | .noSession => [0]
  | .sessionOpen => [0]
  | .configError => [1]
  | .operandError => [1, 2, 3, 4, 5]
  | .injectRange => [1]

/-- What every run of the core keeps. -/
structure CoreInv (s : State) : Prop where
  /-- ERR and ERR_INFO hold a pair of R401's table. -/
  report : s.errInfo ∈ s.status.err.subcodes
  /-- FAULT_SEEN is set once an error is reported or OVERRUN is set (R38). -/
  seen : s.status.err ≠ .ok ∨ s.status.overrun = true → s.status.faultSeen = true
  /-- END_CAUSE is 0 exactly when SESS is not ENDED (R25). -/
  cause : s.status.endCause = .none ↔ s.status.sess ≠ .ended
  /-- A SEND in progress waits for the reply to its fragment in flight, in an open session of a version with replies;
  LAST_PKT is that fragment's packet (R30, R254, R262). -/
  sending : s.status.op = .send →
    s.status.sndState = .waitForReply ∧ s.status.sess = .opened ∧ s.cfg.ver ≠ .v10 ∧
      ∃ pay, s.snd.frags[s.snd.idx]? = some pay ∧ s.snd.lastPkt = some (dataPacket s s.snd.idx pay)
  /-- SND_STATE is WAIT_FOR_REPLY only while OP = SEND (R30). -/
  sndIdle : s.status.op ≠ .send → s.status.sndState = .idle
  /-- A RECV in progress waits for a packet in an open session (R35). -/
  receiving : s.status.op = .recv → s.status.rcvState = .waitForPacket ∧ s.status.sess = .opened
  /-- RCV_STATE is WAIT_FOR_PACKET only while OP = RECV (R35). -/
  rcvIdle : s.status.op ≠ .recv → s.status.rcvState = .idle
  /-- CFG_PROB is at most 10000 (R27). -/
  prob : s.cfg.prob.toNat ≤ 10000
  /-- With a ceiling, RETRY_CNT never exceeds it (R248). -/
  retries : 0 < s.cfg.retry.toNat → s.snd.retryCnt ≤ s.cfg.retry.toNat
  /-- SND_TOTAL is the length of SND_FRAGS, at most 9999, and SND_IDX never exceeds it (R24, R31). -/
  total : s.snd.total = s.snd.frags.length ∧ s.snd.total ≤ 9999 ∧ s.snd.idx ≤ s.snd.total
  /-- A fragment has 1 to PACKET_DATA_LEN bytes (R31). -/
  frags : ∀ pay ∈ s.snd.frags, 1 ≤ pay.length ∧ pay.length ≤ s.packetDataLen
  /-- RCV_BUF is in its canonical form. -/
  bufWf : bufWf s.rcv.buf
  /-- RCV_TOTAL, where there is one, is 1 to 9999 (R37). -/
  rcvTotal : ∀ t, s.rcv.total = some t → 1 ≤ t ∧ t ≤ 9999
  /-- Every buffered fragment has a seq of 1 to RCV_TOTAL and a payload of at most PACKET_DATA_LEN bytes; with no total
  nothing is buffered (R206). -/
  buffered : ∀ e ∈ s.rcv.buf, 1 ≤ e.1 ∧ e.2.length ≤ s.packetDataLen ∧ ∃ t, s.rcv.total = some t ∧ e.1 ≤ t
  /-- A and V are within R71's lengths. -/
  ports : s.ports.a.length ≤ Config.maxLen ∧ s.ports.v.length ≤ 8 * Config.maxLen
  /-- R, RV and RL are within R23's widths. -/
  results : s.res.r.length ≤ Config.maxLen ∧ s.res.rv.length ≤ 8 * Config.maxLen ∧ s.res.rl.length ≤ 9999

/-- `b` is `a` with exactly `n` distinct bits inverted, as FlipN leaves it (R181). -/
def FlipsBits (n : Nat) (a b : ByteStr) : Prop :=
  ∃ P : List Nat, P.Nodup ∧ P.length = n ∧ (∀ k ∈ P, k < 8 * a.length) ∧
    bytesToBits b = (bytesToBits a).mapIdx fun k x => if k ∈ P then !x else x

/-- `b` is `a` with one run of `len` bits inverted, cut at the end of `a`, from a start in the mode's range, as Burst leaves
it; with `len = 0` or an empty `a` it is `a` (R182). -/
def FlipsRun (mode : BurstMode) (len : Nat) (a b : ByteStr) : Prop :=
  if len = 0 ∨ a = [] then b = a
  else ∃ st : Nat, (mode = .fit → st ≤ 8 * a.length - len) ∧ (mode = .any → st < 8 * a.length) ∧
    bytesToBits b = (bytesToBits a).mapIdx fun k x => if st ≤ k ∧ k < st + len then !x else x

/-- `b` is `a` after the corruption of a payload: one run where the burst length is not 0, and single bits otherwise
(R183). -/
def CorruptedPayload (mode : BurstMode) (n len : Nat) (a b : ByteStr) : Prop :=
  if len = 0 then FlipsBits n a b else FlipsRun mode len a b

/-- What CorruptPacket can make of a packet: the packet itself, not with probability 10000 unless it has no NL, or, not
with probability 0, the packet with its payload corrupted (R183). -/
def CorruptedCopy (mode : BurstMode) (n prob len : Nat) (p q : ByteStr) : Prop :=
  (q = p ∧ (prob = 10000 → nl ∉ p)) ∨
    (prob ≠ 0 ∧ ∃ h pay pay2 : ByteStr, nl ∉ h ∧ p = h ++ nl :: pay ∧ q = h ++ nl :: pay2 ∧
      CorruptedPayload mode n len pay pay2)

/-- What the noise stage of a session can make of a packet (R188). -/
def NoisyCopy (s : State) (p q : ByteStr) : Prop :=
  CorruptedCopy s.params.burstMode s.cfg.num.toNat s.cfg.prob.toNat s.cfg.burst.toNat p q

/-- The version's test of an acknowledgment of the fragment in flight (R284, R311, R312, R341). -/
def acceptable (s : State) (h : Hdr) : Bool :=
  match s.cfg.ver with
  | .v10 => false
  | .v20 => ackFlag h.fl && !nackFlag h.fl
  | .v21 => h.checks && decide (h.pay = ackText)
  | .v22 => h.checks && decide (h.pay = ackText) && (h.n == s.snd.bit)
  | .v30 => ackFlag h.fl && !nackFlag h.fl && h.checks && (h.n == s.snd.bit)

/-- The sub-code with which a sender that has used up its retries reports a packet it does not accept: 1 a NACK, 3 an
acknowledgment of the other bit, 2 anything else (R401, R284, R311, R312, R341). -/
def rejectionCode (s : State) (h : Hdr) : BitVec 16 :=
  match s.cfg.ver with
  | .v10 => 2
  | .v20 => if nackFlag h.fl then 1 else 2
  | .v21 => if h.checks && decide (h.pay = nakText) then 1 else 2
  | .v22 => if h.checks && decide (h.pay = nakText) then 1 else if h.checks && decide (h.pay = ackText) then 3 else 2
  | .v30 => if nackFlag h.fl then 1 else if ackFlag h.fl && h.checks then 3 else 2

end Machine

end Sys2Proof
end

