-- ==== Sys2Proof/Certificates/Slice0/Obligations.lean ====
section
/-! DEFINITION. Sys2Proof/Certificates/Slice0/Obligations.lean: the statements. Each docstring says which rule of spec/
it formalises. A next state is written out as a record update of the state before, so that every register it does not
name is unchanged. `s.status.op = .none` says BUSY = 0 (R29). -/

open Sys2Proof Sys2Proof.Machine

/-! ## Encoding -/

/-- R80, R82, R94: the input that carries a well-formed instruction decodes to it. -/
def Obligations.DecodeOfEncodeIsTheInstruction : Prop :=
  ∀ i : Instr, i.wf = true → decode (encode i) = .ok i

/-- R80, R82: every 32-bit word decodes to a well-formed instruction, and its encoding is the word. -/
def Obligations.EncodeOfDecodedWordIsTheWord : Prop :=
  ∀ w : BitVec 32, (decodeWord w).wf = true ∧ encode (decodeWord w) = .cmdWrite w

/-- R80, R81: a word with RSV ≠ 0, an opcode outside the map, or an illegal SUBOP raises ILLEGAL_COMMAND(1), (2) or (3),
in that order, with no other effect; every other word is a command. -/
def Obligations.IllegalWordsRaiseBySubcode : Prop :=
  ∀ (w : BitVec 32) (s : State), s.status.op = .none →
    let opc := w.toNat % 256
    let sub := w.toNat / 256 % 16
    let raises (c : BitVec 16) : Prop :=
      decodeWord w = .illegal w ∧ exec (.illegal w) s = .next
        { s with status := { s.status with err := .illegalCommand, faultSeen := true }, errInfo := c }
    if w.toNat / 4096 ≠ 0 then raises 1
    else if opc ∉ [0x01, 0x02, 0x10, 0x11, 0x18, 0x19, 0x20, 0x21, 0x22, 0x30, 0x31, 0x32, 0x33, 0x34, 0x40, 0x41,
        0x42, 0x43] then raises 2
    else if (opc = 0x40 ∧ 4 < sub) ∨ ((opc = 0x30 ∨ opc = 0x31) ∧ 5 < sub) ∨
        (opc ≠ 0x40 ∧ opc ≠ 0x30 ∧ opc ≠ 0x31 ∧ sub ≠ 0) then raises 3
    else decodeWord w ≠ .illegal w

/-- 30_encoding.md section 8 and 95_test_vectors.md section 2.1: words of every family, written out, decode to their
instructions. -/
def Obligations.WordsOfTheSpecDecode : Prop :=
  decodeTableWord 32 0x00000001 = some .b2bits ∧ decodeTableWord 32 0x00000010 = some .ckgen ∧
  decodeTableWord 32 0x00000019 = some .parver ∧ decodeTableWord 32 0x00000022 = some .injpkt ∧
  decodeTableWord 32 0x00000331 = some (.hdrdec .ec) ∧ decodeTableWord 32 0x00000230 = some (.hdrenc .cN) ∧
  decodeTableWord 32 0x00000440 = some (.openSession .v30) ∧ decodeTableWord 32 0x00000043 = some .finish ∧
  decodeTableWord 8 0x02 = some .timeout ∧ decodeTableWord 32 0x00000540 = some (.illegal 0x00000540)

/-! ## The step -/

/-- R4, R21, R255: a step takes the first pending input that can be taken, leaving the others where they are, and runs
the instruction it decodes to on the state with that input gone and, for a CMD write, with CMD holding the word. Two things
in it are the model's reading: that the host's writes and the events come as one list (log 1), and that CMD holds the word
of a write made while BUSY = 1 too, where R21 and R455 differ (log 7). -/
def Obligations.StepRunsTheFirstEnabledInput : Prop :=
  ∀ (s : State) (before after : List Input) (inp : Input) (i : Instr),
    s.env.pending = before ++ inp :: after → (∀ x ∈ before, inputEnabled s x = false) →
    inputEnabled s inp = true → decode inp = .ok i → i.wf = true →
    step s = exec i
      { s with
        cmd := match inp with
          | .cmdWrite w => w
          | .event _ _ | .resetLine | .writeA _ | .writeV _ | .writeArg _ _ => s.cmd
        env := { s.env with pending := before ++ after } }

/-- R70, R451: a host write of an operand port changes only that port, and with no input that can be taken the core takes
no step. (That the host's writes and the events come as one list is the model's choice, log 1.) -/
def Obligations.StepWithoutInstruction : Prop :=
  ∀ (s : State) (rest : List Input),
    (∀ b : ByteStr, b.length ≤ Config.maxLen → s.env.pending = .writeA b :: rest →
      step s = .next { s with ports := { s.ports with a := b }, env := { s.env with pending := rest } }) ∧
    (∀ v : BitStr, v.length ≤ 8 * Config.maxLen → s.env.pending = .writeV v :: rest →
      step s = .next { s with ports := { s.ports with v := v }, env := { s.env with pending := rest } }) ∧
    (∀ x : BitVec 16, s.env.pending = .writeArg .arg0 x :: rest →
      step s = .next { s with ports := { s.ports with arg0 := x }, env := { s.env with pending := rest } }) ∧
    (∀ x : BitVec 16, s.env.pending = .writeArg .arg1 x :: rest →
      step s = .next { s with ports := { s.ports with arg1 := x }, env := { s.env with pending := rest } }) ∧
    (∀ x : BitVec 16, s.env.pending = .writeArg .arg2 x :: rest →
      step s = .next { s with ports := { s.ports with arg2 := x }, env := { s.env with pending := rest } }) ∧
    (∀ x : BitVec 16, s.env.pending = .writeArg .arg3 x :: rest →
      step s = .next { s with ports := { s.ports with arg3 := x }, env := { s.env with pending := rest } }) ∧
    ((∀ x ∈ s.env.pending, inputEnabled s x = false) → step s = .next s)

/-- R255, R256, R257: RX can be taken exactly in a wait state, TIMEOUT exactly in the waits with a timer, CHAN_CLOSE
always; no other event code exists (R94), and a packet has at most MAXLEN bytes (R71). -/
def Obligations.EventsAreEnabledAsTheirWaitsSay : Prop :=
  ∀ s : State,
    (∀ p : ByteStr, inputEnabled s (.event 0x01 p) = true ↔
      p.length ≤ Config.maxLen ∧
        ((s.status.op = .send ∧ s.status.sndState = .waitForReply) ∨
          (s.status.op = .recv ∧ s.status.rcvState = .waitForPacket))) ∧
    (inputEnabled s (.event 0x02 []) = true ↔
      (s.status.op = .send ∧ s.status.sndState = .waitForReply ∧ s.cfg.ver = .v30) ∨
        (s.status.op = .recv ∧ s.status.rcvState = .waitForPacket ∧ (s.cfg.ver = .v10 ∨ s.cfg.ver = .v30))) ∧
    inputEnabled s (.event 0x03 []) = true ∧
    ∀ (c : BitVec 8) (d : ByteStr), c ≠ 0x01 → c ≠ 0x02 → c ≠ 0x03 → inputEnabled s (.event c d) = false

/-! ## The whole machine -/

/-- R41: the state after reset meets the invariant. -/
def Obligations.ResetStateMeetsInv : Prop := CoreInv State.reset

/-- R23, R24, R25, R27, R30, R31, R35, R37, R38, R71, R206, R248, R262, R401: every step keeps the invariant. -/
def Obligations.EveryStepKeepsInv : Prop :=
  ∀ s t : State, CoreInv s → step s = .next t → CoreInv t

/-- R400, R81: no step from a state that meets the invariant stops: every input has an effect, an error being a report
in STATUS and no stop. -/
def Obligations.NoStepStopsUnderInv : Prop :=
  ∀ s : State, CoreInv s → ∃ t, step s = .next t

/-- R455: a command given while BUSY = 1 is not executed: it sets OVERRUN and FAULT_SEEN and changes no other register,
ERR and ERR_INFO among them. This is about the instruction after the write itself; that the write has stored the word in CMD
is the model's reading of R21 against R455 (log 7). -/
def Obligations.BusyCommandIsAnOverrun : Prop :=
  ∀ (i : Instr) (s : State), i.isCommand = true → s.status.op ≠ .none →
    exec i s = .next { s with status := { s.status with overrun := true, faultSeen := true } }

/-- R450: reset is accepted in every state and gives every register the value of R41's table; what is the environment's
and the parameters (the model's own fields, log 18) are not touched. -/
def Obligations.ResetGivesEveryRegisterItsValue : Prop :=
  ∀ s : State, inputEnabled s .resetLine = true ∧ exec .reset s = .next
    { cmd := 0
      ports := ⟨[], [], 0, 0, 0, 0⟩
      res := ⟨[], [], [], 0, 0, 0, 0, false⟩
      status :=
        { err := .ok, faultSeen := false, overrun := false, sess := .none, endCause := .none, op := .none,
          sndState := .idle, rcvState := .idle }
      errInfo := 0
      cfg := ⟨.v10, 0, 0, 0, 0⟩
      snd := { frags := [], total := 0, idx := 0, lastPkt := none, retryCnt := 0, bit := false }
      rcv := { buf := [], total := none, bit := false }
      env := s.env
      params := s.params } ∧
    ∀ t : State, exec .reset s = .next t → t.statusWord = 0

/-- R38: FAULT_SEEN and OVERRUN are cleared by reset alone; FAULT_SEEN is set by a step that writes ERR ≠ 0 or sets
OVERRUN, and by no other; OVERRUN is set by a command while BUSY = 1, and by nothing else. -/
def Obligations.FaultSeenAndOverrunAreSticky : Prop :=
  ∀ (i : Instr) (s t : State), i ≠ .reset → exec i s = .next t →
    (s.status.faultSeen = true → t.status.faultSeen = true) ∧
    (s.status.overrun = true → t.status.overrun = true) ∧
    (t.status.err ≠ .ok → t.status.faultSeen = true ∨ (t.status.err = s.status.err ∧ t.errInfo = s.errInfo)) ∧
    ((s.status.err ≠ .ok → s.status.faultSeen = true) → t.status.err ≠ .ok → t.status.faultSeen = true) ∧
    (s.status.overrun = false → t.status.overrun = true → t.status.faultSeen = true) ∧
    (i.isCommand = true → s.status.op ≠ .none → t.status.overrun = true) ∧
    (t.status.overrun = true → s.status.overrun = true ∨ (i.isCommand = true ∧ s.status.op ≠ .none)) ∧
    (t.status.faultSeen = true → s.status.faultSeen = true ∨ t.status.err ≠ .ok ∨
      (i.isCommand = true ∧ s.status.op ≠ .none))

/-- R27, R22, R70, R20: only OPEN and reset write the configuration, OPEN from ARG0 to ARG3; only reset among the core's
steps writes an operand port; nothing writes the parameters. -/
def Obligations.ConfigurationAndOperandPortsKeptByOtherSteps : Prop :=
  ∀ (i : Instr) (s t : State), exec i s = .next t →
    t.params = s.params ∧
    (i ≠ .reset → t.ports = s.ports) ∧
    (i ≠ .reset → (∀ v, i ≠ .openSession v) → t.cfg = s.cfg) ∧
    (∀ v, i = .openSession v →
      t.cfg = s.cfg ∨ t.cfg = ⟨v, s.ports.arg0, s.ports.arg1, s.ports.arg2, s.ports.arg3⟩)

/-- R402, R23: a step that ends with an error in ERR has left every result port as it was. -/
def Obligations.ErrorsLeaveResultPorts : Prop :=
  ∀ (i : Instr) (s t : State), exec i s = .next t → t.status.err ≠ .ok → t.res = s.res

/-- R23: an instruction writes only the result ports that the table of R23 names for it. -/
def Obligations.OnlyNamedResultPortsAreWritten : Prop :=
  ∀ (i : Instr) (s t : State), exec i s = .next t →
    (.r ∉ i.writes → t.res.r = s.res.r) ∧ (.rv ∉ i.writes → t.res.rv = s.res.rv) ∧
    (.rl ∉ i.writes → t.res.rl = s.res.rl) ∧ (.rs0 ∉ i.writes → t.res.rs0 = s.res.rs0) ∧
    (.rs1 ∉ i.writes → t.res.rs1 = s.res.rs1) ∧ (.rs2 ∉ i.writes → t.res.rs2 = s.res.rs2) ∧
    (.rs3 ∉ i.writes → t.res.rs3 = s.res.rs3) ∧ (.rflag ∉ i.writes → t.res.rflag = s.res.rflag)

/-- R402, R208, R209, R66: a datapath command leaves the session, both state machines, CMD, the configuration and the
channel as they were; RBCLR and RBADD alone write RCV_BUF and RCV_TOTAL, and none writes RCV_BIT; the injector's commands
alone draw. -/
def Obligations.DatapathCommandsLeaveTheSession : Prop :=
  ∀ (i : Instr) (s t : State), i.isDatapath = true → exec i s = .next t →
    t.cmd = s.cmd ∧ t.cfg = s.cfg ∧ t.snd = s.snd ∧ t.rcv.bit = s.rcv.bit ∧
    t.status.sess = s.status.sess ∧ t.status.endCause = s.status.endCause ∧ t.status.op = s.status.op ∧
    t.status.sndState = s.status.sndState ∧ t.status.rcvState = s.status.rcvState ∧
    t.env.tx = s.env.tx ∧ t.env.pending = s.env.pending ∧
    (i ≠ .rbclr → i ≠ .rbadd → t.rcv = s.rcv) ∧
    (i ≠ .injflip → i ≠ .injburst → i ≠ .injpkt → t.env.draws = s.env.draws)

/-- R66, R257: no step takes an emitted packet back, and one that emits starts in an open session. -/
def Obligations.EmissionsNeedAnOpenSession : Prop :=
  ∀ (i : Instr) (s t : State), CoreInv s → exec i s = .next t →
    ∃ out : List ByteStr, t.env.tx = s.env.tx ++ out ∧ (out ≠ [] → s.status.sess = .opened)

/-- R462, R262: an event emits at most one packet. -/
def Obligations.AnEventEmitsAtMostOnePacket : Prop :=
  ∀ (i : Instr) (s t : State), i.isCommand = false → exec i s = .next t →
    ∃ out : List ByteStr, t.env.tx = s.env.tx ++ out ∧ out.length ≤ 1

/-- R247, R248, R183, R262: whatever the noise stage draws, what a sender's wait emits is its LAST_PKT after the noise stage
of its session: the packet itself, or its header and its payload with CFG_NUM distinct bits, or one run of CFG_BURST bits,
inverted; with CFG_PROB = 0 always the first, with 10000 always the second. -/
def Obligations.SenderEmitsNoisyCopiesOfLastPkt : Prop :=
  ∀ (i : Instr) (s t : State), (i = .timeout ∨ ∃ p, i = .rx p) → s.status.op = .send →
    s.status.sndState = .waitForReply → exec i s = .next t →
    t.env.tx = s.env.tx ∨
      ∃ p q, t.snd.lastPkt = some p ∧ NoisyCopy s p q ∧ t.env.tx = s.env.tx ++ [q]

/-- R188: the noise configuration changes only which bytes reach the channel: unless the noise stage raises INJECT_RANGE,
a SEND, RX or TIMEOUT goes to the state it goes to with CFG_PROB = 0, but for the draws and the emitted packets, each of
which is the one emitted there or what the noise stage of the session can make of it. -/
def Obligations.NoiseChangesNoTransition : Prop :=
  ∀ (i : Instr) (s t : State), (i = .send ∨ i = .timeout ∨ ∃ p, i = .rx p) → exec i s = .next t →
    (t.status.op ≠ .none ∨ t.status.err ≠ .injectRange) →
    ∃ t' : State, exec i { s with cfg := { s.cfg with prob := 0 } } = .next t' ∧
      t' = { t with cfg := { t.cfg with prob := 0 }, env := t'.env } ∧
        List.Forall₂ (fun p q => q = p ∨ NoisyCopy s p q) t'.env.tx t.env.tx

/-- R456: the operand ports have no effect on the operation in progress. -/
def Obligations.OperandWritesDoNotDisturbAWait : Prop :=
  ∀ (i : Instr) (s t : State) (q : OperandPorts), (i = .timeout ∨ i = .chanClose ∨ ∃ p, i = .rx p) →
    exec i s = .next t → exec i { s with ports := q } = .next { t with ports := q }

/-! ## BitCodec -/

/-- R130: bit `k` of RV is bit `7 − (k mod 8)` of byte `k div 8` of A.
B2BITS is the word 0x00000001. -/
def Obligations.B2bitsListsTheBitsOfA : Prop :=
  decodeWord 0x00000001 = .b2bits ∧
  ∀ s : State, s.status.op = .none → ∃ rv : BitStr,
    exec .b2bits s = .next
      { s with res := { s.res with rv := rv }, status := { s.status with err := .ok }, errInfo := 0 } ∧
    rv.length = 8 * s.ports.a.length ∧
    ∀ (k : Nat) (x : Byte), s.ports.a[k / 8]? = some x → rv[k]? = some (x.getLsbD (7 - k % 8))

/-- R131: byte `i` of R is the sum of `V[8i + j] · 2^(7 − j)`; a length that is no multiple of 8 raises
OPERAND_ERROR(1).
BITS2B is the word 0x00000002. -/
def Obligations.Bits2bSumsTheBitsOfV : Prop :=
  decodeWord 0x00000002 = .bits2b ∧
  ∀ s : State, s.status.op = .none →
    (s.ports.v.length % 8 ≠ 0 → exec .bits2b s = .next
      { s with status := { s.status with err := .operandError, faultSeen := true }, errInfo := 1 }) ∧
    (s.ports.v.length % 8 = 0 → ∃ r : ByteStr,
      exec .bits2b s = .next
        { s with res := { s.res with r := r }, status := { s.status with err := .ok }, errInfo := 0 } ∧
      r.length = s.ports.v.length / 8 ∧
      ∀ (i : Nat) (x : Byte), r[i]? = some x →
        x.toNat = ((List.range 8).map fun j => (s.ports.v.getD (8 * i + j) false).toNat * 2 ^ (7 - j)).sum)

/-- R132, R133: B2BITS and then BITS2B of its RV gives A back, and BITS2B and then B2BITS of its R gives V back. -/
def Obligations.BitCodecCommandsInvertEachOther : Prop :=
  ∀ s t : State, s.status.op = .none →
    (exec .b2bits s = .next t → ∃ u : State,
      exec .bits2b { t with ports := { t.ports with v := t.res.rv } } = .next u ∧
      u.res.r = s.ports.a ∧ u.status.err = .ok) ∧
    (s.ports.v.length % 8 = 0 → exec .bits2b s = .next t → t.res.r.length = s.ports.v.length / 8 ∧ ∃ u : State,
      exec .b2bits { t with ports := { t.ports with a := t.res.r } } = .next u ∧ u.res.rv = s.ports.v)

/-! ## ChecksumEngine -/

/-- R142, R144: RS0 is 255 less the sum of A's bytes folded into 8 bits with end-around carry, and RV its 8 bits, bit 7
first.
CKGEN is the word 0x00000010. -/
def Obligations.CkgenComplementsTheFoldedSum : Prop :=
  decodeWord 0x00000010 = .ckgen ∧
  ∀ s : State, s.status.op = .none →
    let total := (s.ports.a.map fun x => x.toNat).sum
    let c := 255 - (if total = 0 then 0 else 1 + (total - 1) % 255)
    exec .ckgen s = .next
      { s with
        res := { s.res with rs0 := BitVec.ofNat 32 c, rv := (List.range 8).map fun j => c.testBit (7 - j) }
        status := { s.status with err := .ok }
        errInfo := 0 }

/-- R143, R144: RFLAG is 1 exactly when the bytes of A and the checksum byte in V add up to a nonzero multiple of 255; a
V that is not 8 bits raises OPERAND_ERROR(3).
CKVER is the word 0x00000011. -/
def Obligations.CkverTestsTheSumModulo255 : Prop :=
  decodeWord 0x00000011 = .ckver ∧
  ∀ s : State, s.status.op = .none →
    (s.ports.v.length ≠ 8 → exec .ckver s = .next
      { s with status := { s.status with err := .operandError, faultSeen := true }, errInfo := 3 }) ∧
    (s.ports.v.length = 8 →
      let total := (s.ports.a.map fun x => x.toNat).sum +
        ((List.range 8).map fun j => (s.ports.v.getD j false).toNat * 2 ^ (7 - j)).sum
      exec .ckver s = .next
        { s with
          res := { s.res with rflag := decide (total % 255 = 0 ∧ total ≠ 0) }
          status := { s.status with err := .ok }
          errInfo := 0 })

/-- R145, R146: A with the RV that CKGEN gives for it is valid, and becomes invalid when exactly one bit, of A or of that
checksum, is inverted. -/
def Obligations.ChecksumDetectsEverySingleBitError : Prop :=
  ∀ (s t : State) (a' : ByteStr) (k : Nat), s.status.op = .none → exec .ckgen s = .next t →
    (∃ u, exec .ckver { t with ports := { t.ports with v := t.res.rv } } = .next u ∧ u.res.rflag = true) ∧
    (k < 8 * s.ports.a.length → bytesToBits a' = (bytesToBits s.ports.a).modify k (!·) →
      ∃ u, exec .ckver { t with ports := { t.ports with a := a', v := t.res.rv } } = .next u ∧ u.res.rflag = false) ∧
    (k < 8 →
      ∃ u, exec .ckver { t with ports := { t.ports with v := t.res.rv.modify k (!·) } } = .next u ∧
        u.res.rflag = false)

/-! ## ParityEngine -/

/-- R160, R161: RV is one bit per byte of A, 1 when the byte has an odd number of ones, and then one bit per column,
column `j` being bit `7 − j` of every byte.
PARGEN is the word 0x00000018. -/
def Obligations.PargenCountsRowsAndColumns : Prop :=
  decodeWord 0x00000018 = .pargen ∧
  ∀ s : State, s.status.op = .none → ∃ rv : BitStr,
    exec .pargen s = .next
      { s with res := { s.res with rv := rv }, status := { s.status with err := .ok }, errInfo := 0 } ∧
    rv.length = s.ports.a.length + 8 ∧
    (∀ (i : Nat) (x : Byte), s.ports.a[i]? = some x →
      rv[i]? = some (decide (((List.range 8).countP fun j => x.getLsbD j) % 2 = 1))) ∧
    ∀ j < 8, rv[s.ports.a.length + j]? =
      some (decide ((s.ports.a.countP fun x => x.getLsbD (7 - j)) % 2 = 1))

/-- R162 to R166: the outcome follows the rows and columns at which V differs from the parity of A: none is clean; one row
`i` and one column `j` is corrected at bit `8i + j`, and the re-verification never fails; anything else is uncorrectable.
A V of the wrong length raises OPERAND_ERROR(2).
PARVER is the word 0x00000019. -/
def Obligations.ParverOutcomeFollowsTheMismatches : Prop :=
  decodeWord 0x00000019 = .parver ∧
  ∀ s : State, s.status.op = .none →
    (s.ports.v.length ≠ s.ports.a.length + 8 → exec .parver s = .next
      { s with status := { s.status with err := .operandError, faultSeen := true }, errInfo := 2 }) ∧
    (s.ports.v.length = s.ports.a.length + 8 →
      let n := s.ports.a.length
      let rows := (List.range n).filter fun i =>
        decide (((List.range 8).countP fun j => (s.ports.a.getD i 0).getLsbD j) % 2 = 1) != s.ports.v.getD i false
      let cols := (List.range 8).filter fun j =>
        decide ((s.ports.a.countP fun x => x.getLsbD (7 - j)) % 2 = 1) != s.ports.v.getD (n + j) false
      let ends (r : ByteStr) (ok : Bool) (rs0 rs1 rs2 : Nat) : Prop :=
        exec .parver s = .next
          { s with
            res := { s.res with
              r := r, rflag := ok, rs0 := BitVec.ofNat 32 rs0, rs1 := BitVec.ofNat 32 rs1,
              rs2 := BitVec.ofNat 32 rs2 }
            status := { s.status with err := .ok }
            errInfo := 0 }
      (rows = [] → cols = [] → ends s.ports.a true 0 0 0) ∧
      (∀ i j, rows = [i] → cols = [j] →
        ∃ r, bytesToBits r = (bytesToBits s.ports.a).modify (8 * i + j) (!·) ∧ ends r true 1 i j) ∧
      (¬ (rows = [] ∧ cols = []) → ¬ (rows.length = 1 ∧ cols.length = 1) → ends [] false 2 0 0))

/-- R167: with V the PARGEN of a payload, PARVER finds the payload itself clean, gives it back from every one-bit change
of it at the row and column of the bit, and rejects every two-bit change. -/
def Obligations.ParverCorrectsOneFlipAndRejectsTwo : Prop :=
  ∀ (s t : State) (a1 a2 : ByteStr) (k l : Nat), s.status.op = .none → exec .pargen s = .next t →
    k < 8 * s.ports.a.length → l < 8 * s.ports.a.length → k ≠ l →
    bytesToBits a1 = (bytesToBits s.ports.a).modify k (!·) →
    bytesToBits a2 = ((bytesToBits s.ports.a).modify k (!·)).modify l (!·) →
    let verify (a : ByteStr) (r : ByteStr) (ok : Bool) (rs0 rs1 rs2 : Nat) : Prop :=
      exec .parver { t with ports := { t.ports with a := a, v := t.res.rv } } = .next
        { t with
          ports := { t.ports with a := a, v := t.res.rv }
          res := { t.res with
            r := r, rflag := ok, rs0 := BitVec.ofNat 32 rs0, rs1 := BitVec.ofNat 32 rs1,
            rs2 := BitVec.ofNat 32 rs2 }
          status := { t.status with err := .ok }
          errInfo := 0 }
    verify s.ports.a s.ports.a true 0 0 0 ∧ verify a1 s.ports.a true 1 (k / 8) (k % 8) ∧ verify a2 [] false 2 0 0

/-! ## ErrorInjector -/

/-- R185, R181: INJFLIP inverts exactly ARG0 distinct bits of A, whatever is drawn, and raises INJECT_RANGE(1), with no
draw, when A has fewer. -/
def Obligations.InjflipInvertsExactlyArg0Bits : Prop :=
  ∀ s : State, s.status.op = .none →
    (8 * s.ports.a.length < s.ports.arg0.toNat → exec .injflip s = .next
      { s with status := { s.status with err := .injectRange, faultSeen := true }, errInfo := 1 }) ∧
    (s.ports.arg0.toNat ≤ 8 * s.ports.a.length → ∃ (P : List Nat) (d : DrawSource) (r : ByteStr),
      P.Nodup ∧ P.length = s.ports.arg0.toNat ∧ (∀ k ∈ P, k < 8 * s.ports.a.length) ∧
      exec .injflip s = .next
        { s with
          res := { s.res with r := r }
          env := { s.env with draws := d }
          status := { s.status with err := .ok }
          errInfo := 0 } ∧
      bytesToBits r = (bytesToBits s.ports.a).mapIdx fun k b => if k ∈ P then !b else b)

/-- R186, R182: INJBURST inverts one run of ARG0 bits of A, cut at the end of A, from a start in the range
BURST_START_MODE gives; with ARG0 = 0 or an empty A it copies A and draws nothing. -/
def Obligations.InjburstInvertsOneRun : Prop :=
  ∀ s : State, s.status.op = .none →
    let bits := 8 * s.ports.a.length
    let len := s.ports.arg0.toNat
    (len = 0 ∨ bits = 0 → exec .injburst s = .next
      { s with res := { s.res with r := s.ports.a }, status := { s.status with err := .ok }, errInfo := 0 }) ∧
    (len ≠ 0 → bits ≠ 0 → ∃ (st : Nat) (d : DrawSource) (r : ByteStr),
      (s.params.burstMode = .fit → st ≤ bits - len) ∧ (s.params.burstMode = .any → st < bits) ∧
      exec .injburst s = .next
        { s with
          res := { s.res with r := r }
          env := { s.env with draws := d }
          status := { s.status with err := .ok }
          errInfo := 0 } ∧
      bytesToBits r = (bytesToBits s.ports.a).mapIdx fun k b => if st ≤ k ∧ k < st + len then !b else b)

/-- R187, R183, R184: INJPKT with ARG1 above 10000 raises OPERAND_ERROR(5). With no NL in A it copies A with RFLAG 0.
Otherwise it keeps the header and the length, RFLAG telling whether the payload went through the corruption: never with
ARG1 = 0, always with 10000, either between; a corrupted payload has exactly ARG0 distinct bits inverted where ARG2 = 0, and
one run of ARG2 bits, cut at its end, where it is not. Where ARG2 = 0 and ARG0 is more than the payload's bits, corruption raises
INJECT_RANGE(1) with the results unchanged. -/
def Obligations.InjpktKeepsTheHeader : Prop :=
  ∀ s : State, s.status.op = .none →
    let copies (r : ByteStr) (c : Bool) (d : DrawSource) : Prop :=
      exec .injpkt s = .next
        { s with
          res := { s.res with r := r, rflag := c }
          env := { s.env with draws := d }
          status := { s.status with err := .ok }
          errInfo := 0 }
    (10000 < s.ports.arg1.toNat → exec .injpkt s = .next
      { s with status := { s.status with err := .operandError, faultSeen := true }, errInfo := 5 }) ∧
    (s.ports.arg1.toNat ≤ 10000 → nl ∉ s.ports.a → ∃ d, copies s.ports.a false d) ∧
    ∀ h pay : ByteStr, nl ∉ h → s.ports.a = h ++ nl :: pay → s.ports.arg1.toNat ≤ 10000 →
      (s.ports.arg2 ≠ 0 ∨ s.ports.arg0.toNat ≤ 8 * pay.length → ∃ pay2 c d,
        pay2.length = pay.length ∧ (c = false → pay2 = pay) ∧
        (c = true → s.ports.arg2 = 0 → FlipsBits s.ports.arg0.toNat pay pay2) ∧
        (c = true → s.ports.arg2 ≠ 0 → FlipsRun s.params.burstMode s.ports.arg2.toNat pay pay2) ∧
        (s.ports.arg1 = 0 → c = false) ∧ (s.ports.arg1 = 10000 → c = true) ∧ copies (h ++ nl :: pay2) c d) ∧
      (s.ports.arg2 = 0 → 8 * pay.length < s.ports.arg0.toNat → ∃ d,
        (s.ports.arg1 ≠ 10000 ∧ copies s.ports.a false d) ∨
        (s.ports.arg1 ≠ 0 ∧ exec .injpkt s = .next
          { s with
            status := { s.status with err := .injectRange, faultSeen := true }
            errInfo := 1
            env := { s.env with draws := d } }))

/-- R180, R181, R182, R184: every element of a draw's set can be drawn: every set of ARG0 positions by INJFLIP, every
start in its range by INJBURST, and either answer of INJPKT's choice strictly between the endpoints. (The script of answers
is the model's form of the draw source, log 4.) -/
def Obligations.EveryDrawIsPossible : Prop :=
  ∀ (s : State) (count : Nat), s.status.op = .none →
    let drawing (script : List Nat) : State := { s with env := { s.env with draws := ⟨script, count⟩ } }
    (∀ P : List Nat, P.Nodup → (∀ k ∈ P, k < 8 * s.ports.a.length) → P.length = s.ports.arg0.toNat →
      ∃ script t, exec .injflip (drawing script) = .next t ∧
        bytesToBits t.res.r = (bytesToBits s.ports.a).mapIdx fun k b => if k ∈ P then !b else b) ∧
    (∀ st : Nat, s.ports.arg0 ≠ 0 → s.ports.a ≠ [] →
      (s.params.burstMode = .fit → st ≤ 8 * s.ports.a.length - s.ports.arg0.toNat) →
      (s.params.burstMode = .any → st < 8 * s.ports.a.length) →
      ∃ script t, exec .injburst (drawing script) = .next t ∧
        bytesToBits t.res.r = (bytesToBits s.ports.a).mapIdx fun k b =>
          if st ≤ k ∧ k < st + s.ports.arg0.toNat then !b else b) ∧
    (0 < s.ports.arg1.toNat → s.ports.arg1.toNat < 10000 → nl ∈ s.ports.a → s.ports.arg2 ≠ 0 →
      ∀ c : Bool, ∃ script t, exec .injpkt (drawing script) = .next t ∧ t.status.err = .ok ∧ t.res.rflag = c)

/-! ## PacketCodec -/

/-- R202 (a): parsing a rendered packet gives back its fields. -/
def Obligations.ParseOfRenderIsTheRecord : Prop :=
  ∀ (f : Format) (h : Hdr), h.legal f = true → parse f (render f h) = .ok h

/-- R202 (b): a packet that parses is the rendering of its record, whose fields are legal. -/
def Obligations.RenderOfParseIsThePacket : Prop :=
  ∀ (f : Format) (p : ByteStr) (h : Hdr), parse f p = .ok h → render f h = p ∧ h.legal f = true

/-- R201, R211: HDRENC checks S, T, F, C, EC and N in this order, raising MALFORMED_HEADER with the field's sub-code, then
the packet's length, and otherwise puts the rendered packet into R.
Its six words are 0x00000030 to 0x00000530. -/
def Obligations.HdrencChecksThenRenders : Prop :=
  [0x00000030, 0x00000130, 0x00000230, 0x00000330, 0x00000430, 0x00000530].map decodeWord =
    [.hdrenc .plain, .hdrenc .c, .hdrenc .cN, .hdrenc .ec, .hdrenc .ecN, .hdrenc .n] ∧
  ∀ (f : Format) (s : State), s.status.op = .none →
    let p := s.ports
    let malformed (c : BitVec 16) : Prop :=
      exec (.hdrenc f) s = .next
        { s with status := { s.status with err := .malformedHeader, faultSeen := true }, errInfo := c }
    let e : BitStr := if f.hasC || f.hasEC then p.v else []
    let headerLen := 25 + (if f.hasC then 11 else 0) + (if f.hasEC then 4 + p.v.length else 0) + (if f.hasN then 4 else 0)
    if 9999 < p.arg0.toNat then malformed 3
    else if 9999 < p.arg1.toNat then malformed 4
    else if 255 < p.arg2.toNat then malformed 5
    else if f.hasC = true ∧ p.v.length ≠ 8 then malformed 6
    else if f.hasEC = true ∧ p.v.length = 0 then malformed 7
    else if f.hasN = true ∧ 1 < p.arg3.toNat then malformed 8
    else if Config.maxLen < headerLen + 1 + p.a.length then
      exec (.hdrenc f) s = .next
        { s with status := { s.status with err := .operandError, faultSeen := true }, errInfo := 4 }
    else
      exec (.hdrenc f) s = .next
        { s with
          res := { s.res with
            r := header f p.arg0.toNat p.arg1.toNat (BitVec.ofNat 8 p.arg2.toNat) e
                (f.hasN && decide (p.arg3.toNat = 1)) ++ nl :: p.a }
          status := { s.status with err := .ok }
          errInfo := 0 }

/-- R203, R90: HDRDEC of a rendered packet gives its fields; of a byte string that is the rendering of no legal record it
raises MALFORMED_HEADER and leaves the results. The sub-code is that of the first check that fails: 1 no NL; then, of the
bytes before the first NL: 2 they do not begin with "HEADER S:"; 3 no four digits follow; 4 no T field follows; 5 no F field;
6, 7 and 8 no C, EC and N field, where the format has it, an EC field being as long as it can; 9 something follows the last
field. -/
def Obligations.HdrdecReadsTheFields : Prop :=
  ∀ (f : Format) (s : State), s.status.op = .none →
    let malformed (c : BitVec 16) : Prop :=
      exec (.hdrdec f) s = .next
        { s with status := { s.status with err := .malformedHeader, faultSeen := true }, errInfo := c }
    let fails (c : BitVec 16) : Prop := parse f s.ports.a = .error c ∧ malformed c
    (∀ h : Hdr, h.legal f = true → s.ports.a = render f h → exec (.hdrdec f) s = .next
      { s with
        res := { s.res with
          rs0 := BitVec.ofNat 32 h.s, rs1 := BitVec.ofNat 32 h.t, rs2 := BitVec.ofNat 32 h.fl.toNat,
          rs3 := BitVec.ofNat 32 h.n.toNat, rv := h.e, r := h.pay }
        status := { s.status with err := .ok }
        errInfo := 0 }) ∧
    ((∀ h : Hdr, h.legal f = true → s.ports.a ≠ render f h) → ∃ c : BitVec 16, 1 ≤ c.toNat ∧ c.toNat ≤ 9 ∧ malformed c) ∧
    (nl ∉ s.ports.a → fails 1) ∧
    ∀ hdr pay : ByteStr, nl ∉ hdr → s.ports.a = hdr ++ nl :: pay →
      let begin := ascii ['H', 'E', 'A', 'D', 'E', 'R', ' ', 'S', ':']
      let toS (n : Nat) : ByteStr := begin ++ dec4 n
      let toT (n m : Nat) : ByteStr := toS n ++ ascii [' ', 'T', ':'] ++ dec4 m
      let toF (n m : Nat) (fl : Byte) : ByteStr := toT n m ++ ascii [' ', 'F', ':'] ++ hex2 fl
      let toE (n m : Nat) (fl : Byte) (e : BitStr) : ByteStr :=
        toF n m fl ++ (if f.hasC then ascii [' ', 'C', ':'] ++ bitchars e else []) ++
          (if f.hasEC then ascii [' ', 'E', 'C', ':'] ++ bitchars e else [])
      (¬ begin <+: hdr → fails 2) ∧
      (begin <+: hdr → (∀ n ≤ 9999, ¬ toS n <+: hdr) → fails 3) ∧
      ∀ n ≤ 9999, toS n <+: hdr →
        ((∀ m ≤ 9999, ¬ toT n m <+: hdr) → fails 4) ∧
        ∀ m ≤ 9999, toT n m <+: hdr →
          ((∀ fl, ¬ toF n m fl <+: hdr) → fails 5) ∧
          ∀ fl, toF n m fl <+: hdr →
            (f.hasC = true → (∀ e, e.length = 8 → ¬ toE n m fl e <+: hdr) → fails 6) ∧
            (f.hasEC = true → (∀ e, e ≠ [] → ¬ toE n m fl e <+: hdr) → fails 7) ∧
            ∀ e, (f.hasC = true → e.length = 8) → (f.hasEC = true → e ≠ []) →
              (f.hasC = false → f.hasEC = false → e = []) → toE n m fl e <+: hdr →
              (f.hasEC = true → ∀ x, ¬ toE n m fl (e ++ [x]) <+: hdr) →
              (f.hasN = true → (∀ b, ¬ header f n m fl e b <+: hdr) → fails 8) ∧
              ∀ b, header f n m fl e b <+: hdr → hdr ≠ header f n m fl e b → fails 9

/-- R205, R204: FRAG cuts A into ⌈len(A) / L⌉ chunks that join to A, chunk `i` being `min(L, len(A) − i·L)` bytes, and raises
MALFORMED_HEADER(12) when there are more than 9999.
FRAG is the word 0x00000032. -/
def Obligations.FragCutsAIntoChunks : Prop :=
  decodeWord 0x00000032 = .frag ∧
  ∀ s : State, s.status.op = .none →
    let len := s.packetDataLen
    (9999 * len < s.ports.a.length → exec .frag s = .next
      { s with status := { s.status with err := .malformedHeader, faultSeen := true }, errInfo := 12 }) ∧
    (s.ports.a.length ≤ 9999 * len → ∃ rl : List ByteStr,
      exec .frag s = .next
        { s with
          res := { s.res with rl := rl, rs0 := BitVec.ofNat 32 rl.length }
          status := { s.status with err := .ok }
          errInfo := 0 } ∧
      rl.flatten = s.ports.a ∧ rl.length = (s.ports.a.length + len - 1) / len ∧
      ∀ (i : Nat) (pay : ByteStr), rl[i]? = some pay → pay.length = min len (s.ports.a.length - i * len))

/-- R208: RBCLR empties the reassembly buffer and touches nothing else.
RBCLR is the word 0x00000033. -/
def Obligations.RbclrEmptiesTheBuffer : Prop :=
  decodeWord 0x00000033 = .rbclr ∧
  ∀ s : State, s.status.op = .none → exec .rbclr s = .next
    { s with
      rcv := { s.rcv with buf := [], total := none }
      status := { s.status with err := .ok }
      errInfo := 0 }

/-- R209, R206, R207: RBADD raises SEQ_RANGE, TOTAL_MISMATCH or PAYLOAD_LEN in this order with nothing else changed; keeps
the first copy of a seq already there; and otherwise stores A under ARG0, reporting the count and, once the count is the
total, the message. That SEQ_RANGE is raised for a total above 9999 too is the model's reading of R206's invariant
1 ≤ seq ≤ total ≤ 9999 (log 9); the buffer's form is the model's (log 13). -/
def Obligations.RbaddBuffersAFragment : Prop :=
  ∀ s : State, s.status.op = .none → bufWf s.rcv.buf →
    let seq := s.ports.arg0.toNat
    let total := s.ports.arg1.toNat
    let malformed (c : BitVec 16) : Prop :=
      exec .rbadd s = .next
        { s with status := { s.status with err := .malformedHeader, faultSeen := true }, errInfo := c }
    let joined (buf : List (Nat × ByteStr)) : ByteStr :=
      ((List.range total).map fun i => (bufLookup (i + 1) buf).getD []).flatten
    if seq < 1 ∨ total < seq ∨ 9999 < total then malformed 10
    else if s.rcv.total ≠ none ∧ s.rcv.total ≠ some total then malformed 11
    else if s.packetDataLen < s.ports.a.length then malformed 13
    else
      (bufLookup seq s.rcv.buf ≠ none → s.rcv.total = some total → exec .rbadd s = .next
        { s with
          res := { s.res with
            rs0 := BitVec.ofNat 32 s.rcv.buf.length, rs1 := 1, rflag := decide (s.rcv.buf.length = total),
            r := if s.rcv.buf.length = total then joined s.rcv.buf else [] }
          status := { s.status with err := .ok }
          errInfo := 0 }) ∧
      (bufLookup seq s.rcv.buf = none → ∃ buf : List (Nat × ByteStr),
        bufWf buf ∧ (∀ k, bufLookup k buf = if k = seq then some s.ports.a else bufLookup k s.rcv.buf) ∧
        buf.length = s.rcv.buf.length + 1 ∧
        exec .rbadd s = .next
          { s with
            rcv := { s.rcv with buf := buf, total := some total }
            res := { s.res with
              rs0 := BitVec.ofNat 32 buf.length, rs1 := 0, rflag := decide (buf.length = total),
              r := if buf.length = total then joined buf else [] }
            status := { s.status with err := .ok }
            errInfo := 0 })

/-- R210: the fragments of a message, buffered from empty in any order and with any repetitions, complete it exactly when
every one has come, and then reassemble to the message. -/
def Obligations.ReassemblyGivesTheMessageInAnyOrder : Prop :=
  ∀ (m : ByteStr) (len : Nat) (order : List Nat) (bit : Bool), 1 ≤ m.length → 1 ≤ len → m.length ≤ 9999 * len →
    let fs := fragment m len
    (∀ i ∈ order, i < fs.length) →
    ∃ rc : ReceiverRegs,
      order.foldlM (fun rc i => (bufAdd len rc (i + 1) fs.length (fs.getD i [])).map Prod.fst)
        (⟨[], none, bit⟩ : ReceiverRegs) = Except.ok rc ∧
      (bufComplete rc = true ↔ ∀ i < fs.length, i ∈ order) ∧ (bufComplete rc = true → reassemble rc = m)

/-! ## Session commands -/

/-- R240: OPEN refuses a second session and a probability above 10000 with nothing else written, and otherwise starts a
fresh session with the configuration of ARG0 to ARG3.
Its five words are 0x00000040 to 0x00000440. -/
def Obligations.OpenStartsAFreshSession : Prop :=
  [0x00000040, 0x00000140, 0x00000240, 0x00000340, 0x00000440].map decodeWord =
    [.openSession .v10, .openSession .v20, .openSession .v21, .openSession .v22, .openSession .v30] ∧
  ∀ (v : Version) (s : State), s.status.op = .none →
    (s.status.sess = .opened → exec (.openSession v) s = .next
      { s with status := { s.status with err := .sessionOpen, faultSeen := true }, errInfo := 0 }) ∧
    (s.status.sess ≠ .opened → 10000 < s.ports.arg1.toNat → exec (.openSession v) s = .next
      { s with status := { s.status with err := .configError, faultSeen := true }, errInfo := 1 }) ∧
    (s.status.sess ≠ .opened → s.ports.arg1.toNat ≤ 10000 → exec (.openSession v) s = .next
      { s with
        cfg := { ver := v, num := s.ports.arg0, prob := s.ports.arg1, burst := s.ports.arg2, retry := s.ports.arg3 }
        snd := { frags := [], total := 0, idx := 0, lastPkt := none, retryCnt := 0, bit := false }
        rcv := { buf := [], total := none, bit := false }
        status := { s.status with
          sndState := .idle, rcvState := .idle, sess := .opened, endCause := .none, err := .ok }
        errInfo := 0 })

/-- R241, R242, R243, R452: SEND, RECV and FINISH raise NO_SESSION before the first OPEN and CHANNEL_CLOSED(1) after the
session has ended, and do nothing else. -/
def Obligations.SessionCommandsNeedAnOpenSession : Prop :=
  ∀ (i : Instr) (s : State), (i = .send ∨ i = .recv ∨ i = .finish) → s.status.op = .none →
    (s.status.sess = .none → exec i s = .next
      { s with status := { s.status with err := .noSession, faultSeen := true }, errInfo := 0 }) ∧
    (s.status.sess = .ended → exec i s = .next
      { s with status := { s.status with err := .channelClosed, faultSeen := true }, errInfo := 1 })

/-- R241, R402: SEND of an empty message completes with nothing sent; of a message of more than 9999 fragments it raises
MALFORMED_HEADER(12) and ends the session. -/
def Obligations.SendOfAnEmptyOrOverlongMessage : Prop :=
  ∀ s : State, s.status.op = .none → s.status.sess = .opened →
    (s.ports.a = [] → exec .send s = .next
      { s with
        snd := { s.snd with frags := [], total := 0, idx := 0, retryCnt := 0 }
        status := { s.status with err := .ok }
        errInfo := 0 }) ∧
    (9999 * s.packetDataLen < s.ports.a.length → exec .send s = .next
      { s with
        status := { s.status with
          err := .malformedHeader, faultSeen := true, op := .none, sndState := .idle, rcvState := .idle,
          sess := .ended, endCause := .fatalError }
        errInfo := 12 })

/-- R280: a version 1.0 SEND emits every fragment's packet in seq order, whatever the noise configuration, and completes
in its step. -/
def Obligations.V10SendEmitsEveryFragment : Prop :=
  ∀ s : State, s.status.op = .none → s.status.sess = .opened → s.cfg.ver = .v10 → s.ports.a ≠ [] →
    s.ports.a.length ≤ 9999 * s.packetDataLen →
    let fs := fragment s.ports.a s.packetDataLen
    let packet (i : Nat) : ByteStr := header .plain (i + 1) fs.length 0x00 [] false ++ nl :: fs.getD i []
    exec .send s = .next
      { s with
        snd := { s.snd with
          frags := fs, total := fs.length, idx := fs.length, retryCnt := 0, lastPkt := some (packet (fs.length - 1)) }
        env := { s.env with tx := s.env.tx ++ (List.range fs.length).map packet }
        status := { s.status with err := .ok }
        errInfo := 0 }

/-- R241, R244, R247: a SEND of versions 2.0 to 3.0 stores the fragments and the clean packet of the first, emits a noisy
copy of it and waits for the reply, ERR and ERR_INFO staying as they were (R403), wherever the noise stage has as many bits
as it is asked to flip; with CFG_PROB = 0 it emits that packet, with 10000 the packet with its payload corrupted. -/
def Obligations.SendTransmitsTheFirstFragment : Prop :=
  ∀ s : State, s.status.op = .none → s.status.sess = .opened → s.cfg.ver ≠ .v10 → s.ports.a ≠ [] →
    s.ports.a.length ≤ 9999 * s.packetDataLen →
    s.cfg.prob = 0 ∨ s.cfg.burst ≠ 0 ∨ s.cfg.num.toNat ≤ 8 * min s.packetDataLen s.ports.a.length →
    let fs := fragment s.ports.a s.packetDataLen
    let pay := s.ports.a.take s.packetDataLen
    let p := header s.cfg.ver.format 1 fs.length 0x00 (bytesToBits [checksum pay]) s.snd.bit ++ nl :: pay
    ∃ q d, NoisyCopy s p q ∧ (s.cfg.prob = 0 → q = p) ∧ exec .send s = .next
      { s with
        snd := { s.snd with frags := fs, total := fs.length, idx := 0, retryCnt := 0, lastPkt := some p }
        env := { s.env with draws := d, tx := s.env.tx ++ [q] }
        status := { s.status with op := .send, sndState := .waitForReply } }

/-- R188, R181, R402, R247, R248, R249, R251: where the noise stage must flip more bits than a packet's payload has, a draw
that corrupts (the only one with CFG_PROB = 10000) raises INJECT_RANGE(1): the packet is not emitted, the operation and the
session end, and every register written before it keeps its value: SND_FRAGS to RETRY_CNT, LAST_PKT and SND_BIT in a SEND, a
retransmission and an advance, RCV_BUF, RCV_TOTAL and RCV_BIT in a receiver's reply. A draw that does not corrupt emits the
packet as it is. -/
def Obligations.NoiseRangeErrorEndsTheSession : Prop :=
  ∀ s : State, s.status.sess = .opened → s.cfg.ver ≠ .v10 → s.cfg.prob ≠ 0 → s.cfg.burst = 0 →
    let goes (i : Instr) (u : State) (q : ByteStr) : Prop :=
      ∃ d, (s.cfg.prob = 10000 → d = s.env.draws) ∧
        (exec i s = .next
          { u with
            env := { s.env with draws := d }
            status := { s.status with
              err := .injectRange, faultSeen := true, op := .none, sndState := .idle, rcvState := .idle,
              sess := .ended, endCause := .fatalError }
            errInfo := 1 } ∨
        (s.cfg.prob ≠ 10000 ∧ exec i s = .next { u with env := { s.env with draws := d, tx := s.env.tx ++ [q] } }))
    let data (seq total : Nat) (bit : Bool) (pay : ByteStr) : ByteStr :=
      header s.cfg.ver.format seq total 0x00 (bytesToBits [checksum pay]) bit ++ nl :: pay
    (s.status.op = .none → s.ports.a ≠ [] → s.ports.a.length ≤ 9999 * s.packetDataLen →
      8 * min s.packetDataLen s.ports.a.length < s.cfg.num.toNat →
      let fs := fragment s.ports.a s.packetDataLen
      let q := data 1 fs.length s.snd.bit (s.ports.a.take s.packetDataLen)
      goes .send
        { s with
          snd := { s.snd with frags := fs, total := fs.length, idx := 0, retryCnt := 0, lastPkt := some q }
          status := { s.status with op := .send, sndState := .waitForReply } } q) ∧
    (∀ hd pay, s.status.op = .send → s.status.sndState = .waitForReply → nl ∉ hd →
      s.snd.lastPkt = some (hd ++ nl :: pay) → s.cfg.retry = 0 ∨ s.snd.retryCnt < s.cfg.retry.toNat →
      8 * pay.length < s.cfg.num.toNat →
      let u : State := { s with snd := { s.snd with retryCnt := s.snd.retryCnt + 1 } }
      (s.cfg.ver = .v30 → goes .timeout u (hd ++ nl :: pay)) ∧
      ∀ p h, parse s.cfg.ver.format p = .ok h → finFlag h.fl = false → acceptable s h = false →
        goes (.rx p) u (hd ++ nl :: pay)) ∧
    (∀ p h pay, s.status.op = .send → s.status.sndState = .waitForReply → parse s.cfg.ver.format p = .ok h →
      finFlag h.fl = false → acceptable s h = true → s.snd.idx + 1 ≠ s.snd.total →
      s.snd.frags[s.snd.idx + 1]? = some pay → 8 * pay.length < s.cfg.num.toNat →
      let bit := if s.cfg.ver = .v20 then s.snd.bit else !s.snd.bit
      let q := data (s.snd.idx + 2) s.snd.total bit pay
      goes (.rx p)
        { s with snd := { s.snd with idx := s.snd.idx + 1, bit := bit, lastPkt := some q, retryCnt := 0 } } q) ∧
    (∀ p h, s.status.op = .recv → s.status.rcvState = .waitForPacket → s.cfg.ver ≠ .v20 → parse .cN p = .ok h →
      finFlag h.fl = false → (s.cfg.ver = .v30 → ackFlag h.fl = false ∧ nackFlag h.fl = false) →
      24 < s.cfg.num.toNat →
      let fl : Byte := if s.cfg.ver = .v30 then 0x01 else 0x00
      let ack (n : Bool) : ByteStr := header .cN h.s h.t fl [false, false, true, true, false, false, false, false] n ++
        nl :: ascii ['A', 'C', 'K']
      let nak : ByteStr := header .cN h.s h.t 0x00 [false, false, true, false, false, true, false, true] s.rcv.bit ++
        nl :: ascii ['N', 'A', 'K']
      (h.checks = false → s.cfg.ver ≠ .v30 → goes (.rx p) s nak) ∧
      (h.checks = false → s.cfg.ver = .v30 → goes (.rx p) s (ack (!s.rcv.bit))) ∧
      (h.checks = true → h.n ≠ s.rcv.bit → goes (.rx p) s (ack h.n)) ∧
      (h.checks = true → h.n = s.rcv.bit → 1 ≤ h.s → h.s ≤ h.t → s.rcv.total = none ∨ s.rcv.total = some h.t →
        h.pay.length ≤ s.packetDataLen →
        (bufLookup h.s s.rcv.buf = none → s.rcv.buf.length + 1 ≠ h.t → goes (.rx p)
          { s with rcv := { buf := bufInsert h.s h.pay s.rcv.buf, total := some h.t, bit := !s.rcv.bit } } (ack h.n)) ∧
        (bufLookup h.s s.rcv.buf ≠ none → s.rcv.total ≠ some s.rcv.buf.length → goes (.rx p)
          { s with rcv := { s.rcv with bit := !s.rcv.bit } } (ack h.n))))

/-- R242, R403: RECV clears the reassembly buffer and waits; it does not complete, and ERR stays as it was. -/
def Obligations.RecvStartsAWait : Prop :=
  ∀ s : State, s.status.op = .none → s.status.sess = .opened → exec .recv s = .next
    { s with
      rcv := { s.rcv with buf := [], total := none }
      status := { s.status with op := .recv, rcvState := .waitForPacket } }

/-- R243, R246: FINISH emits the FIN packet of the session's version, character for character, never through the noise
stage, and ends the session with FIN_SENT. -/
def Obligations.FinishEmitsFinAndEnds : Prop :=
  ∀ s : State, s.status.op = .none → s.status.sess = .opened →
    let fixed := ascii ['H', 'E', 'A', 'D', 'E', 'R', ' ', 'S', ':', '0', '0', '0', '0', ' ', 'T', ':', '0', '0', '0',
      '0', ' ', 'F', ':', '0', '2']
    let check := ascii [' ', 'C', ':', '1', '1', '1', '1', '1', '1', '1', '1']
    let bit := ascii [' ', 'N', ':', if s.snd.bit then '1' else '0']
    let p := match s.cfg.ver with
      | .v10 => fixed ++ [nl]
      | .v20 => fixed ++ check ++ [nl]
      | .v21 | .v22 | .v30 => fixed ++ check ++ bit ++ [nl]
    exec .finish s = .next
      { s with
        env := { s.env with tx := s.env.tx ++ [p] }
        status := { s.status with sess := .ended, endCause := .finSent, err := .ok }
        errInfo := 0 }

/-! ## Events -/

/-- R249, R284, R311, R312, R341: on an acknowledgment its version accepts, the sender inverts SND_BIT (not in version 2.0)
and completes after the last fragment, or transmits the next one with the new bit; with CFG_PROB = 0 it emits that packet. -/
def Obligations.SenderAdvancesOnAnAcceptedReply : Prop :=
  ∀ (p : ByteStr) (h : Hdr) (s : State), s.status.op = .send → s.status.sndState = .waitForReply →
    parse s.cfg.ver.format p = .ok h → finFlag h.fl = false → acceptable s h = true →
    let bit := if s.cfg.ver = .v20 then s.snd.bit else !s.snd.bit
    (s.snd.idx + 1 = s.snd.total → exec (.rx p) s = .next
      { s with
        snd := { s.snd with idx := s.snd.idx + 1, bit := bit }
        status := { s.status with sndState := .idle, op := .none, err := .ok }
        errInfo := 0 }) ∧
    (∀ pay, s.snd.idx + 1 ≠ s.snd.total → s.snd.frags[s.snd.idx + 1]? = some pay → s.cfg.prob = 0 →
      let q := header s.cfg.ver.format (s.snd.idx + 2) s.snd.total 0x00 (bytesToBits [checksum pay]) bit ++ nl :: pay
      exec (.rx p) s = .next
        { s with
          snd := { s.snd with idx := s.snd.idx + 1, bit := bit, lastPkt := some q, retryCnt := 0 }
          env := { s.env with tx := s.env.tx ++ [q] } })

/-- R248, R284, R311, R312, R341: on any other packet that parses and is no FIN, the sender counts a retry and sends
LAST_PKT again, or, with its CFG_RETRY retries used up, raises CHECKSUM_MISMATCH with the reason and ends the session. -/
def Obligations.SenderRetransmitsOnARejectedReply : Prop :=
  ∀ (p q : ByteStr) (h : Hdr) (s : State), s.status.op = .send → s.status.sndState = .waitForReply →
    s.status.sess = .opened → s.cfg.ver ≠ .v10 → parse s.cfg.ver.format p = .ok h → finFlag h.fl = false →
    acceptable s h = false → s.snd.lastPkt = some q →
    (s.cfg.retry = 0 ∨ s.snd.retryCnt < s.cfg.retry.toNat → s.cfg.prob = 0 → exec (.rx p) s = .next
      { s with
        snd := { s.snd with retryCnt := s.snd.retryCnt + 1 }
        env := { s.env with tx := s.env.tx ++ [q] } }) ∧
    (0 < s.cfg.retry.toNat → s.cfg.retry.toNat ≤ s.snd.retryCnt → exec (.rx p) s = .next
      { s with
        status := { s.status with
          err := .checksumMismatch, faultSeen := true, op := .none, sndState := .idle, rcvState := .idle,
          sess := .ended, endCause := .fatalError }
        errInfo := rejectionCode s h })

/-- R281, R285: the receivers of versions 1.0 and 2.0. A fragment (in 2.0 one whose checksum is valid and that is no
reply) is buffered, version 2.0 answers it with a flag-only ACK, never injected, and the message is delivered when it
completes it; a seq already there is not buffered again. Version 2.0 answers an invalid one with a NACK and drops replies
(R253). -/
def Obligations.ReceiverV10AndV20 : Prop :=
  ∀ (p : ByteStr) (h : Hdr) (s : State), s.status.op = .recv → s.status.rcvState = .waitForPacket →
    (s.cfg.ver = .v10 ∨ s.cfg.ver = .v20) → parse s.cfg.ver.format p = .ok h → finFlag h.fl = false →
    let isReply := s.cfg.ver = .v20 ∧ (ackFlag h.fl = true ∨ nackFlag h.fl = true)
    let valid := s.cfg.ver = .v10 ∨ h.checks = true
    let ones := [true, true, true, true, true, true, true, true]
    let reply (fl : Byte) : ByteStr := header .c h.s h.t fl ones false ++ [nl]
    let answered : List ByteStr := if s.cfg.ver = .v20 then [reply 0x01] else []
    (isReply → exec (.rx p) s = .next s) ∧
    (¬ isReply → ¬ valid → exec (.rx p) s = .next { s with env := { s.env with tx := s.env.tx ++ [reply 0x04] } }) ∧
    (¬ isReply → valid → 1 ≤ h.s → h.s ≤ h.t → s.rcv.total = none ∨ s.rcv.total = some h.t →
      h.pay.length ≤ s.packetDataLen →
      (bufLookup h.s s.rcv.buf ≠ none → s.rcv.total ≠ some s.rcv.buf.length → exec (.rx p) s = .next
        { s with env := { s.env with tx := s.env.tx ++ answered } }) ∧
      (bufLookup h.s s.rcv.buf ≠ none → s.rcv.total = some s.rcv.buf.length → exec (.rx p) s = .next
        { s with
          env := { s.env with tx := s.env.tx ++ answered }
          res := { s.res with r := reassemble s.rcv }
          status := { s.status with rcvState := .idle, op := .none, err := .ok }
          errInfo := 0 }) ∧
      (bufLookup h.s s.rcv.buf = none → s.rcv.buf.length + 1 ≠ h.t → exec (.rx p) s = .next
        { s with
          rcv := { s.rcv with buf := bufInsert h.s h.pay s.rcv.buf, total := some h.t }
          env := { s.env with tx := s.env.tx ++ answered } }) ∧
      (bufLookup h.s s.rcv.buf = none → s.rcv.buf.length + 1 = h.t →
        let rcv : ReceiverRegs := { s.rcv with buf := bufInsert h.s h.pay s.rcv.buf, total := some h.t }
        exec (.rx p) s = .next
          { s with
            rcv := rcv
            env := { s.env with tx := s.env.tx ++ answered }
            res := { s.res with r := reassemble rcv }
            status := { s.status with rcvState := .idle, op := .none, err := .ok }
            errInfo := 0 }))

/-- R313, R343, R245: the receivers of versions 2.1, 2.2 and 3.0 on a new fragment, one with a valid checksum and
N = RCV_BIT whose seq is not there yet: it is buffered, RCV_BIT inverted, the ACK of its N sent, and the message delivered
when it completes it. The ACK is the packet itself when it completes the message or CFG_PROB = 0. -/
def Obligations.ReceiverTakesANewFragment : Prop :=
  ∀ (p : ByteStr) (h : Hdr) (s : State), s.status.op = .recv → s.status.rcvState = .waitForPacket →
    (s.cfg.ver = .v21 ∨ s.cfg.ver = .v22 ∨ s.cfg.ver = .v30) → parse .cN p = .ok h → finFlag h.fl = false →
    (s.cfg.ver = .v30 → ackFlag h.fl = false ∧ nackFlag h.fl = false) → h.checks = true → h.n = s.rcv.bit →
    1 ≤ h.s → h.s ≤ h.t → s.rcv.total = none ∨ s.rcv.total = some h.t → h.pay.length ≤ s.packetDataLen →
    bufLookup h.s s.rcv.buf = none →
    let fl : Byte := if s.cfg.ver = .v30 then 0x01 else 0x00
    let ack := header .cN h.s h.t fl [false, false, true, true, false, false, false, false] h.n ++
      nl :: ascii ['A', 'C', 'K']
    let rcv : ReceiverRegs :=
      { buf := bufInsert h.s h.pay s.rcv.buf, total := some h.t, bit := !s.rcv.bit }
    (s.rcv.buf.length + 1 ≠ h.t → s.cfg.prob = 0 → exec (.rx p) s = .next
      { s with rcv := rcv, env := { s.env with tx := s.env.tx ++ [ack] } }) ∧
    (s.rcv.buf.length + 1 = h.t → exec (.rx p) s = .next
      { s with
        rcv := rcv
        env := { s.env with tx := s.env.tx ++ [ack] }
        res := { s.res with r := reassemble rcv }
        status := { s.status with rcvState := .idle, op := .none, err := .ok }
        errInfo := 0 })

/-- R313, R343, R253, R245: the same receivers on every other packet that is no error, with CFG_PROB = 0: an invalid checksum
is answered with a NAK of RCV_BIT in versions 2.1 and 2.2 and with the prior ACK in version 3.0 (92_eei_decisions.md D25), a
valid packet of the other bit with the ACK of its N, and version 3.0 drops replies; nothing else changes. A valid packet with
N = RCV_BIT whose seq is already there is not buffered again: RCV_BIT is inverted, the ACK of its N sent, and the message
delivered if it is complete. -/
def Obligations.ReceiverAnswersCorruptAndDuplicatePackets : Prop :=
  ∀ (p : ByteStr) (h : Hdr) (s : State), s.status.op = .recv → s.status.rcvState = .waitForPacket →
    (s.cfg.ver = .v21 ∨ s.cfg.ver = .v22 ∨ s.cfg.ver = .v30) → parse .cN p = .ok h → finFlag h.fl = false →
    s.cfg.prob = 0 →
    let isReply := s.cfg.ver = .v30 ∧ (ackFlag h.fl = true ∨ nackFlag h.fl = true)
    let fl : Byte := if s.cfg.ver = .v30 then 0x01 else 0x00
    let ack (n : Bool) : ByteStr := header .cN h.s h.t fl [false, false, true, true, false, false, false, false] n ++
      nl :: ascii ['A', 'C', 'K']
    let nak : ByteStr := header .cN h.s h.t 0x00 [false, false, true, false, false, true, false, true] s.rcv.bit ++
      nl :: ascii ['N', 'A', 'K']
    let answers (q : ByteStr) : Prop := exec (.rx p) s = .next { s with env := { s.env with tx := s.env.tx ++ [q] } }
    (isReply → exec (.rx p) s = .next s) ∧
    (¬ isReply → h.checks = false → s.cfg.ver ≠ .v30 → answers nak) ∧
    (¬ isReply → h.checks = false → s.cfg.ver = .v30 → answers (ack (!s.rcv.bit))) ∧
    (¬ isReply → h.checks = true → h.n ≠ s.rcv.bit → answers (ack h.n)) ∧
    (¬ isReply → h.checks = true → h.n = s.rcv.bit → 1 ≤ h.s → h.s ≤ h.t →
      s.rcv.total = none ∨ s.rcv.total = some h.t → h.pay.length ≤ s.packetDataLen → bufLookup h.s s.rcv.buf ≠ none →
      (s.rcv.total ≠ some s.rcv.buf.length → exec (.rx p) s = .next
        { s with
          rcv := { s.rcv with bit := !s.rcv.bit }
          env := { s.env with tx := s.env.tx ++ [ack h.n] } }) ∧
      (s.rcv.total = some s.rcv.buf.length → exec (.rx p) s = .next
        { s with
          rcv := { s.rcv with bit := !s.rcv.bit }
          env := { s.env with tx := s.env.tx ++ [ack h.n] }
          res := { s.res with r := reassemble s.rcv }
          status := { s.status with rcvState := .idle, op := .none, err := .ok }
          errInfo := 0 }))

/-- R252, R253, R405, R206, R402: in a wait a packet that does not parse, a FIN, and, in a receiver, a fragment it would
buffer that is outside 1 ≤ S ≤ T, of another total or too long, end the operation and the session with their error; nothing
else changes. A receiver would buffer any fragment in version 1.0, a valid one that is no reply in 2.0, a valid one with
N = RCV_BIT, whatever its flags, in 2.1 and 2.2, and one that is no reply besides in 3.0. -/
def Obligations.FatalPacketsEndTheSession : Prop :=
  ∀ (p : ByteStr) (s : State), s.status.sess = .opened →
    (s.status.op = .send ∧ s.status.sndState = .waitForReply ∧ s.cfg.ver ≠ .v10) ∨
      (s.status.op = .recv ∧ s.status.rcvState = .waitForPacket) →
    let ends (e : ErrCode) (info : BitVec 16) (cause : EndCause) : Prop :=
      exec (.rx p) s = .next
        { s with
          status := { s.status with
            err := e, faultSeen := true, op := .none, sndState := .idle, rcvState := .idle, sess := .ended,
            endCause := cause }
          errInfo := info }
    (∀ c, parse s.cfg.ver.format p = .error c → ends .malformedHeader c .fatalError) ∧
    (∀ h, parse s.cfg.ver.format p = .ok h →
      (finFlag h.fl = true → ends .channelClosed 2 .finReceived) ∧
      (finFlag h.fl = false → s.status.op = .recv →
        (match s.cfg.ver with
          | .v10 => True
          | .v20 => h.checks = true ∧ ackFlag h.fl = false ∧ nackFlag h.fl = false
          | .v21 | .v22 => h.checks = true ∧ h.n = s.rcv.bit
          | .v30 => h.checks = true ∧ ackFlag h.fl = false ∧ nackFlag h.fl = false ∧ h.n = s.rcv.bit) →
        (h.s < 1 ∨ h.t < h.s → ends .malformedHeader 10 .fatalError) ∧
        (1 ≤ h.s → h.s ≤ h.t → s.rcv.total ≠ none → s.rcv.total ≠ some h.t → ends .malformedHeader 11 .fatalError) ∧
        (1 ≤ h.s → h.s ≤ h.t → s.rcv.total = none ∨ s.rcv.total = some h.t → s.packetDataLen < h.pay.length →
          ends .malformedHeader 13 .fatalError)))

/-- R342, R282, R344, R248: TIMEOUT makes the version 3.0 sender count a retry and, with CFG_PROB = 0, send LAST_PKT itself
again, or raise TIMEOUT_EXCEEDED with its retries used up; it changes nothing in a version 1.0 or 3.0 receiver. For the
version 3.0 receiver that is the choice of 92_eei_decisions.md D25. -/
def Obligations.TimeoutRetransmitsOrKeepsWaiting : Prop :=
  ∀ s : State,
    (s.status.op = .recv → s.status.rcvState = .waitForPacket → s.cfg.ver = .v10 ∨ s.cfg.ver = .v30 →
      exec .timeout s = .next s) ∧
    (∀ q, s.status.op = .send → s.status.sndState = .waitForReply → s.status.sess = .opened → s.cfg.ver = .v30 →
      s.snd.lastPkt = some q →
      (s.cfg.retry = 0 ∨ s.snd.retryCnt < s.cfg.retry.toNat → s.cfg.prob = 0 → exec .timeout s = .next
        { s with
          snd := { s.snd with retryCnt := s.snd.retryCnt + 1 }
          env := { s.env with tx := s.env.tx ++ [q] } }) ∧
      (0 < s.cfg.retry.toNat → s.cfg.retry.toNat ≤ s.snd.retryCnt → exec .timeout s = .next
        { s with
          status := { s.status with
            err := .timeoutExceeded, faultSeen := true, op := .none, sndState := .idle, rcvState := .idle,
            sess := .ended, endCause := .fatalError }
          errInfo := 0 }))

/-- R257: CHAN_CLOSE ends an open session, reporting CHANNEL_CLOSED(3) only when it aborts a blocking operation, and has no
effect without one. -/
def Obligations.ChanCloseEndsTheSession : Prop :=
  ∀ s : State,
    (s.status.sess ≠ .opened → exec .chanClose s = .next s) ∧
    (s.status.sess = .opened → s.status.op = .none → exec .chanClose s = .next
      { s with status := { s.status with sess := .ended, endCause := .channelClosed } }) ∧
    (s.status.sess = .opened → s.status.op ≠ .none → exec .chanClose s = .next
      { s with
        status := { s.status with
          err := .channelClosed, faultSeen := true, op := .none, sndState := .idle, rcvState := .idle,
          sess := .ended, endCause := .channelClosed }
        errInfo := 3 })

/-! ## The STATUS register -/

/-- R25, R401: where each field of STATUS stands, and the number of each error code, session state, end cause and
operation; bits 31:22 are 0. -/
def Obligations.StatusWordPlacesEveryField : Prop :=
  ∀ s : State,
    let w := s.statusWord
    w.extractLsb' 0 8 = (match s.status.err with
      | .ok => 0x00 | .malformedHeader => 0x01 | .checksumMismatch => 0x02 | .parityUncorrectable => 0x03
      | .channelClosed => 0x04 | .timeoutExceeded => 0x05 | .illegalCommand => 0x10 | .overrun => 0x11
      | .noSession => 0x12 | .sessionOpen => 0x13 | .configError => 0x14 | .operandError => 0x15
      | .injectRange => 0x16) ∧
    w.getLsbD 8 = decide (s.status.op ≠ .none) ∧
    w.getLsbD 9 = s.status.faultSeen ∧
    w.getLsbD 10 = s.status.overrun ∧
    w.extractLsb' 11 2 = (match s.status.sess with | .none => 0 | .opened => 1 | .ended => 2) ∧
    w.extractLsb' 13 3 = (match s.status.endCause with
      | .none => 0 | .finSent => 1 | .finReceived => 2 | .channelClosed => 3 | .fatalError => 4) ∧
    w.extractLsb' 16 2 = (match s.status.op with | .none => 0 | .send => 1 | .recv => 2) ∧
    w.getLsbD 18 = decide (s.status.sndState = .waitForReply) ∧
    w.getLsbD 19 = decide (s.status.rcvState = .waitForPacket) ∧
    w.getLsbD 20 = s.snd.bit ∧
    w.getLsbD 21 = s.rcv.bit ∧
    w.extractLsb' 22 10 = 0
end

