-- ==== Sys2Proof/Laws/Buffer.lean ====
section
/-! SUPPORT. Sys2Proof/Laws/Buffer.lean: the reassembly buffer and fragmentation. -/

namespace Sys2Proof.Machine

/-- Nothing is buffered under a seq that is not there. -/
theorem bufLookup_eq_none {s : Nat} {buf : List (Nat × ByteStr)} : bufLookup s buf = none ↔ ∀ e ∈ buf, e.1 ≠ s := by
  induction buf with
  | nil => simp [bufLookup]
  | cons e rest ih =>
    obtain ⟨k, q⟩ := e
    simp only [bufLookup, List.forall_mem_cons]
    split <;> simp_all

/-- A lookup finds an entry of the buffer. -/
theorem bufLookup_mem {s : Nat} {pay : ByteStr} {buf : List (Nat × ByteStr)} (h : bufLookup s buf = some pay) :
    (s, pay) ∈ buf := by
  induction buf with
  | nil => simp [bufLookup] at h
  | cons e rest ih =>
    obtain ⟨k, q⟩ := e
    simp only [bufLookup] at h
    split at h
    · simp_all
    · exact List.mem_cons_of_mem _ (ih h)

/-- Inserting under a seq makes it readable and leaves every other seq as it was. -/
theorem bufLookup_bufInsert (s k : Nat) (pay : ByteStr) (buf : List (Nat × ByteStr)) :
    bufLookup k (bufInsert s pay buf) = if k = s then some pay else bufLookup k buf := by
  induction buf with
  | nil => simp [bufInsert, bufLookup, eq_comm]
  | cons e rest ih =>
    obtain ⟨j, q⟩ := e
    simp only [bufInsert]
    split
    · simp only [bufLookup, eq_comm (a := s)]
    · split
      · subst_vars; simp only [bufLookup, eq_comm (a := k)]; split_ifs <;> rfl
      · rename_i hne
        simp only [bufLookup, ih]
        split_ifs with h1 h2
        · exact absurd (h2.symm.trans h1.symm) hne
        · rfl
        · rfl
        · rfl

/-- What an insertion holds: the new entry and old ones. -/
theorem mem_bufInsert {s : Nat} {pay : ByteStr} {buf : List (Nat × ByteStr)} {e : Nat × ByteStr}
    (h : e ∈ bufInsert s pay buf) : e = (s, pay) ∨ e ∈ buf := by
  induction buf with
  | nil => simpa [bufInsert] using h
  | cons f rest ih =>
    obtain ⟨j, q⟩ := f
    simp only [bufInsert] at h
    split at h
    · simpa using h
    · split at h
      · simp only [List.mem_cons] at h ⊢; tauto
      · simp only [List.mem_cons] at h ⊢
        rcases h with h | h
        · tauto
        · rcases ih h with h | h <;> tauto

/-- An insertion keeps the canonical form. -/
theorem bufInsert_wf {s : Nat} {pay : ByteStr} {buf : List (Nat × ByteStr)} (h : bufWf buf) :
    bufWf (bufInsert s pay buf) := by
  induction buf with
  | nil => simp [bufInsert, bufWf]
  | cons e rest ih =>
    obtain ⟨j, q⟩ := e
    have h1 : ∀ e ∈ rest, j < e.1 := fun e he => (List.pairwise_cons.mp h).1 e he
    have h2 : bufWf rest := (List.pairwise_cons.mp h).2
    simp only [bufInsert]
    split
    · rename_i hs
      refine List.pairwise_cons.mpr ⟨?_, h⟩
      simp only [List.forall_mem_cons]
      exact ⟨hs, fun e he => Nat.lt_trans hs (h1 e he)⟩
    · split
      · subst_vars; exact List.pairwise_cons.mpr ⟨h1, h2⟩
      · rename_i hs hne
        refine List.pairwise_cons.mpr ⟨?_, ih h2⟩
        intro e he
        rcases mem_bufInsert he with rfl | he
        · simp only; omega
        · exact h1 e he

/-- An insertion under a new seq adds one entry. -/
theorem bufInsert_length {s : Nat} {pay : ByteStr} {buf : List (Nat × ByteStr)} (h : bufLookup s buf = none) :
    (bufInsert s pay buf).length = buf.length + 1 := by
  induction buf with
  | nil => rfl
  | cons e rest ih =>
    obtain ⟨j, q⟩ := e
    simp only [bufLookup] at h
    split at h
    · cases h
    · rename_i hj
      simp only [bufInsert]
      split
      · rfl
      · split
        · exact absurd (Eq.symm (by assumption)) hj
        · simp [ih h]

/-- BufAdd raises one of its three errors, or changes nothing, or adds one entry under a new seq (R206). -/
theorem bufAdd_cases (len : Nat) (rc : ReceiverRegs) (s t : Nat) (pay : ByteStr) :
    (∃ c : BitVec 16, (c = 10 ∨ c = 11 ∨ c = 13) ∧ bufAdd len rc s t pay = .error ⟨.malformedHeader, c⟩) ∨
    ((∃ q, bufLookup s rc.buf = some q) ∧ bufAdd len rc s t pay = .ok (rc, .dup)) ∨
    (1 ≤ s ∧ s ≤ t ∧ t ≤ 9999 ∧ (rc.total = none ∨ rc.total = some t) ∧ pay.length ≤ len ∧ bufLookup s rc.buf = none ∧
      bufAdd len rc s t pay = .ok ({ rc with buf := bufInsert s pay rc.buf, total := some t }, .new)) := by
  unfold bufAdd
  split
  · exact .inl ⟨_, .inl rfl, rfl⟩
  · split
    · exact .inl ⟨_, .inr (.inl rfl), rfl⟩
    · split
      · exact .inl ⟨_, .inr (.inr rfl), rfl⟩
      · rename_i h1 h2 h3
        cases hl : bufLookup s rc.buf with
        | some q => exact .inr (.inl ⟨⟨q, rfl⟩, rfl⟩)
        | none => exact .inr (.inr ⟨by omega, by omega, by omega, by tauto, by omega, rfl, rfl⟩)

/-- Fragments have 1 to `len` bytes (R204). -/
theorem fragment_mem_length {m pay : ByteStr} {len : Nat} (h0 : 1 ≤ len) (h : pay ∈ fragment m len) :
    1 ≤ pay.length ∧ pay.length ≤ len := by
  simp only [fragment, List.mem_map, List.mem_range] at h
  obtain ⟨i, hi, rfl⟩ := h
  have hlt : i * len < m.length := by
    have := Nat.div_mul_le_self (m.length + len - 1) len
    have h2 : (i + 1) * len ≤ (m.length + len - 1) / len * len := Nat.mul_le_mul_right _ hi
    rw [Nat.add_mul] at h2; omega
  simp only [List.length_take, List.length_drop]
  omega

end Sys2Proof.Machine
end

