-- ==== Sys2Proof/Laws/Bytes.lean ====
section
/-! SUPPORT. Sys2Proof/Laws/Bytes.lean: lengths and positions of bit and byte strings, and splitting at the first NL. -/

namespace Sys2Proof.Machine

@[simp] theorem byteBits_length (x : Byte) : (byteBits x).length = 8 := rfl

@[simp] theorem bytesToBits_nil : bytesToBits [] = [] := rfl

@[simp] theorem bytesToBits_cons (x : Byte) (b : ByteStr) : bytesToBits (x :: b) = byteBits x ++ bytesToBits b := rfl

@[simp] theorem bytesToBits_length (b : ByteStr) : (bytesToBits b).length = 8 * b.length := by
  induction b with
  | nil => rfl
  | cons x b ih => simp [ih]; omega

/-- Bit `k` of a byte's bits is its bit `7 − k` (R10). -/
theorem byteBits_getElem? (x : Byte) {k : Nat} (h : k < 8) : (byteBits x)[k]? = some (x.getLsbD (7 - k)) := by
  match k, h with
  | 0, _ | 1, _ | 2, _ | 3, _ | 4, _ | 5, _ | 6, _ | 7, _ => rfl

@[simp] theorem bitsToBytes_nil : bitsToBytes [] = [] := rfl

/-- A byte's bits followed by others give back the byte. -/
theorem bitsToBytes_byteBits_append (x : Byte) (v : BitStr) : bitsToBytes (byteBits x ++ v) =
    byteOfBits (x.getLsbD 7) (x.getLsbD 6) (x.getLsbD 5) (x.getLsbD 4) (x.getLsbD 3) (x.getLsbD 2) (x.getLsbD 1)
      (x.getLsbD 0) :: bitsToBytes v := rfl

theorem bitsToBytes_length : ∀ v : BitStr, (bitsToBytes v).length = v.length / 8
  | b7 :: b6 :: b5 :: b4 :: b3 :: b2 :: b1 :: b0 :: rest => by
    simp only [bitsToBytes, List.length_cons, bitsToBytes_length rest]; omega
  | [] | [_] | [_, _] | [_, _, _] | [_, _, _, _] | [_, _, _, _, _] | [_, _, _, _, _, _] | [_, _, _, _, _, _, _] => by simp [bitsToBytes]

/-- A byte built from eight bits has these bits (R131). -/
theorem byteBits_byteOfBits (b7 b6 b5 b4 b3 b2 b1 b0 : Bool) :
    byteBits (byteOfBits b7 b6 b5 b4 b3 b2 b1 b0) = [b7, b6, b5, b4, b3, b2, b1, b0] := by
  revert b7 b6 b5 b4 b3 b2 b1 b0; decide

/-- The bits of the bytes of whole groups of eight bits (R133). -/
theorem bytesToBits_bitsToBytes : ∀ v : BitStr, v.length % 8 = 0 → bytesToBits (bitsToBytes v) = v
  | b7 :: b6 :: b5 :: b4 :: b3 :: b2 :: b1 :: b0 :: rest => fun h => by
    simp only [List.length_cons] at h
    simp only [bitsToBytes, bytesToBits_cons, byteBits_byteOfBits, bytesToBits_bitsToBytes rest (by omega),
      List.cons_append, List.nil_append]
  | [] => fun _ => rfl
  | [_] | [_, _] | [_, _, _] | [_, _, _, _] | [_, _, _, _, _] | [_, _, _, _, _, _] | [_, _, _, _, _, _, _] => fun h => by
    simp at h

/-- Flipping bits inverts the bits of the set and no other (R12). -/
theorem bytesToBits_flipBits (s : ByteStr) (P : Nat → Bool) :
    bytesToBits (flipBits s P) = (bytesToBits s).mapIdx fun k x => if P k then !x else x :=
  bytesToBits_bitsToBytes _ (by simp)

/-- Flipping bits keeps the length (R12). -/
@[simp] theorem flipBits_length (s : ByteStr) (P : Nat → Bool) : (flipBits s P).length = s.length := by
  simp [flipBits, bitsToBytes_length]

/-- Splitting at the first NL cuts the string there (R90, R183). -/
theorem splitNl_eq_some {p h pay : ByteStr} (e : splitNl p = some (h, pay)) : nl ∉ h ∧ p = h ++ nl :: pay := by
  induction p generalizing h with
  | nil => simp [splitNl] at e
  | cons x xs ih =>
    simp only [splitNl] at e
    split at e
    · rename_i hx; simp only [Option.some.injEq, Prod.mk.injEq] at e; obtain ⟨rfl, rfl⟩ := e; simp [hx]
    · rename_i hx
      cases hs : splitNl xs with
      | none => simp [hs] at e
      | some r =>
        simp only [hs, Option.map_some, Option.some.injEq, Prod.mk.injEq] at e
        obtain ⟨rfl, rfl⟩ := e
        obtain ⟨h1, h2⟩ := ih (h := r.1) hs
        refine ⟨?_, by rw [h2]; rfl⟩
        simp only [List.mem_cons, not_or]; exact ⟨fun h => hx h.symm, h1⟩

/-- A header without NL, NL and a payload split into that header and payload. -/
theorem splitNl_append {h pay : ByteStr} (hh : nl ∉ h) : splitNl (h ++ nl :: pay) = some (h, pay) := by
  induction h with
  | nil => simp [splitNl]
  | cons x xs ih =>
    simp only [List.mem_cons, not_or] at hh
    have hx : ¬ x = nl := fun e => hh.1 e.symm
    simp [splitNl, hx, ih hh.2]

/-- A string does not split exactly when it has no NL. -/
theorem splitNl_eq_none {p : ByteStr} : splitNl p = none ↔ nl ∉ p := by
  induction p with
  | nil => simp [splitNl]
  | cons x xs ih =>
    simp only [splitNl, List.mem_cons, not_or]
    split
    · rename_i hx; simp [hx]
    · rename_i hx; simp only [Option.map_eq_none_iff, ih]; exact ⟨fun h => ⟨fun e => hx e.symm, h⟩, fun h => h.2⟩

end Sys2Proof.Machine
end

