-- ==== Sys2Proof/Laws/Noise.lean ====
section
/-! SUPPORT. Sys2Proof/Laws/Noise.lean: what the corruption functions can do. -/

namespace Sys2Proof.Machine

/-- A set draw gives as many positions as asked. -/
theorem drawSubset_length (n : Nat) (pool : List Nat) (d : DrawSource) : (drawSubset n pool d).1.length = n := by
  induction n generalizing pool d with
  | zero => rfl
  | succ n ih => simp [drawSubset, ih]

/-- A set draw takes its positions from the pool, each at most once. -/
theorem drawSubset_subperm {n : Nat} {pool : List Nat} (d : DrawSource) (h : n ≤ pool.length) :
    ∃ rest, List.Perm ((drawSubset n pool d).1 ++ rest) pool := by
  induction n generalizing pool d with
  | zero => exact ⟨pool, by simp [drawSubset]⟩
  | succ n ih =>
    have hlt : (drawBelow pool.length d).1 < pool.length := Nat.mod_lt _ (by omega)
    obtain ⟨rest, hr⟩ := ih (pool := pool.eraseIdx (drawBelow pool.length d).1) (drawBelow pool.length d).2
      (by rw [List.length_eraseIdx_of_lt hlt]; omega)
    refine ⟨rest, ?_⟩
    simp only [drawSubset, List.cons_append]
    rw [List.getD_eq_getElem _ _ hlt]
    exact (List.Perm.cons _ hr).trans (List.getElem_cons_eraseIdx_perm hlt)

/-- A set draw has no repeats when its pool has none. -/
theorem drawSubset_nodup {n : Nat} {pool : List Nat} (d : DrawSource) (h : n ≤ pool.length) (hp : pool.Nodup) :
    (drawSubset n pool d).1.Nodup := by
  obtain ⟨rest, hr⟩ := drawSubset_subperm d h
  exact (hr.nodup_iff.mpr hp).of_append_left

/-- Everything a set draw gives is in its pool. -/
theorem drawSubset_mem {n : Nat} {pool : List Nat} (d : DrawSource) (h : n ≤ pool.length) {k : Nat}
    (hk : k ∈ (drawSubset n pool d).1) : k ∈ pool := by
  obtain ⟨rest, hr⟩ := drawSubset_subperm d h
  exact hr.mem_iff.mp (List.mem_append_left _ hk)

/-- FlipN raises exactly when asked for more bits than there are, with no draw, and otherwise inverts that many distinct
bits (R181). -/
theorem flipN_cases (d : DrawSource) (b : ByteStr) (n : Nat) :
    (8 * b.length < n ∧ flipN d b n = (d, .error ⟨.injectRange, 1⟩)) ∨
    (n ≤ 8 * b.length ∧ ∃ d' r, flipN d b n = (d', .ok r) ∧ FlipsBits n b r) := by
  unfold flipN
  split
  · exact .inl ⟨by omega, rfl⟩
  · refine .inr ⟨by omega, _, _, rfl, (drawSubset n (List.range (8 * b.length)) d).1, ?_, drawSubset_length .., ?_, ?_⟩
    · exact drawSubset_nodup d (by simp; omega) List.nodup_range
    · intro k hk
      simpa using drawSubset_mem d (by simp; omega) hk
    · simp only [bytesToBits_flipBits, List.contains_iff_mem]

/-- Burst inverts one run (R182). -/
theorem burst_flipsRun (mode : BurstMode) (d : DrawSource) (b : ByteStr) (len : Nat) :
    FlipsRun mode len b (burst mode d b len).2 := by
  unfold burst FlipsRun
  by_cases h : len = 0 ∨ b = []
  · rw [if_pos h, if_pos (by simpa using h)]
  · have hb : 0 < b.length := List.length_pos_iff.mpr (by tauto)
    rw [if_neg h, if_neg (by simpa using h)]
    refine ⟨(drawBelow (burstStarts mode (8 * b.length) len) d).1, ?_, ?_, ?_⟩
    · rintro rfl; exact Nat.lt_succ_iff.mp (Nat.mod_lt _ (Nat.succ_pos _))
    · rintro rfl; exact Nat.mod_lt _ (show 0 < 8 * b.length by omega)
    · rw [bytesToBits_flipBits]
      refine List.mapIdx_eq_mapIdx_iff.mpr fun k hk => ?_
      have hk : k < 8 * b.length := by simpa using hk
      simp only [Bool.and_eq_true, decide_eq_true_eq, lt_min_iff, hk, and_true]

/-- Burst keeps the length (R182). -/
@[simp] theorem burst_length (mode : BurstMode) (d : DrawSource) (b : ByteStr) (len : Nat) :
    (burst mode d b len).2.length = b.length := by
  unfold burst; split <;> simp

/-- A packet's payload has fewer bits than must be flipped, and no burst replaces the flips: where CorruptPacket raises if it
corrupts at all (R183, R181). -/
def FlipsTooMany (n prob len : Nat) (p : ByteStr) : Prop :=
  prob ≠ 0 ∧ len = 0 ∧ ∃ h pay : ByteStr, nl ∉ h ∧ p = h ++ nl :: pay ∧ 8 * pay.length < n

/-- CorruptPacket raises INJECT_RANGE(1) only where it must flip more bits than the payload has, and otherwise gives a
corrupted copy (R183). -/
theorem corruptPacket_cases (mode : BurstMode) (d : DrawSource) (p : ByteStr) (n prob len : Nat) :
    (∃ d' q c, corruptPacket mode d p n prob len = (d', .ok (q, c)) ∧ CorruptedCopy mode n prob len p q) ∨
    (∃ d', corruptPacket mode d p n prob len = (d', .error ⟨.injectRange, 1⟩) ∧ FlipsTooMany n prob len p) := by
  have h0 : (drawCorrupt prob d).1 = true → prob ≠ 0 := by rintro h rfl; cases h
  have h1 : (drawCorrupt prob d).1 = false → prob ≠ 10000 := by rintro h rfl; cases h
  unfold corruptPacket
  dsimp only
  split
  · rename_i hc; exact .inl ⟨_, _, _, rfl, .inl ⟨rfl, fun e => absurd e (h1 hc)⟩⟩
  · rename_i hc
    have hp := h0 (by simpa using hc)
    cases hs : splitNl p with
    | none => exact .inl ⟨_, _, _, rfl, .inl ⟨rfl, fun _ => splitNl_eq_none.mp hs⟩⟩
    | some hp =>
      obtain ⟨h, pay⟩ := hp
      obtain ⟨hn, rfl⟩ := splitNl_eq_some hs
      dsimp only
      split
      · rename_i hl
        refine .inl ⟨_, _, _, rfl, .inr ⟨hp, h, pay, _, hn, rfl, rfl, ?_⟩⟩
        rw [CorruptedPayload, if_neg (by omega)]
        exact burst_flipsRun ..
      · rename_i hl
        rcases flipN_cases (drawCorrupt prob d).2 pay n with ⟨hlt, e⟩ | ⟨-, d', r, e, hf⟩
        · rw [e]; exact .inr ⟨_, rfl, hp, by omega, h, pay, hn, rfl, hlt⟩
        · rw [e]
          refine .inl ⟨_, _, _, rfl, .inr ⟨hp, h, pay, _, hn, rfl, rfl, ?_⟩⟩
          rwa [CorruptedPayload, if_pos (by omega)]

/-- With probability 0 the packet is unchanged and no draw is made (R183). -/
theorem corruptPacket_prob_zero (mode : BurstMode) (d : DrawSource) (p : ByteStr) (n len : Nat) :
    corruptPacket mode d p n 0 len = (d, .ok (p, false)) := by
  simp [corruptPacket, drawCorrupt]

/-- A corrupted payload has the payload's length (R181, R182). -/
theorem CorruptedPayload.length_eq {mode : BurstMode} {n len : Nat} {a b : ByteStr}
    (h : CorruptedPayload mode n len a b) : b.length = a.length := by
  have key : ∀ f : Nat → Bool → Bool, bytesToBits b = (bytesToBits a).mapIdx f → b.length = a.length := by
    intro f e
    have := congrArg List.length e
    simp only [List.length_mapIdx, bytesToBits_length] at this
    omega
  unfold CorruptedPayload FlipsBits FlipsRun at h
  split at h
  · obtain ⟨P, -, -, -, e⟩ := h; exact key _ e
  · split at h
    · rw [h]
    · obtain ⟨st, -, -, e⟩ := h; exact key _ e

/-- A noisy copy has the packet's length (R183). -/
theorem NoisyCopy.length_eq {s : State} {p q : ByteStr} (h : NoisyCopy s p q) : q.length = p.length := by
  obtain ⟨rfl, -⟩ | ⟨-, hd, pay, pay2, -, rfl, rfl, hl⟩ := h
  · rfl
  · simp [hl.length_eq]

/-- With CFG_PROB 0 a noisy copy is the packet itself (R183). -/
theorem NoisyCopy.eq_of_prob_zero {s : State} {p q : ByteStr} (h : NoisyCopy s p q) (h0 : s.cfg.prob = 0) : q = p := by
  obtain ⟨rfl, -⟩ | ⟨hp, -⟩ := h
  · rfl
  · exact absurd (by simp [h0]) hp

end Sys2Proof.Machine
end

