-- ==== Sys2Proof/Laws/State.lean ====
section
/-! SUPPORT. Sys2Proof/Laws/State.lean: what each named update writes and what it leaves, field by field. -/

namespace Sys2Proof.Machine

section
variable (s : State)

@[simp] theorem State.complete_cmd : s.complete.cmd = s.cmd := rfl
@[simp] theorem State.complete_ports : s.complete.ports = s.ports := rfl
@[simp] theorem State.complete_res : s.complete.res = s.res := rfl
@[simp] theorem State.complete_err : s.complete.status.err = .ok := rfl
@[simp] theorem State.complete_faultSeen : s.complete.status.faultSeen = s.status.faultSeen := rfl
@[simp] theorem State.complete_overrun : s.complete.status.overrun = s.status.overrun := rfl
@[simp] theorem State.complete_sess : s.complete.status.sess = s.status.sess := rfl
@[simp] theorem State.complete_endCause : s.complete.status.endCause = s.status.endCause := rfl
@[simp] theorem State.complete_op : s.complete.status.op = s.status.op := rfl
@[simp] theorem State.complete_sndState : s.complete.status.sndState = s.status.sndState := rfl
@[simp] theorem State.complete_rcvState : s.complete.status.rcvState = s.status.rcvState := rfl
@[simp] theorem State.complete_errInfo : s.complete.errInfo = 0 := rfl
@[simp] theorem State.complete_cfg : s.complete.cfg = s.cfg := rfl
@[simp] theorem State.complete_snd : s.complete.snd = s.snd := rfl
@[simp] theorem State.complete_rcv : s.complete.rcv = s.rcv := rfl
@[simp] theorem State.complete_env : s.complete.env = s.env := rfl
@[simp] theorem State.complete_params : s.complete.params = s.params := rfl

end

section
variable (s : State) (e : Raise)

@[simp] theorem State.report_cmd : (s.report e).cmd = s.cmd := rfl
@[simp] theorem State.report_ports : (s.report e).ports = s.ports := rfl
@[simp] theorem State.report_res : (s.report e).res = s.res := rfl
@[simp] theorem State.report_err : (s.report e).status.err = e.code := rfl
@[simp] theorem State.report_faultSeen : (s.report e).status.faultSeen = true := rfl
@[simp] theorem State.report_overrun : (s.report e).status.overrun = s.status.overrun := rfl
@[simp] theorem State.report_sess : (s.report e).status.sess = s.status.sess := rfl
@[simp] theorem State.report_endCause : (s.report e).status.endCause = s.status.endCause := rfl
@[simp] theorem State.report_op : (s.report e).status.op = s.status.op := rfl
@[simp] theorem State.report_sndState : (s.report e).status.sndState = s.status.sndState := rfl
@[simp] theorem State.report_rcvState : (s.report e).status.rcvState = s.status.rcvState := rfl
@[simp] theorem State.report_errInfo : (s.report e).errInfo = e.info := rfl
@[simp] theorem State.report_cfg : (s.report e).cfg = s.cfg := rfl
@[simp] theorem State.report_snd : (s.report e).snd = s.snd := rfl
@[simp] theorem State.report_rcv : (s.report e).rcv = s.rcv := rfl
@[simp] theorem State.report_env : (s.report e).env = s.env := rfl
@[simp] theorem State.report_params : (s.report e).params = s.params := rfl

end

section
variable (s : State)

@[simp] theorem State.endOperation_cmd : s.endOperation.cmd = s.cmd := rfl
@[simp] theorem State.endOperation_ports : s.endOperation.ports = s.ports := rfl
@[simp] theorem State.endOperation_res : s.endOperation.res = s.res := rfl
@[simp] theorem State.endOperation_err : s.endOperation.status.err = s.status.err := rfl
@[simp] theorem State.endOperation_faultSeen : s.endOperation.status.faultSeen = s.status.faultSeen := rfl
@[simp] theorem State.endOperation_overrun : s.endOperation.status.overrun = s.status.overrun := rfl
@[simp] theorem State.endOperation_sess : s.endOperation.status.sess = s.status.sess := rfl
@[simp] theorem State.endOperation_endCause : s.endOperation.status.endCause = s.status.endCause := rfl
@[simp] theorem State.endOperation_op : s.endOperation.status.op = .none := rfl
@[simp] theorem State.endOperation_sndState : s.endOperation.status.sndState = .idle := rfl
@[simp] theorem State.endOperation_rcvState : s.endOperation.status.rcvState = .idle := rfl
@[simp] theorem State.endOperation_errInfo : s.endOperation.errInfo = s.errInfo := rfl
@[simp] theorem State.endOperation_cfg : s.endOperation.cfg = s.cfg := rfl
@[simp] theorem State.endOperation_snd : s.endOperation.snd = s.snd := rfl
@[simp] theorem State.endOperation_rcv : s.endOperation.rcv = s.rcv := rfl
@[simp] theorem State.endOperation_env : s.endOperation.env = s.env := rfl
@[simp] theorem State.endOperation_params : s.endOperation.params = s.params := rfl

end

section
variable (s : State) (c : EndCause)

@[simp] theorem State.endSession_cmd : (s.endSession c).cmd = s.cmd := rfl
@[simp] theorem State.endSession_ports : (s.endSession c).ports = s.ports := rfl
@[simp] theorem State.endSession_res : (s.endSession c).res = s.res := rfl
@[simp] theorem State.endSession_err : (s.endSession c).status.err = s.status.err := rfl
@[simp] theorem State.endSession_faultSeen : (s.endSession c).status.faultSeen = s.status.faultSeen := rfl
@[simp] theorem State.endSession_overrun : (s.endSession c).status.overrun = s.status.overrun := rfl
@[simp] theorem State.endSession_sess : (s.endSession c).status.sess = .ended := rfl
@[simp] theorem State.endSession_endCause : (s.endSession c).status.endCause = c := rfl
@[simp] theorem State.endSession_op : (s.endSession c).status.op = s.status.op := rfl
@[simp] theorem State.endSession_sndState : (s.endSession c).status.sndState = s.status.sndState := rfl
@[simp] theorem State.endSession_rcvState : (s.endSession c).status.rcvState = s.status.rcvState := rfl
@[simp] theorem State.endSession_errInfo : (s.endSession c).errInfo = s.errInfo := rfl
@[simp] theorem State.endSession_cfg : (s.endSession c).cfg = s.cfg := rfl
@[simp] theorem State.endSession_snd : (s.endSession c).snd = s.snd := rfl
@[simp] theorem State.endSession_rcv : (s.endSession c).rcv = s.rcv := rfl
@[simp] theorem State.endSession_env : (s.endSession c).env = s.env := rfl
@[simp] theorem State.endSession_params : (s.endSession c).params = s.params := rfl

end

section
variable (s : State)

@[simp] theorem State.overrun_cmd : s.overrun.cmd = s.cmd := rfl
@[simp] theorem State.overrun_ports : s.overrun.ports = s.ports := rfl
@[simp] theorem State.overrun_res : s.overrun.res = s.res := rfl
@[simp] theorem State.overrun_err : s.overrun.status.err = s.status.err := rfl
@[simp] theorem State.overrun_faultSeen : s.overrun.status.faultSeen = true := rfl
@[simp] theorem State.overrun_overrun : s.overrun.status.overrun = true := rfl
@[simp] theorem State.overrun_sess : s.overrun.status.sess = s.status.sess := rfl
@[simp] theorem State.overrun_endCause : s.overrun.status.endCause = s.status.endCause := rfl
@[simp] theorem State.overrun_op : s.overrun.status.op = s.status.op := rfl
@[simp] theorem State.overrun_sndState : s.overrun.status.sndState = s.status.sndState := rfl
@[simp] theorem State.overrun_rcvState : s.overrun.status.rcvState = s.status.rcvState := rfl
@[simp] theorem State.overrun_errInfo : s.overrun.errInfo = s.errInfo := rfl
@[simp] theorem State.overrun_cfg : s.overrun.cfg = s.cfg := rfl
@[simp] theorem State.overrun_snd : s.overrun.snd = s.snd := rfl
@[simp] theorem State.overrun_rcv : s.overrun.rcv = s.rcv := rfl
@[simp] theorem State.overrun_env : s.overrun.env = s.env := rfl
@[simp] theorem State.overrun_params : s.overrun.params = s.params := rfl

end

section
variable (s : State) (p : ByteStr)

@[simp] theorem State.emit_cmd : (s.emit p).cmd = s.cmd := rfl
@[simp] theorem State.emit_ports : (s.emit p).ports = s.ports := rfl
@[simp] theorem State.emit_res : (s.emit p).res = s.res := rfl
@[simp] theorem State.emit_status : (s.emit p).status = s.status := rfl
@[simp] theorem State.emit_errInfo : (s.emit p).errInfo = s.errInfo := rfl
@[simp] theorem State.emit_cfg : (s.emit p).cfg = s.cfg := rfl
@[simp] theorem State.emit_snd : (s.emit p).snd = s.snd := rfl
@[simp] theorem State.emit_rcv : (s.emit p).rcv = s.rcv := rfl
@[simp] theorem State.emit_tx : (s.emit p).env.tx = s.env.tx ++ [p] := rfl
@[simp] theorem State.emit_pending : (s.emit p).env.pending = s.env.pending := rfl
@[simp] theorem State.emit_draws : (s.emit p).env.draws = s.env.draws := rfl
@[simp] theorem State.emit_params : (s.emit p).params = s.params := rfl

end

section
variable (s : State) (d : DrawSource)

@[simp] theorem State.setDraws_cmd : (s.setDraws d).cmd = s.cmd := rfl
@[simp] theorem State.setDraws_ports : (s.setDraws d).ports = s.ports := rfl
@[simp] theorem State.setDraws_res : (s.setDraws d).res = s.res := rfl
@[simp] theorem State.setDraws_status : (s.setDraws d).status = s.status := rfl
@[simp] theorem State.setDraws_errInfo : (s.setDraws d).errInfo = s.errInfo := rfl
@[simp] theorem State.setDraws_cfg : (s.setDraws d).cfg = s.cfg := rfl
@[simp] theorem State.setDraws_snd : (s.setDraws d).snd = s.snd := rfl
@[simp] theorem State.setDraws_rcv : (s.setDraws d).rcv = s.rcv := rfl
@[simp] theorem State.setDraws_tx : (s.setDraws d).env.tx = s.env.tx := rfl
@[simp] theorem State.setDraws_pending : (s.setDraws d).env.pending = s.env.pending := rfl
@[simp] theorem State.setDraws_draws : (s.setDraws d).env.draws = d := rfl
@[simp] theorem State.setDraws_params : (s.setDraws d).params = s.params := rfl

end

section
variable (s : State) (l : List Input)

@[simp] theorem State.setPending_cmd : (s.setPending l).cmd = s.cmd := rfl
@[simp] theorem State.setPending_ports : (s.setPending l).ports = s.ports := rfl
@[simp] theorem State.setPending_res : (s.setPending l).res = s.res := rfl
@[simp] theorem State.setPending_status : (s.setPending l).status = s.status := rfl
@[simp] theorem State.setPending_errInfo : (s.setPending l).errInfo = s.errInfo := rfl
@[simp] theorem State.setPending_cfg : (s.setPending l).cfg = s.cfg := rfl
@[simp] theorem State.setPending_snd : (s.setPending l).snd = s.snd := rfl
@[simp] theorem State.setPending_rcv : (s.setPending l).rcv = s.rcv := rfl
@[simp] theorem State.setPending_tx : (s.setPending l).env.tx = s.env.tx := rfl
@[simp] theorem State.setPending_pending : (s.setPending l).env.pending = l := rfl
@[simp] theorem State.setPending_draws : (s.setPending l).env.draws = s.env.draws := rfl
@[simp] theorem State.setPending_params : (s.setPending l).params = s.params := rfl

end

section
variable (s : State) (p : ByteStr)

@[simp] theorem State.keepInChannel_cmd : (s.keepInChannel p).cmd = s.cmd := rfl
@[simp] theorem State.keepInChannel_ports : (s.keepInChannel p).ports = s.ports := rfl
@[simp] theorem State.keepInChannel_res : (s.keepInChannel p).res = s.res := rfl
@[simp] theorem State.keepInChannel_status : (s.keepInChannel p).status = s.status := rfl
@[simp] theorem State.keepInChannel_errInfo : (s.keepInChannel p).errInfo = s.errInfo := rfl
@[simp] theorem State.keepInChannel_cfg : (s.keepInChannel p).cfg = s.cfg := rfl
@[simp] theorem State.keepInChannel_snd : (s.keepInChannel p).snd = s.snd := rfl
@[simp] theorem State.keepInChannel_rcv : (s.keepInChannel p).rcv = s.rcv := rfl
@[simp] theorem State.keepInChannel_tx : (s.keepInChannel p).env.tx = s.env.tx := rfl
@[simp] theorem State.keepInChannel_pending : (s.keepInChannel p).env.pending = .event 0x01 p :: s.env.pending := rfl
@[simp] theorem State.keepInChannel_draws : (s.keepInChannel p).env.draws = s.env.draws := rfl
@[simp] theorem State.keepInChannel_params : (s.keepInChannel p).params = s.params := rfl

end

section
variable (s : State) (e : Raise)

@[simp] theorem State.raiseFatal_cmd : (s.raiseFatal e).cmd = s.cmd := by
  unfold State.raiseFatal; split <;> rfl

@[simp] theorem State.raiseFatal_ports : (s.raiseFatal e).ports = s.ports := by
  unfold State.raiseFatal; split <;> rfl

@[simp] theorem State.raiseFatal_res : (s.raiseFatal e).res = s.res := by
  unfold State.raiseFatal; split <;> rfl

@[simp] theorem State.raiseFatal_cfg : (s.raiseFatal e).cfg = s.cfg := by
  unfold State.raiseFatal; split <;> rfl

@[simp] theorem State.raiseFatal_snd : (s.raiseFatal e).snd = s.snd := by
  unfold State.raiseFatal; split <;> rfl

@[simp] theorem State.raiseFatal_rcv : (s.raiseFatal e).rcv = s.rcv := by
  unfold State.raiseFatal; split <;> rfl

@[simp] theorem State.raiseFatal_env : (s.raiseFatal e).env = s.env := by
  unfold State.raiseFatal; split <;> rfl

@[simp] theorem State.raiseFatal_params : (s.raiseFatal e).params = s.params := by
  unfold State.raiseFatal; split <;> rfl

@[simp] theorem State.raiseFatal_errInfo : (s.raiseFatal e).errInfo = e.info := by
  unfold State.raiseFatal; split <;> rfl

@[simp] theorem State.raiseFatal_err : (s.raiseFatal e).status.err = e.code := by
  unfold State.raiseFatal; split <;> rfl

@[simp] theorem State.raiseFatal_faultSeen : (s.raiseFatal e).status.faultSeen = true := by
  unfold State.raiseFatal; split <;> rfl

@[simp] theorem State.raiseFatal_overrun : (s.raiseFatal e).status.overrun = s.status.overrun := by
  unfold State.raiseFatal; split <;> rfl

@[simp] theorem State.raiseFatal_op : (s.raiseFatal e).status.op = .none := by
  unfold State.raiseFatal; split <;> rfl

@[simp] theorem State.raiseFatal_sndState : (s.raiseFatal e).status.sndState = .idle := by
  unfold State.raiseFatal; split <;> rfl

@[simp] theorem State.raiseFatal_rcvState : (s.raiseFatal e).status.rcvState = .idle := by
  unfold State.raiseFatal; split <;> rfl

/-- A fatal raise leaves no open session (R402). -/
theorem State.raiseFatal_sess :
    (s.raiseFatal e).status.sess = if s.status.sess = .opened then .ended else s.status.sess := by
  unfold State.raiseFatal; split <;> rfl

/-- A fatal raise records FATAL_ERROR only where the raising rule has not ended the session itself (R402). -/
theorem State.raiseFatal_endCause :
    (s.raiseFatal e).status.endCause = if s.status.sess = .opened then .fatalError else s.status.endCause := by
  unfold State.raiseFatal; split <;> rfl

end

@[simp] theorem State.busy_eq_false (s : State) : s.busy = false ↔ s.status.op = .none := by
  simp [State.busy]

@[simp] theorem State.busy_eq_true (s : State) : s.busy = true ↔ s.status.op ≠ .none := by
  simp [State.busy]

/-- PACKET_DATA_LEN is at least 1 (R5). -/
theorem State.one_le_packetDataLen (s : State) : 1 ≤ s.packetDataLen := Nat.le_add_left 1 _

/-- PACKET_DATA_LEN is at most 16384 (R5). -/
theorem State.packetDataLen_le (s : State) : s.packetDataLen ≤ 16384 := s.params.dataLenPred.isLt

end Sys2Proof.Machine
end

