-- ==== Sys2Proof/Laws/Ops.lean ====
section
/-! SUPPORT. Sys2Proof/Laws/Ops.lean: for each shared operation of Machine/Ops.lean, once, everything it can do. -/

namespace Sys2Proof.Machine

@[simp] theorem Flow.andThen_done (s : State) (k : State → Flow) : (Flow.done s).andThen k = k s := rfl
@[simp] theorem Flow.andThen_raise (e : Raise) (s : State) (k : State → Flow) :
    (Flow.raise e s).andThen k = .raise e s := rfl
@[simp] theorem Flow.andThen_stuck (f : Fault) (k : State → Flow) : (Flow.stuck f).andThen k = .stuck f := rfl
@[simp] theorem Flow.settle_done (s : State) : (Flow.done s).settle = .next s := rfl
@[simp] theorem Flow.settle_raise (e : Raise) (s : State) : (Flow.raise e s).settle = .next (s.raiseFatal e) := rfl
@[simp] theorem Flow.settle_stuck (f : Fault) : (Flow.stuck f).settle = .fault f := rfl

/-- A step of an operation answers a next state in two ways: the rule ran to its end, or it raised (R402). -/
theorem Flow.settle_eq_next {r : Flow} {t : State} (h : r.settle = .next t) :
    r = .done t ∨ ∃ e s, r = .raise e s ∧ t = s.raiseFatal e := by
  cases r with
  | done s => left; simpa using h
  | raise e s => right; exact ⟨e, s, rfl, by simpa using h.symm⟩
  | stuck f => simp at h

/-- A command is an overrun while BUSY and its own rule otherwise (R455). -/
theorem issue_eq_next {s t : State} {body : State → Host.Outcome State Fault Refusal} (h : issue s body = .next t) :
    (s.busy = true ∧ t = s.overrun) ∨ (s.busy = false ∧ body s = .next t) := by
  unfold issue at h
  split at h
  · left; simp_all
  · right; simp_all

theorem issue_of_not_busy {s : State} (body : State → Host.Outcome State Fault Refusal) (h : s.busy = false) :
    issue s body = body s := by simp [issue, h]

theorem issue_of_busy {s : State} (body : State → Host.Outcome State Fault Refusal) (h : s.busy = true) :
    issue s body = .next s.overrun := by simp [issue, h]

/-- A session command raises outside an open session and runs its own rule in one (R241 to R243). -/
theorem inSession_eq_next {s t : State} {body : State → Host.Outcome State Fault Refusal}
    (h : inSession s body = .next t) :
    (s.status.sess = .none ∧ t = s.report ⟨.noSession, 0⟩) ∨
    (s.status.sess = .ended ∧ t = s.report ⟨.channelClosed, 1⟩) ∨ (s.status.sess = .opened ∧ body s = .next t) := by
  unfold inSession raised at h
  split at h <;> simp_all

theorem inSession_of_opened {s : State} (body : State → Host.Outcome State Fault Refusal)
    (h : s.status.sess = .opened) : inSession s body = body s := by simp [inSession, h]

/-- Emit(Noise(p)) emits a noisy copy of `p`, or raises INJECT_RANGE(1) where it must flip too many bits; either way only the
draw source and the transmit side change (R188). -/
theorem emitNoisy_cases (p : ByteStr) (s : State) :
    (∃ d q, NoisyCopy s p q ∧ emitNoisy p s = .done ((s.setDraws d).emit q)) ∨
    (FlipsTooMany s.cfg.num.toNat s.cfg.prob.toNat s.cfg.burst.toNat p ∧
      ∃ d, emitNoisy p s = .raise ⟨.injectRange, 1⟩ (s.setDraws d)) := by
  unfold emitNoisy noise
  rcases corruptPacket_cases s.params.burstMode s.env.draws p s.cfg.num.toNat s.cfg.prob.toNat s.cfg.burst.toNat with
    ⟨d, q, c, e, hq⟩ | ⟨d, e, hf⟩
  · rw [e]; exact .inl ⟨d, q, hq, rfl⟩
  · rw [e]; exact .inr ⟨hf, d, rfl⟩

/-- With CFG_PROB 0 the noise stage emits the packet itself. -/
theorem emitNoisy_prob_zero {s : State} (p : ByteStr) (h : s.cfg.prob = 0) : emitNoisy p s = .done (s.emit p) := by
  simp [emitNoisy, noise, h, corruptPacket_prob_zero, State.setDraws]

/-- A first transmission stores the clean packet, clears RETRY_CNT and emits a noisy copy, then waits; or the noise stage
raises with those writes kept (R247, R241, R249). -/
theorem transmitFragment_cases (i : Nat) (s : State) :
    (buildData s i = none ∧ transmitFragment i s = .stuck .noFragment) ∨
    ∃ p, buildData s i = some p ∧
      ((∃ d q, NoisyCopy s p q ∧ transmitFragment i s = .done
        { s with
          snd := { s.snd with lastPkt := some p, retryCnt := 0 }
          env := { s.env with draws := d, tx := s.env.tx ++ [q] }
          status := { s.status with sndState := .waitForReply } }) ∨
       (FlipsTooMany s.cfg.num.toNat s.cfg.prob.toNat s.cfg.burst.toNat p ∧
        ∃ d, transmitFragment i s = .raise ⟨.injectRange, 1⟩
        { s with
          snd := { s.snd with lastPkt := some p, retryCnt := 0 }
          env := { s.env with draws := d } })) := by
  unfold transmitFragment transmit
  cases buildData s i with
  | none => exact .inl ⟨rfl, rfl⟩
  | some p =>
    refine .inr ⟨p, rfl, ?_⟩
    rcases emitNoisy_cases p { s with snd := { s.snd with lastPkt := some p, retryCnt := 0 } } with
      ⟨d, q, hq, e⟩ | ⟨hf, d, e⟩
    · simp only [e]; exact .inl ⟨d, q, hq, rfl⟩
    · simp only [e]; exact .inr ⟨hf, d, rfl⟩

/-- A retransmission raises at the ceiling, or counts itself and emits a noisy copy of LAST_PKT, or the noise stage raises
after the count (R248). -/
theorem retransmit_cases (why : Why) (s : State) :
    (0 < s.cfg.retry.toNat ∧ s.cfg.retry.toNat < s.snd.retryCnt + 1 ∧ retransmit why s = .raise why.raise s) ∨
    ((0 < s.cfg.retry.toNat → s.snd.retryCnt + 1 ≤ s.cfg.retry.toNat) ∧
      ((s.snd.lastPkt = none ∧ retransmit why s = .stuck .noLastPacket) ∨
       ∃ p, s.snd.lastPkt = some p ∧
        ((∃ d q, NoisyCopy s p q ∧ retransmit why s = .done
          { s with
            snd := { s.snd with retryCnt := s.snd.retryCnt + 1 }
            env := { s.env with draws := d, tx := s.env.tx ++ [q] } }) ∨
         (FlipsTooMany s.cfg.num.toNat s.cfg.prob.toNat s.cfg.burst.toNat p ∧
          ∃ d, retransmit why s = .raise ⟨.injectRange, 1⟩
          { s with
            snd := { s.snd with retryCnt := s.snd.retryCnt + 1 }
            env := { s.env with draws := d } })))) := by
  unfold retransmit
  split
  · rename_i h; exact .inl ⟨by omega, by omega, rfl⟩
  · rename_i h
    refine .inr ⟨fun _ => by omega, ?_⟩
    cases s.snd.lastPkt with
    | none => exact .inl ⟨rfl, rfl⟩
    | some p =>
      refine .inr ⟨p, rfl, ?_⟩
      rcases emitNoisy_cases p { s with snd := { s.snd with retryCnt := s.snd.retryCnt + 1 } } with
        ⟨d, q, hq, e⟩ | ⟨hf, d, e⟩
      · simp only [e]; exact .inl ⟨d, q, hq, rfl⟩
      · simp only [e]; exact .inr ⟨hf, d, rfl⟩

/-- Advance completes the SEND after the last fragment and otherwise transmits the next one (R249). -/
theorem advance_cases (s : State) :
    (s.snd.idx + 1 = s.snd.total ∧ advance s = .done
      (({ s with
          status := { s.status with sndState := .idle, op := .none }
          snd := { s.snd with idx := s.snd.idx + 1 } } : State).complete)) ∨
    (s.snd.idx + 1 ≠ s.snd.total ∧ advance s = transmitFragment (s.snd.idx + 1)
      { s with
        status := { s.status with sndState := .idle }
        snd := { s.snd with idx := s.snd.idx + 1 } }) := by
  unfold advance
  dsimp only
  split
  · exact .inl ⟨by assumption, rfl⟩
  · exact .inr ⟨by assumption, rfl⟩

/-- Deliver completes the RECV once the message is complete and otherwise does nothing (R250). -/
theorem deliver_cases (s : State) :
    (bufComplete s.rcv = true ∧ deliver s =
      ({ s with
          res := { s.res with r := reassemble s.rcv }
          status := { s.status with rcvState := .idle, op := .none } } : State).complete) ∨
    (bufComplete s.rcv = false ∧ deliver s = s) := by
  unfold deliver
  split
  · exact .inl ⟨by assumption, rfl⟩
  · exact .inr ⟨Bool.eq_false_of_not_eq_true (by assumption), rfl⟩

/-- A reply that may be corrupted leaves as a noisy copy, or the noise stage raises; any other leaves as it is (R251). -/
theorem sendReply_cases (p : ByteStr) (inj : Bool) (s : State) :
    (∃ d q, (q = p ∨ inj = true ∧ NoisyCopy s p q) ∧ sendReply p inj s = .done ((s.setDraws d).emit q)) ∨
    (inj = true ∧ FlipsTooMany s.cfg.num.toNat s.cfg.prob.toNat s.cfg.burst.toNat p ∧
      ∃ d, sendReply p inj s = .raise ⟨.injectRange, 1⟩ (s.setDraws d)) := by
  unfold sendReply
  cases inj with
  | true =>
    rcases emitNoisy_cases p s with ⟨d, q, hq, e⟩ | h
    · exact .inl ⟨d, q, .inr ⟨rfl, hq⟩, e⟩
    · exact .inr ⟨rfl, h⟩
  | false => exact .inl ⟨s.env.draws, p, .inl rfl, rfl⟩

/-- Buffering a fragment raises with nothing written, changes nothing, or adds one entry (R206). -/
theorem bufferFragment_cases (h : Hdr) (s : State) :
    (∃ c : BitVec 16, (c = 10 ∨ c = 11 ∨ c = 13) ∧ bufferFragment h s = .raise ⟨.malformedHeader, c⟩ s) ∨
    ((∃ q, bufLookup h.s s.rcv.buf = some q) ∧ bufferFragment h s = .done s) ∨
    (1 ≤ h.s ∧ h.s ≤ h.t ∧ h.t ≤ 9999 ∧ (s.rcv.total = none ∨ s.rcv.total = some h.t) ∧ h.pay.length ≤ s.packetDataLen ∧
      bufLookup h.s s.rcv.buf = none ∧ bufferFragment h s = .done
        { s with rcv := { s.rcv with buf := bufInsert h.s h.pay s.rcv.buf, total := some h.t } }) := by
  unfold bufferFragment
  rcases bufAdd_cases s.packetDataLen s.rcv h.s h.t h.pay with ⟨c, hc, e⟩ | ⟨hq, e⟩ | ⟨h1, h2, h3, h4, h5, h6, e⟩
  · rw [e]; exact .inl ⟨c, hc, rfl⟩
  · rw [e]; exact .inr (.inl ⟨hq, rfl⟩)
  · rw [e]; exact .inr (.inr ⟨h1, h2, h3, h4, h5, h6, rfl⟩)

/-- A sender's RX raises on a packet its format does not parse, ends the session on FIN, and otherwise follows the
version's rule (R252). -/
theorem senderRx_cases (p : ByteStr) (rule : Hdr → State → Flow) (s : State) :
    (∃ c, parse s.fmt p = .error c ∧ senderRx p rule s = .raise ⟨.malformedHeader, c⟩ s) ∨
    ∃ h, parse s.fmt p = .ok h ∧
      ((finFlag h.fl = true ∧ senderRx p rule s = .raise ⟨.channelClosed, 2⟩ (s.endSession .finReceived)) ∨
       (finFlag h.fl = false ∧ senderRx p rule s = rule h s)) := by
  unfold senderRx finReceived
  cases parse s.fmt p with
  | error c => exact .inl ⟨c, rfl, rfl⟩
  | ok h => right; refine ⟨h, rfl, ?_⟩; cases hf : finFlag h.fl <;> simp [hf]

/-- A receiver's RX raises on a packet its format does not parse, ends the session on FIN, drops a stale reply, and
otherwise follows the version's rule (R253). -/
theorem receiverRx_cases (p : ByteStr) (rule : Hdr → State → Flow) (s : State) :
    (∃ c, parse s.fmt p = .error c ∧ receiverRx p rule s = .raise ⟨.malformedHeader, c⟩ s) ∨
    ∃ h, parse s.fmt p = .ok h ∧
      ((finFlag h.fl = true ∧ receiverRx p rule s = .raise ⟨.channelClosed, 2⟩ (s.endSession .finReceived)) ∨
       (finFlag h.fl = false ∧ staleReply s.cfg.ver h.fl = true ∧ receiverRx p rule s = .done s) ∨
       (finFlag h.fl = false ∧ staleReply s.cfg.ver h.fl = false ∧ receiverRx p rule s = rule h s)) := by
  unfold receiverRx finReceived
  cases parse s.fmt p with
  | error c => exact .inl ⟨c, rfl, rfl⟩
  | ok h =>
    right; refine ⟨h, rfl, ?_⟩
    cases hf : finFlag h.fl <;> cases hs : staleReply s.cfg.ver h.fl <;> simp [hf, hs]

end Sys2Proof.Machine
end

