-- ==== Sys2Proof/Laws/Arq.lean ====
section
/-! SUPPORT. Sys2Proof/Laws/Arq.lean: what an RX in a sender's and in a receiver's wait can do, over all versions. -/

namespace Sys2Proof.Machine

/-- A packet that does not parse fails with one of R90's sub-codes 1 to 9. -/
theorem parse_error_range {f : Format} {p : ByteStr} {c : BitVec 16} (h : parse f p = .error c) :
    c ∈ [1, 2, 3, 4, 5, 6, 7, 8, 9] := by
  have lit : ∀ {x : ByteStr} {k : BitVec 16} {g : ByteStr} {c : BitVec 16}, parseLit x k g = .error c → c = k := by
    intro x k g c e; unfold parseLit at e; split at e <;> simp_all
  have run : ∀ {m : Nat} {cls : Byte → Bool} {k : BitVec 16} {g : ByteStr} {c : BitVec 16},
      parseRun m cls k g = .error c → c = k := by
    intro m cls k g c e; unfold parseRun at e; split at e <;> simp_all
  have bind : ∀ {α β : Type} {x : Except (BitVec 16) α} {k : α → Except (BitVec 16) β} {c : BitVec 16},
      (x >>= k) = .error c → x = .error c ∨ ∃ a, x = .ok a ∧ k a = .error c := by
    intro α β x k c e
    cases x with
    | error d => left; simpa [Bind.bind, Except.bind] using e
    | ok a => right; exact ⟨a, rfl, e⟩
  have hC : ∀ {g : ByteStr} {c : BitVec 16}, parseC f g = .error c → c = 6 := by
    intro g c e; unfold parseC at e; split at e
    · rcases bind e with e | ⟨_, -, e⟩
      · exact lit e
      · rcases bind e with e | ⟨_, -, e⟩
        · exact run e
        · cases e
    · cases e
  have hE : ∀ {v : BitStr} {g : ByteStr} {c : BitVec 16}, parseEC f v g = .error c → c = 7 := by
    intro v g c e; unfold parseEC at e; split at e
    · rcases bind e with e | ⟨_, -, e⟩
      · exact lit e
      · dsimp only at e; split at e <;> cases e; rfl
    · cases e
  have hN : ∀ {g : ByteStr} {c : BitVec 16}, parseN f g = .error c → c = 8 := by
    intro g c e; unfold parseN at e; split at e
    · rcases bind e with e | ⟨_, -, e⟩
      · exact lit e
      · rcases bind e with e | ⟨_, -, e⟩
        · exact run e
        · cases e
    · cases e
  unfold parse at h
  split at h
  · cases h; decide
  · unfold parseHeader at h
    rcases bind h with h | ⟨_, -, h⟩
    · simp [lit h]
    rcases bind h with h | ⟨_, -, h⟩
    · simp [run h]
    rcases bind h with h | ⟨_, -, h⟩
    · simp [lit h]
    rcases bind h with h | ⟨_, -, h⟩
    · simp [run h]
    rcases bind h with h | ⟨_, -, h⟩
    · simp [lit h]
    rcases bind h with h | ⟨_, -, h⟩
    · simp [run h]
    rcases bind h with h | ⟨_, -, h⟩
    · simp [hC h]
    rcases bind h with h | ⟨_, -, h⟩
    · simp [hE h]
    rcases bind h with h | ⟨_, -, h⟩
    · simp [hN h]
    split at h <;> cases h; decide

/-- What an RX does in a sender's wait, whatever the version and the packet (R252, R284, R311, R312, R341). -/
theorem rxRule_send_cases (p : ByteStr) {s : State} (hop : s.status.op = .send) :
    (s.cfg.ver = .v10 ∧ rxRule p s = .stuck .noSenderRule) ∨
    (∃ c, parse s.fmt p = .error c ∧ rxRule p s = .raise ⟨.malformedHeader, c⟩ s) ∨
    rxRule p s = .raise ⟨.channelClosed, 2⟩ (s.endSession .finReceived) ∨
    (∃ why, rxRule p s = retransmit why s) ∨
    (∃ b, rxRule p s = advance { s with snd := { s.snd with bit := b } }) := by
  have key : ∀ rule, (∀ h, (∃ why, rule h s = retransmit why s) ∨
      (∃ b, rule h s = advance { s with snd := { s.snd with bit := b } })) → rxRule p s = senderRx p rule s →
      (∃ c, parse s.fmt p = .error c ∧ rxRule p s = .raise ⟨.malformedHeader, c⟩ s) ∨
      rxRule p s = .raise ⟨.channelClosed, 2⟩ (s.endSession .finReceived) ∨
      (∃ why, rxRule p s = retransmit why s) ∨
      (∃ b, rxRule p s = advance { s with snd := { s.snd with bit := b } }) := by
    intro rule hr e
    rw [e]
    rcases senderRx_cases p rule s with ⟨c, hc, e⟩ | ⟨h, -, ⟨-, e⟩ | ⟨-, e⟩⟩
    · exact .inl ⟨c, hc, e⟩
    · exact .inr (.inl e)
    · rw [e]; exact .inr (.inr (hr h))
  cases hv : s.cfg.ver with
  | v10 => exact .inl ⟨rfl, by simp [rxRule, hop, hv]⟩
  | v20 =>
    refine .inr (key v20SendRx (fun h => ?_) (by simp [rxRule, hop, hv]))
    unfold v20SendRx
    split
    · exact .inr ⟨s.snd.bit, rfl⟩
    · split <;> exact .inl ⟨_, rfl⟩
  | v21 | v22 =>
    refine .inr (key v21SendRx (fun h => ?_) (by simp [rxRule, hop, hv]))
    unfold v21SendRx
    split
    · split
      · exact .inl ⟨_, rfl⟩
      · exact .inr ⟨_, rfl⟩
    · split <;> exact .inl ⟨_, rfl⟩
  | v30 =>
    refine .inr (key v30SendRx (fun h => ?_) (by simp [rxRule, hop, hv]))
    unfold v30SendRx
    repeat' split
    all_goals first | exact .inl ⟨_, rfl⟩ | exact .inr ⟨_, rfl⟩

/-- What an RX does in a receiver's wait, whatever the version and the packet (R253, R281, R285, R313, R343): nothing, a
reply alone, or the buffering of a fragment followed, where the version replies, by a reply, and by Deliver. -/
theorem rxRule_recv_cases (p : ByteStr) {s : State} (hop : s.status.op = .recv) :
    (∃ c, parse s.fmt p = .error c ∧ rxRule p s = .raise ⟨.malformedHeader, c⟩ s) ∨
    rxRule p s = .raise ⟨.channelClosed, 2⟩ (s.endSession .finReceived) ∨
    rxRule p s = .done s ∨
    (∃ q inj, rxRule p s = sendReply q inj s) ∨
    (∃ h, rxRule p s = (bufferFragment h s).andThen fun s => .done (deliver s)) ∨
    (∃ h, rxRule p s = (bufferFragment h s).andThen fun s =>
      (sendReply (buildReply s .v20Ack h false) false s).andThen fun s => .done (deliver s)) ∨
    (∃ k h, rxRule p s = newFragment k h s) := by
  have key : ∀ rule (P : Flow → Prop), (∀ h, P (rule h s)) → rxRule p s = receiverRx p rule s →
      (∃ c, parse s.fmt p = .error c ∧ rxRule p s = .raise ⟨.malformedHeader, c⟩ s) ∨
      rxRule p s = .raise ⟨.channelClosed, 2⟩ (s.endSession .finReceived) ∨
      rxRule p s = .done s ∨ P (rxRule p s) := by
    intro rule P hr e
    rw [e]
    rcases receiverRx_cases p rule s with ⟨c, hc, e⟩ | ⟨h, -, ⟨-, e⟩ | ⟨-, -, e⟩ | ⟨-, -, e⟩⟩
    · exact .inl ⟨c, hc, e⟩
    · exact .inr (.inl e)
    · exact .inr (.inr (.inl e))
    · rw [e]; exact .inr (.inr (.inr (hr h)))
  cases hv : s.cfg.ver with
  | v10 =>
    exact key v10RecvRx (fun r => _ ∨ (∃ h, r = (bufferFragment h s).andThen fun s => .done (deliver s)) ∨ _)
      (fun h => .inr (.inl ⟨h, rfl⟩)) (by simp [rxRule, hop, hv])
  | v20 =>
    refine key v20RecvRx (fun r => (∃ q inj, r = sendReply q inj s) ∨ _ ∨ (∃ h, r = (bufferFragment h s).andThen fun s =>
      (sendReply (buildReply s .v20Ack h false) false s).andThen fun s => .done (deliver s)) ∨ _) (fun h => ?_)
      (by simp [rxRule, hop, hv])
    unfold v20RecvRx
    split
    · exact .inr (.inr (.inl ⟨h, rfl⟩))
    · exact .inl ⟨_, _, rfl⟩
  | v21 | v22 =>
    refine key v21RecvRx (fun r => (∃ q inj, r = sendReply q inj s) ∨ _ ∨ _ ∨ (∃ k h, r = newFragment k h s))
      (fun h => ?_) (by simp [rxRule, hop, hv])
    unfold v21RecvRx
    repeat' split
    all_goals first | exact .inl ⟨_, _, rfl⟩ | exact .inr (.inr (.inr ⟨_, _, rfl⟩))
  | v30 =>
    refine key v30RecvRx (fun r => (∃ q inj, r = sendReply q inj s) ∨ _ ∨ _ ∨ (∃ k h, r = newFragment k h s))
      (fun h => ?_) (by simp [rxRule, hop, hv])
    unfold v30RecvRx
    repeat' split
    all_goals first | exact .inl ⟨_, _, rfl⟩ | exact .inr (.inr (.inr ⟨_, _, rfl⟩))

end Sys2Proof.Machine
end

