-- ==== Sys2Proof/Laws/Packet.lean ====
section
/-! SUPPORT. Sys2Proof/Laws/Packet.lean: fragments, headers, the parser's parts, and what buffering, retransmitting and
emitting do where no check fails. -/

namespace Sys2Proof.Machine

/-- The number of fragments (R204). -/
theorem fragment_length (m : ByteStr) (len : Nat) : (fragment m len).length = (m.length + len - 1) / len := by
  simp [fragment]

/-- A message within 9999 fragments (R205, R241). -/
theorem fragment_length_le {m : ByteStr} {len : Nat} (h : m.length ≤ 9999 * len) : (fragment m len).length ≤ 9999 := by
  rw [fragment_length]
  have := Nat.div_mul_le_self (m.length + len - 1) len
  rcases Nat.lt_or_ge 9999 ((m.length + len - 1) / len) with h3 | h3
  · have := Nat.mul_le_mul_right len h3
    rcases Nat.eq_zero_or_pos len with rfl | _ <;> [simp at h3; omega]
  · exact h3

/-- A message above 9999 fragments (R205, R241). -/
theorem lt_fragment_length {m : ByteStr} {len : Nat} (h : 1 ≤ len) (h2 : 9999 * len < m.length) :
    9999 < (fragment m len).length := by
  rw [fragment_length, Nat.lt_div_iff_mul_lt (by omega), Nat.mul_comm]; omega

/-- A message that is not empty has a fragment (R204). -/
theorem fragment_length_ne_zero {m : ByteStr} {len : Nat} (h : 1 ≤ len) (h2 : m ≠ []) : (fragment m len).length ≠ 0 := by
  rw [fragment_length]
  have : 0 < m.length := List.length_pos_iff.mpr h2
  have : 1 ≤ (m.length + len - 1) / len := by rw [Nat.le_div_iff_mul_le (by omega)]; omega
  omega

/-- The first fragment (R204). -/
theorem fragment_head {m : ByteStr} {len : Nat} (h : 1 ≤ len) (h2 : m ≠ []) : (fragment m len)[0]? = some (m.take len) := by
  have := fragment_length_ne_zero h h2
  rw [List.getElem?_eq_getElem (by omega)]
  simp [fragment]

/-- A header holds no NL (R88), so a packet splits where its header ends. -/
theorem nl_notMem_header (f : Format) (s t : Nat) (fl : Byte) (e : BitStr) (n : Bool) : nl ∉ header f s t fl e n := by
  have dd : ∀ d, d < 10 → decDigit d ≠ nl := by intro d hd; interval_cases d <;> decide
  have hx : ∀ d, d < 16 → hexDigit d ≠ nl := by intro d hd; interval_cases d <;> decide
  have hs : nl ∉ dec4 s := by simp [dec4]; refine ⟨?_, ?_, ?_, ?_⟩ <;> exact (dd _ (by omega)).symm
  have ht : nl ∉ dec4 t := by simp [dec4]; refine ⟨?_, ?_, ?_, ?_⟩ <;> exact (dd _ (by omega)).symm
  have hf : nl ∉ hex2 fl := by simp [hex2]; refine ⟨?_, ?_⟩ <;> exact (hx _ (by omega)).symm
  have he : nl ∉ bitchars e := by simp [bitchars]; constructor <;> (intro; decide)
  have hn : nl ∉ dec1 n := by cases n <;> decide
  have l1 : nl ∉ ascii ['H', 'E', 'A', 'D', 'E', 'R', ' ', 'S', ':'] := by decide
  have l2 : nl ∉ ascii [' ', 'T', ':'] := by decide
  have l3 : nl ∉ ascii [' ', 'F', ':'] := by decide
  have l4 : nl ∉ ascii [' ', 'C', ':'] := by decide
  have l5 : nl ∉ ascii [' ', 'E', 'C', ':'] := by decide
  have l6 : nl ∉ ascii [' ', 'N', ':'] := by decide
  cases f <;> simp [header, Format.hasC, Format.hasEC, Format.hasN, hs, ht, hf, he, hn, l1, l2, l3, l4, l5, l6]

/-- `lit` takes its literal (R90). -/
theorem parseLit_append (x : ByteStr) (c : BitVec 16) (r : ByteStr) : parseLit x c (x ++ r) = .ok r := by
  simp [parseLit]

/-- `lit` fails on anything else (R90). -/
theorem parseLit_error {x h : ByteStr} (c : BitVec 16) (hx : ¬ x <+: h) : parseLit x c h = .error c := by
  rw [parseLit, if_neg]
  exact fun e => hx (List.prefix_iff_eq_take.mpr e.symm)

/-- `run` takes its bytes (R90). -/
theorem parseRun_append {m : Nat} {cls : Byte → Bool} (c : BitVec 16) {x : ByteStr} (r : ByteStr) (hm : x.length = m)
    (hx : x.all cls) : parseRun m cls c (x ++ r) = .ok (x, r) := by
  subst hm
  rw [parseRun, if_pos ⟨by simp, by simpa using hx⟩]
  simp

/-- `run` fails where no such bytes stand (R90). -/
theorem parseRun_error {m : Nat} {cls : Byte → Bool} (c : BitVec 16) {h : ByteStr}
    (hx : ∀ x : ByteStr, x.length = m → x.all cls → ¬ x <+: h) : parseRun m cls c h = .error c := by
  rw [parseRun, if_neg]
  rintro ⟨h1, h2⟩
  exact hx _ (by simpa using h1) h2 (List.take_prefix ..)

/-- Four decimal digits are `dec4` of a number up to 9999 (R12, R90). -/
theorem eq_dec4_iff {x : ByteStr} : x.length = 4 ∧ x.all isDigit = true ↔ ∃ n ≤ 9999, x = dec4 n := by
  have dig : ∀ y : Byte, isDigit y = true → ∃ d < 10, y = decDigit d := by
    intro y hy
    simp only [isDigit, Bool.and_eq_true, decide_eq_true_eq] at hy
    exact ⟨y.toNat - 48, by omega, BitVec.eq_of_toNat_eq (by simp [decDigit]; omega)⟩
  have chr : ∀ d < 10, isDigit (decDigit d) = true := by intro d hd; interval_cases d <;> decide
  constructor
  · rintro ⟨hl, ha⟩
    match x, hl with
    | [a, b, c, d], _ =>
      simp only [List.all_cons, List.all_nil, Bool.and_true, Bool.and_eq_true] at ha
      obtain ⟨a, h1, rfl⟩ := dig a ha.1
      obtain ⟨b, h2, rfl⟩ := dig b ha.2.1
      obtain ⟨c, h3, rfl⟩ := dig c ha.2.2.1
      obtain ⟨d, h4, rfl⟩ := dig d ha.2.2.2
      refine ⟨1000 * a + 100 * b + 10 * c + d, by omega, ?_⟩
      rw [dec4, show (1000 * a + 100 * b + 10 * c + d) / 1000 % 10 = a by omega,
        show (1000 * a + 100 * b + 10 * c + d) / 100 % 10 = b by omega,
        show (1000 * a + 100 * b + 10 * c + d) / 10 % 10 = c by omega,
        show (1000 * a + 100 * b + 10 * c + d) % 10 = d by omega]
  · rintro ⟨n, -, rfl⟩
    simp only [dec4, List.all_cons, List.all_nil, Bool.and_true, Bool.and_eq_true]
    exact ⟨rfl, chr _ (by omega), chr _ (by omega), chr _ (by omega), chr _ (by omega)⟩

/-- Two lowercase hexadecimal digits are `hex2` of a byte (R12, R90). -/
theorem eq_hex2_iff {x : ByteStr} : x.length = 2 ∧ x.all isLowerHex = true ↔ ∃ fl, x = hex2 fl := by
  have dig : ∀ y : Byte, isLowerHex y = true → ∃ d < 16, y = hexDigit d := by
    intro y hy
    simp only [isLowerHex, isDigit, Bool.or_eq_true, Bool.and_eq_true, decide_eq_true_eq] at hy
    rcases hy with hy | hy
    · exact ⟨y.toNat - 48, by omega, BitVec.eq_of_toNat_eq (by rw [hexDigit, if_pos (by omega)]; simp; omega)⟩
    · exact ⟨y.toNat - 87, by omega, BitVec.eq_of_toNat_eq (by rw [hexDigit, if_neg (by omega)]; simp; omega)⟩
  have chr : ∀ d < 16, isLowerHex (hexDigit d) = true := by intro d hd; interval_cases d <;> decide
  constructor
  · rintro ⟨hl, ha⟩
    match x, hl with
    | [a, b], _ =>
      simp only [List.all_cons, List.all_nil, Bool.and_true, Bool.and_eq_true] at ha
      obtain ⟨a, h1, rfl⟩ := dig a ha.1
      obtain ⟨b, h2, rfl⟩ := dig b ha.2
      refine ⟨BitVec.ofNat 8 (16 * a + b), ?_⟩
      have : (BitVec.ofNat 8 (16 * a + b)).toNat = 16 * a + b := by simp; omega
      rw [hex2, this, show (16 * a + b) / 16 = a by omega, show (16 * a + b) % 16 = b by omega]
  · rintro ⟨fl, rfl⟩
    simp only [hex2, List.all_cons, List.all_nil, Bool.and_true, Bool.and_eq_true]
    exact ⟨rfl, chr _ (by omega), chr _ (by omega)⟩

/-- A run of bit characters is `bitchars` of its bits (R12, R90). -/
theorem eq_bitchars_iff {x : ByteStr} : x.all isBitChar = true ↔ ∃ e, x = bitchars e := by
  constructor
  · intro h
    refine ⟨charBits x, ?_⟩
    induction x with
    | nil => rfl
    | cons y x ih =>
      simp only [List.all_cons, Bool.and_eq_true, isBitChar, Bool.or_eq_true, decide_eq_true_eq] at h
      have hy : decDigit (decide (y.toNat = 49)).toNat = y := by
        apply BitVec.eq_of_toNat_eq
        rcases h.1 with h | h <;> simp [h, decDigit]
      have := ih (by simpa [isBitChar] using h.2)
      simp only [bitchars, charBits, List.map_cons, List.map_map] at *
      rw [hy, ← this]
  · rintro ⟨e, rfl⟩
    simp only [bitchars, List.all_map, List.all_eq_true, Function.comp]
    intro b _
    cases b <;> decide

/-- A seq already there is not buffered again (R206). -/
theorem bufferFragment_dup {h : Hdr} {s : State} (h1 : 1 ≤ h.s) (h2 : h.s ≤ h.t) (h6 : h.t ≤ 9999)
    (h3 : s.rcv.total = none ∨ s.rcv.total = some h.t) (h4 : h.pay.length ≤ s.packetDataLen)
    (h5 : bufLookup h.s s.rcv.buf ≠ none) : bufferFragment h s = .done s := by
  obtain ⟨q, hq⟩ := Option.ne_none_iff_exists'.mp h5
  have a1 : ¬ (h.s < 1 ∨ h.s > h.t ∨ h.t > 9999) := by omega
  have a2 : ¬ (s.rcv.total ≠ none ∧ s.rcv.total ≠ some h.t) := by tauto
  have a3 : ¬ h.pay.length > s.packetDataLen := by omega
  simp only [bufferFragment, bufAdd, if_neg a1, if_neg a2, if_neg a3, hq]

/-- A new fragment within the checks is buffered (R206). -/
theorem bufferFragment_new {h : Hdr} {s : State} (h1 : 1 ≤ h.s) (h2 : h.s ≤ h.t) (h6 : h.t ≤ 9999)
    (h3 : s.rcv.total = none ∨ s.rcv.total = some h.t) (h4 : h.pay.length ≤ s.packetDataLen)
    (h5 : bufLookup h.s s.rcv.buf = none) : bufferFragment h s = .done
      { s with rcv := { s.rcv with buf := bufInsert h.s h.pay s.rcv.buf, total := some h.t } } := by
  have a1 : ¬ (h.s < 1 ∨ h.s > h.t ∨ h.t > 9999) := by omega
  have a2 : ¬ (s.rcv.total ≠ none ∧ s.rcv.total ≠ some h.t) := by tauto
  have a3 : ¬ h.pay.length > s.packetDataLen := by omega
  simp only [bufferFragment, bufAdd, if_neg a1, if_neg a2, if_neg a3, h5]

/-- The retry ceiling (R248). -/
theorem retransmit_at_ceiling {why : Why} {s : State} (h1 : 0 < s.cfg.retry.toNat)
    (h2 : s.cfg.retry.toNat ≤ s.snd.retryCnt) : retransmit why s = .raise why.raise s := by
  simp [retransmit, h1]; omega

end Sys2Proof.Machine
end

