-- ==== Sys2Proof/Laws/PerInstr.lean ====
section
/-! SUPPORT. Sys2Proof/Laws/PerInstr.lean: a law of every instruction as syntax, one lemma per constructor. -/

/-- An instruction travels on the line of its row's format: the commands and the illegal words are words written to CMD
(R82), no other instruction is (R94, R450). -/
def Sys2Proof.Laws.CommandLine.Statement (i : Sys2Proof.Instr) : Prop :=
  i.isCommand = true ↔ ∃ w, Sys2Proof.encode i = .cmdWrite w

namespace Sys2Proof.Laws.CommandLine

theorem b2bits : Statement .b2bits := ⟨fun _ => ⟨_, rfl⟩, fun _ => rfl⟩
theorem bits2b : Statement .bits2b := ⟨fun _ => ⟨_, rfl⟩, fun _ => rfl⟩
theorem ckgen : Statement .ckgen := ⟨fun _ => ⟨_, rfl⟩, fun _ => rfl⟩
theorem ckver : Statement .ckver := ⟨fun _ => ⟨_, rfl⟩, fun _ => rfl⟩
theorem pargen : Statement .pargen := ⟨fun _ => ⟨_, rfl⟩, fun _ => rfl⟩
theorem parver : Statement .parver := ⟨fun _ => ⟨_, rfl⟩, fun _ => rfl⟩
theorem injflip : Statement .injflip := ⟨fun _ => ⟨_, rfl⟩, fun _ => rfl⟩
theorem injburst : Statement .injburst := ⟨fun _ => ⟨_, rfl⟩, fun _ => rfl⟩
theorem injpkt : Statement .injpkt := ⟨fun _ => ⟨_, rfl⟩, fun _ => rfl⟩
theorem hdrenc (f : Format) : Statement (.hdrenc f) := ⟨fun _ => ⟨_, rfl⟩, fun _ => rfl⟩
theorem hdrdec (f : Format) : Statement (.hdrdec f) := ⟨fun _ => ⟨_, rfl⟩, fun _ => rfl⟩
theorem frag : Statement .frag := ⟨fun _ => ⟨_, rfl⟩, fun _ => rfl⟩
theorem rbclr : Statement .rbclr := ⟨fun _ => ⟨_, rfl⟩, fun _ => rfl⟩
theorem rbadd : Statement .rbadd := ⟨fun _ => ⟨_, rfl⟩, fun _ => rfl⟩
theorem openSession (v : Version) : Statement (.openSession v) := ⟨fun _ => ⟨_, rfl⟩, fun _ => rfl⟩
theorem send : Statement .send := ⟨fun _ => ⟨_, rfl⟩, fun _ => rfl⟩
theorem recv : Statement .recv := ⟨fun _ => ⟨_, rfl⟩, fun _ => rfl⟩
theorem finish : Statement .finish := ⟨fun _ => ⟨_, rfl⟩, fun _ => rfl⟩
theorem rx (p : ByteStr) : Statement (.rx p) := by simp [Statement, Instr.isCommand, encode]
theorem timeout : Statement .timeout := by simp [Statement, Instr.isCommand, encode]
theorem chanClose : Statement .chanClose := by simp [Statement, Instr.isCommand, encode]
theorem reset : Statement .reset := by simp [Statement, Instr.isCommand, encode]
theorem illegal (w : BitVec 32) : Statement (.illegal w) := ⟨fun _ => ⟨_, rfl⟩, fun _ => rfl⟩

end Sys2Proof.Laws.CommandLine
end

