-- ==== Sys2Proof/Tests/Slice0.lean ====
section
/-! SUPPORT. Sys2Proof/Tests/Slice0.lean: the WellFormed smoke tests, words written out from the spec's encodings, one-step
vectors of spec/95_test_vectors.md with the values it gives (each test names its vectors), and for every statement with
hypotheses a state that meets them. -/

namespace Sys2Proof.Tests

open Sys2Proof.Machine

/-! ## Helpers -/

/-- A text's bytes. -/
def txt (cs : String) : ByteStr := ascii cs.toList

/-- A packet: its header's text, NL, its payload's text (95_test_vectors.md, Notation). -/
def pkt (h pay : String) : ByteStr := txt h ++ nl :: txt pay

/-- A bit sequence written with the characters `0` and `1`. -/
def bits (cs : String) : BitStr := cs.toList.map fun ch => ch == '1'

/-- The state after reset of a core with PACKET_DATA_LEN `len`. -/
def fresh (len : Nat) : State := { State.reset with params := ⟨Fin.ofNat 16384 (len - 1), .fit⟩ }

/-- `A`, `V` and ARG0 to ARG3 written by the host. -/
def withPorts (s : State) (a : ByteStr) (v : BitStr) (a0 a1 a2 a3 : BitVec 16) : State :=
  { s with ports := ⟨a, v, a0, a1, a2, a3⟩ }

/-- The draw source's next answers. -/
def drawing (s : State) (script : List Nat) : State := s.setDraws ⟨script, 0⟩

/-- The state an instruction goes to; the state itself where it stops. -/
def after (i : Instr) (s : State) : State :=
  match exec i s with
  | .next t => t
  | .fault _ => s
  | .refused _ => s

/-- Whether a step answers a next state. -/
def goesOn (i : Instr) (s : State) : Bool :=
  match exec i s with
  | .next _ => true
  | .fault _ => false
  | .refused _ => false

/-- An open session of a version, with CFG_RETRY. -/
def session (v : Version) (retry : BitVec 16) : State :=
  after (.openSession v) (withPorts (fresh 4) [] [] 0 0 0 retry)

/-- A sender waiting for the reply to the first of two fragments. -/
def waitingSender (v : Version) (retry : BitVec 16) : State :=
  after .send { session v retry with ports := ⟨txt "Hello", [], 0, 0, 0, 0⟩ }

/-- A receiver waiting for a packet. -/
def waitingReceiver (v : Version) : State := after .recv (session v 0)

/-! ## WellFormed refuses what it should -/

theorem test_wf_refuses_a_command_word_as_illegal : (Instr.illegal 0x00000010).wf = false := by decide

theorem test_wf_takes_a_reserved_word_as_illegal : (Instr.illegal 0x00001000).wf = true := by decide

theorem test_wf_refuses_an_overlong_packet (p : ByteStr) (h : p.length = Config.maxLen + 1) : (Instr.rx p).wf = false := by
  simp [Instr.wf, h]

theorem test_wf_takes_the_longest_packet : (Instr.rx (List.replicate Config.maxLen 0)).wf = true := by simp [Instr.wf]

/-! ## Words written out from 30_encoding.md's map -/

theorem test_decode_datapath_words :
    [0x00000001, 0x00000002, 0x00000010, 0x00000011, 0x00000018, 0x00000019, 0x00000020, 0x00000021, 0x00000022,
      0x00000032, 0x00000033, 0x00000034].map (decodeTableWord 32) =
    [some .b2bits, some .bits2b, some .ckgen, some .ckver, some .pargen, some .parver, some .injflip, some .injburst,
      some .injpkt, some .frag, some .rbclr, some .rbadd] := by decide

theorem test_decode_header_words :
    [0x00000030, 0x00000130, 0x00000230, 0x00000330, 0x00000430, 0x00000530].map (decodeTableWord 32) =
      [some (.hdrenc .plain), some (.hdrenc .c), some (.hdrenc .cN), some (.hdrenc .ec), some (.hdrenc .ecN),
        some (.hdrenc .n)] ∧
    [0x00000031, 0x00000131, 0x00000231, 0x00000331, 0x00000431, 0x00000531].map (decodeTableWord 32) =
      [some (.hdrdec .plain), some (.hdrdec .c), some (.hdrdec .cN), some (.hdrdec .ec), some (.hdrdec .ecN),
        some (.hdrdec .n)] := by decide

theorem test_decode_session_words :
    [0x00000040, 0x00000140, 0x00000240, 0x00000340, 0x00000440, 0x00000041, 0x00000042, 0x00000043].map
      (decodeTableWord 32) =
    [some (.openSession .v10), some (.openSession .v20), some (.openSession .v21), some (.openSession .v22),
      some (.openSession .v30), some .send, some .recv, some .finish] := by decide

/-- 95_test_vectors.md DE4 to DE8 and DE10 to DE13. -/
theorem test_decode_illegal_words :
    [0x00000100, 0x00001010, 0x00000110, 0x00000540, 0x00000630, 0x00000003, 0x000000FF, 0x80000041,
      0x00001000].map (fun w => (decodeWord w, illegalSubcode w)) =
    [(.illegal 0x00000100, some 2), (.illegal 0x00001010, some 1), (.illegal 0x00000110, some 3),
      (.illegal 0x00000540, some 3), (.illegal 0x00000630, some 3), (.illegal 0x00000003, some 2),
      (.illegal 0x000000FF, some 2), (.illegal 0x80000041, some 1), (.illegal 0x00001000, some 1)] := by decide

theorem test_decode_events :
    decode (.event 0x01 [0x41]) = .ok (.rx [0x41]) ∧ decode (.event 0x02 []) = .ok .timeout ∧
    decode (.event 0x03 []) = .ok .chanClose ∧ decode (.event 0x04 []) = .error (.unknownEvent 0x04) ∧
    decode (.event 0x02 [0x41]) = .error (.eventWithData 0x02) ∧ decode .resetLine = .ok .reset := by decide

/-! ## Vectors of 95_test_vectors.md, one step each -/

/-- BC4. -/
theorem test_b2bits : (after .b2bits (withPorts (fresh 16) [0x00, 0xFF] [] 0 0 0 0)).res.rv = bits "0000000011111111" := by
  decide +kernel

/-- BC7. -/
theorem test_bits2b :
    (after .bits2b (withPorts (fresh 16) [] (bits "0100000101000011") 0 0 0 0)).res.r = [0x41, 0x43] := by decide +kernel

/-- BC9: STATUS is OPERAND_ERROR with FAULT_SEEN. -/
theorem test_bits2b_length :
    let t := after .bits2b (withPorts (fresh 16) [] (bits "0100000") 0 0 0 0)
    t.statusWord = 0x00000215 ∧ t.errInfo = 1 := by decide +kernel

/-- CK8. -/
theorem test_ckgen_folds_the_carry :
    let t := after .ckgen (withPorts (fresh 16) [0xFE, 0x02] [] 0 0 0 0)
    t.res.rs0 = 0xFE ∧ t.res.rv = bits "11111110" := by decide +kernel

/-- CK9. -/
theorem test_ckgen_text : (after .ckgen (withPorts (fresh 16) (txt "Hello, World!") [] 0 0 0 0)).res.rs0 = 0x92 := by
  decide +kernel

/-- CV11 and CV3. -/
theorem test_ckver :
    (after .ckver (withPorts (fresh 16) [0xFF, 0x41] (bits "10111110") 0 0 0 0)).res.rflag = true ∧
    (after .ckver (withPorts (fresh 16) [0x00] (bits "00000000") 0 0 0 0)).res.rflag = false := by decide +kernel

/-- PG5. -/
theorem test_pargen :
    (after .pargen (withPorts (fresh 16) (txt "Hello, World!") [] 0 0 0 0)).res.rv = bits "000001110001000101101" := by
  decide +kernel

/-- PV2. -/
theorem test_parver_corrects :
    let t := after .parver (withPorts (fresh 16) [0x01, 0x42] (bits "0000000011") 0 0 0 0)
    t.res.r = [0x41, 0x42] ∧ t.res.rflag = true ∧ t.res.rs0 = 1 ∧ t.res.rs1 = 0 ∧ t.res.rs2 = 1 := by decide +kernel

/-- PV10: two bits of one column. -/
theorem test_parver_rejects :
    let t := after .parver (withPorts (fresh 16) [0xC1, 0xC2] (bits "0000000011") 0 0 0 0)
    t.res.r = [] ∧ t.res.rflag = false ∧ t.res.rs0 = 2 := by decide +kernel

/-- IN1. -/
theorem test_injflip : (after .injflip (drawing (withPorts (fresh 16) [0x41, 0x42] [] 1 0 0 0) [1])).res.r = [0x01, 0x42] := by
  decide +kernel

/-- IN5. -/
theorem test_injflip_range : (after .injflip (withPorts (fresh 16) [0x00] [] 9 0 0 0)).statusWord = 0x00000216 := by
  decide +kernel

/-- IN9 and IN10. -/
theorem test_injburst :
    (after .injburst (drawing (withPorts (fresh 16) [0x00, 0x00] [] 12 0 0 0) [3])).res.r = [0x1F, 0xFE] ∧
    (after .injburst (drawing (withPorts (fresh 16) [0x0F] [] 20 0 0 0) [0])).res.r = [0xF0] := by decide +kernel

/-- IN12. -/
theorem test_injpkt_flips_the_payload :
    let h := "HEADER S:0001 T:0001 F:00 C:10010010"
    let t := after .injpkt (drawing (withPorts (fresh 16) (pkt h "Hello, World!") [] 1 10000 0 0) [7])
    t.res.r = pkt h "Iello, World!" ∧ t.res.rflag = true := by decide +kernel

/-- IN19. -/
theorem test_injpkt_bursts_the_payload :
    let h := "HEADER S:0001 T:0001 F:00"
    (after .injpkt (drawing (withPorts (fresh 16) (pkt h "x") [] 5 10000 8 0) [0])).res.r = txt h ++ [nl, 0x87] := by
  decide +kernel

/-- HE3. -/
theorem test_hdrenc :
    (after (.hdrenc .cN) (withPorts (fresh 16) (txt "ACK") (bits "00110000") 3 5 0 1)).res.r =
      pkt "HEADER S:0003 T:0005 F:00 C:00110000 N:1" "ACK" := by decide +kernel

/-- HE13. -/
theorem test_hdrenc_checks_n :
    (after (.hdrenc .cN) (withPorts (fresh 16) (txt "x") (bits "10000111") 1 1 0 2)).errInfo = 8 := by decide +kernel

/-- HD2. -/
theorem test_hdrdec :
    let t := after (.hdrdec .ecN)
      (withPorts (fresh 16) (pkt "HEADER S:0001 T:0001 F:00 EC:0000000011 N:1" "AB") [] 0 0 0 0)
    t.res.rs3 = 1 ∧ t.res.rv = bits "0000000011" ∧ t.res.r = txt "AB" := by decide +kernel

/-- HF5: an uppercase hexadecimal digit. -/
theorem test_hdrdec_lowercase :
    let t := after (.hdrdec .c) (withPorts (fresh 16) (pkt "HEADER S:0001 T:0001 F:0A C:10010010" "x") [] 0 0 0 0)
    t.statusWord = 0x00000201 ∧ t.errInfo = 5 := by decide +kernel

/-- FR4. -/
theorem test_frag :
    (after .frag (withPorts (fresh 7) (txt "Hello, World!") [] 0 0 0 0)).res.rl = [txt "Hello, ", txt "World!"] := by
  decide +kernel

/-- RB10 and RB13's clear. -/
theorem test_rbadd_rbclr :
    let s := after .rbadd (withPorts (fresh 7) (txt "World!") [] 2 2 0 0)
    let t := after .rbadd { s with ports := ⟨txt "Hello, ", [], 1, 2, 0, 0⟩ }
    t.res.rflag = true ∧ t.res.rs0 = 2 ∧ t.res.r = txt "Hello, World!" ∧ (after .rbclr s).rcv.buf = [] := by decide +kernel

/-- SV24. -/
theorem test_open_checks_the_probability :
    let t := after (.openSession .v20) (withPorts (fresh 16) [] [] 0 10001 0 0)
    t.statusWord = 0x00000214 ∧ t.errInfo = 1 := by decide +kernel

/-- SV23. -/
theorem test_open_twice : (after (.openSession .v20) (session .v20 0)).statusWord = 0x00000A13 := by decide +kernel

/-- SV1's prefix and P2b: the first packet of a version 2.2 SEND; all of a version 1.0 SEND. -/
theorem test_send :
    (after .send { session .v22 0 with ports := ⟨txt "Hi", [], 0, 0, 0, 0⟩ }).env.tx =
      [pkt "HEADER S:0001 T:0001 F:00 C:01001110 N:0" "Hi"] ∧
    (waitingSender .v10 0).env.tx = [pkt "HEADER S:0001 T:0002 F:00" "Hell", pkt "HEADER S:0002 T:0002 F:00" "o"] := by
  decide +kernel

/-- P2: STATUS of a RECV's wait. -/
theorem test_recv : (waitingReceiver .v10).statusWord = 0x000A0900 := by decide +kernel

/-- SV22 and SV19. -/
theorem test_session_commands_need_a_session :
    (after .send (fresh 16)).statusWord = 0x00000212 ∧
    (after .finish (after .chanClose (session .v21 0))).statusWord = 0x00007204 := by decide +kernel

/-- The FIN packet of version 2.0 (R246). -/
theorem test_finish :
    let t := after .finish (session .v20 0)
    t.env.tx = [pkt "HEADER S:0000 T:0000 F:02 C:11111111" ""] ∧ t.statusWord = 0x00003000 := by decide +kernel

/-- SV1 and SV2: a stale ACK, then the right one. -/
theorem test_rx_sender :
    let s := after .send { session .v22 0 with ports := ⟨txt "Hi", [], 0, 0, 0, 0⟩ }
    let t := after (.rx (pkt "HEADER S:0001 T:0001 F:00 C:00110000 N:1" "ACK")) s
    let u := after (.rx (pkt "HEADER S:0001 T:0001 F:00 C:00110000 N:0" "ACK")) t
    t.statusWord = 0x00050900 ∧ t.snd.retryCnt = 1 ∧ t.env.tx.length = 2 ∧ u.statusWord = 0x00100800 := by decide +kernel

/-- SV5: the prior ACK. -/
theorem test_rx_receiver :
    let t := after (.rx (pkt "HEADER S:0001 T:0001 F:00 C:00000000 N:0" "Hi")) (waitingReceiver .v30)
    t.env.tx = [pkt "HEADER S:0001 T:0001 F:01 C:00110000 N:1" "ACK"] ∧ t.statusWord = 0x000A0900 := by decide +kernel

/-- SV15. -/
theorem test_timeout :
    let s := after .send { session .v30 2 with ports := ⟨txt "Hi", [], 0, 0, 0, 0⟩ }
    let t := after .timeout (after .timeout (after .timeout s))
    t.statusWord = 0x00009205 ∧ t.snd.retryCnt = 2 ∧ t.env.tx.length = 3 := by decide +kernel

/-- SV18. -/
theorem test_chan_close : (after .chanClose (session .v21 0)).statusWord = 0x00007000 := by decide +kernel

/-- R450. -/
theorem test_reset : (after .reset (waitingSender .v30 3)).statusWord = 0 ∧ (after .reset (waitingSender .v30 3)).snd.frags = [] := by
  decide +kernel

/-- DE6. -/
theorem test_illegal :
    let t := after (.illegal 0x00000110) (fresh 16)
    t.statusWord = 0x00000210 ∧ t.errInfo = 3 := by decide +kernel

/-- A table row's bits run as the first instruction after reset. -/
theorem test_with_fetch_word :
    fetch (State.reset.withFetchWord 32 0x00000010) = .run .ckgen { State.reset with cmd := 0x00000010 } := rfl

/-! ## A state that meets each statement's hypotheses, one for each clause -/

/-- An ACK as a version's receiver replies it, with its N where the format has one (R245). -/
def ackPacket (v : Version) (n : Bool) : ByteStr :=
  match v with
  | .v10 => []
  | .v20 => pkt "HEADER S:0001 T:0002 F:01 C:11111111" ""
  | .v21 | .v22 => header .cN 1 2 0x00 (bits "00110000") n ++ nl :: txt "ACK"
  | .v30 => header .cN 1 2 0x01 (bits "00110000") n ++ nl :: txt "ACK"

/-- A fragment's packet as a version's sender builds it (R244). -/
def dataOf (v : Version) (s t : Nat) (n : Bool) (pay : ByteStr) : ByteStr :=
  header v.format s t 0x00 (bytesToBits [checksum pay]) n ++ nl :: pay

/-- Whether a packet parses, to a record with a property. -/
def parses (f : Format) (p : ByteStr) (holds : Hdr → Bool) : Bool :=
  match parse f p with
  | .ok h => holds h
  | .error _ => false

theorem test_witness_decode_of_encode :
    Instr.wf .ckgen = true ∧ Instr.wf (.rx []) = true ∧ Instr.wf (.illegal 0xFFFFFFFF) = true ∧
      Instr.wf (.hdrenc .n) = true := by decide

theorem test_witness_illegal_words :
    (fresh 16).status.op = .none ∧ 0x00001010 / 4096 ≠ 0 ∧ (0x00000044 / 4096 = 0 ∧ 0x00000044 % 256 = 0x44) ∧
      (0x00000540 % 256 = 0x40 ∧ 4 < 0x00000540 / 256 % 16) ∧ (0x00000631 % 256 = 0x31 ∧ 5 < 0x00000631 / 256 % 16) ∧
      (0x00000110 % 256 = 0x10 ∧ 0x00000110 / 256 % 16 ≠ 0) ∧ (0x00000440 / 256 % 16 = 4 ∧ 0x00000530 / 256 % 16 = 5) := by
  decide

theorem test_witness_step_runs :
    let s := (fresh 16).setPending [.event 0x01 [], .cmdWrite 0x00000010, .resetLine]
    s.env.pending = [.event 0x01 []] ++ .cmdWrite 0x00000010 :: [.resetLine] ∧
      (∀ x ∈ [Input.event 0x01 []], inputEnabled s x = false) ∧ inputEnabled s (.cmdWrite 0x00000010) = true ∧
      decode (.cmdWrite 0x00000010) = .ok .ckgen ∧ Instr.wf .ckgen = true := by decide +kernel

theorem test_witness_step_without_instruction :
    (List.replicate Config.maxLen (0 : Byte)).length ≤ Config.maxLen ∧
      (List.replicate (8 * Config.maxLen) true).length ≤ 8 * Config.maxLen ∧
      ((fresh 16).setPending [.writeA [0x41]]).env.pending = .writeA [0x41] :: [] ∧
      ((fresh 16).setPending [.writeV [true]]).env.pending = .writeV [true] :: [] ∧
      ((fresh 16).setPending [.writeArg .arg2 7]).env.pending = .writeArg .arg2 7 :: [] ∧
      ∀ x ∈ [Input.event 0x02 [], .event 0x00 []], inputEnabled (fresh 16) x = false := by
  refine ⟨by simp, by simp, rfl, rfl, rfl, by decide +kernel⟩

theorem test_witness_events_are_enabled :
    (0x00 : BitVec 8) ≠ 0x01 ∧ (0x00 : BitVec 8) ≠ 0x02 ∧ (0x04 : BitVec 8) ≠ 0x03 ∧
      inputEnabled (waitingReceiver .v10) (.event 0x01 []) = true ∧
      inputEnabled (waitingReceiver .v20) (.event 0x02 []) = false ∧
      inputEnabled (waitingSender .v30 0) (.event 0x02 []) = true := by decide +kernel

/-- A sender's wait meets the invariant. -/
theorem test_witness_inv_sender : CoreInv (waitingSender .v20 3) where
  report := by decide +kernel
  seen := by decide +kernel
  cause := by decide +kernel
  sending := fun _ => ⟨by decide +kernel, by decide +kernel, by decide +kernel, txt "Hell", by decide +kernel, by decide +kernel⟩
  sndIdle := by decide +kernel
  receiving := by decide +kernel
  rcvIdle := by decide +kernel
  prob := by decide +kernel
  retries := by decide +kernel
  total := by decide +kernel
  frags := by decide +kernel
  bufWf := by decide +kernel
  rcvTotal := by intro t ht; revert ht; rw [show (waitingSender .v20 3).rcv.total = none by decide +kernel]; simp
  buffered := by intro e he; revert he; rw [show (waitingSender .v20 3).rcv.buf = [] by decide +kernel]; simp
  ports := by decide +kernel
  results := by decide +kernel

theorem test_witness_every_step_keeps_inv :
    CoreInv (waitingSender .v20 3) ∧ ∃ t, step (waitingSender .v20 3) = .next t :=
  ⟨test_witness_inv_sender, _, rfl⟩

theorem test_witness_busy : Instr.isCommand .ckgen = true ∧ (waitingSender .v20 3).status.op ≠ .none := by decide +kernel

theorem test_witness_reset : ∃ t, exec .reset (waitingSender .v20 3) = .next t := ⟨_, rfl⟩

theorem test_witness_sticky :
    (∃ t, exec .ckgen (waitingSender .v20 3) = .next t ∧ (waitingSender .v20 3).status.overrun = false ∧
      t.status.overrun = true) ∧
    (∃ t, exec .send (fresh 4) = .next t ∧ t.status.err ≠ .ok) ∧
    ∃ t, exec .ckgen (after .ckgen (waitingSender .v20 3)) = .next t ∧
      (after .ckgen (waitingSender .v20 3)).status.faultSeen = true ∧
      (after .ckgen (waitingSender .v20 3)).status.overrun = true :=
  ⟨⟨_, rfl, by decide +kernel⟩, ⟨_, rfl, by decide +kernel⟩, _, rfl, by decide +kernel⟩

theorem test_witness_configuration :
    (∃ t, exec .ckgen (fresh 4) = .next t) ∧ ∃ t, exec (.openSession .v21) (fresh 4) = .next t := ⟨⟨_, rfl⟩, _, rfl⟩

theorem test_witness_errors :
    ∃ t, exec .bits2b (withPorts (fresh 4) [] [true] 0 0 0 0) = .next t ∧ t.status.err ≠ .ok := ⟨_, rfl, by decide +kernel⟩

theorem test_witness_named_results :
    (∃ t, exec .ckver (withPorts (fresh 4) [] (bits "11111111") 0 0 0 0) = .next t) ∧ .rs0 ∉ Instr.writes .ckver ∧
      .rflag ∉ Instr.writes .b2bits ∧ .rl ∉ Instr.writes .parver :=
  ⟨⟨_, rfl⟩, by decide⟩

theorem test_witness_datapath :
    (∃ t, exec .rbadd (withPorts (fresh 4) [0x41] [] 1 2 0 0) = .next t) ∧ Instr.isDatapath .rbadd = true ∧
      (∃ t, exec .ckgen (waitingSender .v20 3) = .next t) ∧ Instr.isDatapath .ckgen = true := ⟨⟨_, rfl⟩, rfl, ⟨_, rfl⟩, rfl⟩

theorem test_witness_emissions :
    CoreInv (waitingSender .v20 3) ∧ ∃ t, exec (.rx (ackPacket .v20 false)) (waitingSender .v20 3) = .next t ∧
      t.env.tx ≠ (waitingSender .v20 3).env.tx := ⟨test_witness_inv_sender, _, rfl, by decide +kernel⟩

theorem test_witness_events :
    Instr.isCommand .timeout = false ∧ ∃ t, exec .timeout (waitingSender .v30 0) = .next t := ⟨rfl, _, rfl⟩

theorem test_witness_sender_emits :
    (waitingSender .v30 0).status.op = .send ∧ (waitingSender .v30 0).status.sndState = .waitForReply ∧
      (∃ t, exec .timeout (waitingSender .v30 0) = .next t) ∧
      ∃ t, exec (.rx (ackPacket .v30 false)) (waitingSender .v30 0) = .next t :=
  ⟨by decide +kernel, by decide +kernel, ⟨_, rfl⟩, _, rfl⟩

/-- A session whose noise stage always flips `n` bits. -/
def noisySession (v : Version) (n : BitVec 16) (script : List Nat) : State :=
  drawing
    (after (.openSession v) { withPorts (fresh 4) (txt "Hello") [] n 10000 0 0 with env := ⟨[], [], ⟨[], 0⟩⟩ }) script

theorem test_witness_noise :
    ∃ t, exec .send (noisySession .v20 1 [3]) = .next t ∧ t.status.op ≠ .none ∧
      t.env.tx ≠ (after .send { noisySession .v20 1 [3] with cfg := ⟨.v20, 1, 0, 0, 0⟩ }).env.tx :=
  ⟨_, rfl, by decide +kernel⟩

theorem test_witness_operand_writes :
    (∃ t, exec .chanClose (waitingSender .v30 0) = .next t) ∧ (∃ t, exec .timeout (waitingSender .v30 0) = .next t) ∧
      ∃ t, exec (.rx (ackPacket .v30 false)) (waitingSender .v30 0) = .next t := ⟨⟨_, rfl⟩, ⟨_, rfl⟩, _, rfl⟩

/-- A command can be issued right after reset: BUSY is 0. -/
theorem test_witness_not_busy : (fresh 16).status.op = .none := by decide

theorem test_witness_bits2b :
    (withPorts (fresh 4) [] (bits "0100000") 0 0 0 0).ports.v.length % 8 ≠ 0 ∧
      (withPorts (fresh 4) [] (bits "01000001") 0 0 0 0).ports.v.length % 8 = 0 := by decide +kernel

theorem test_witness_bit_codec :
    (∃ t, exec .b2bits (withPorts (fresh 4) [0x41] [] 0 0 0 0) = .next t) ∧
      ∃ t, exec .bits2b (withPorts (fresh 4) [] (bits "01000001") 0 0 0 0) = .next t := ⟨⟨_, rfl⟩, _, rfl⟩

theorem test_witness_ckver :
    (withPorts (fresh 4) [] (bits "0100111") 0 0 0 0).ports.v.length ≠ 8 ∧
      (withPorts (fresh 4) [] (bits "01001110") 0 0 0 0).ports.v.length = 8 := by decide +kernel

/-- Bit 15, the last of two bytes, and bit 7 of the checksum. -/
theorem test_witness_single_bit_error :
    (∃ t, exec .ckgen (withPorts (fresh 4) [0x41, 0x42] [] 0 0 0 0) = .next t) ∧
      15 < 8 * (withPorts (fresh 4) [0x41, 0x42] [] 0 0 0 0).ports.a.length ∧
      bytesToBits [0x41, 0x43] = (bytesToBits [0x41, 0x42]).modify 15 (!·) ∧ 7 < 8 := ⟨⟨_, rfl⟩, by decide +kernel⟩

/-- PV1, PV2 and PV6: clean, one row and one column, one row alone; PV11: the wrong length. -/
theorem test_witness_parver :
    let rows (a : ByteStr) (v : BitStr) := (List.range a.length).filter fun i =>
      decide (((List.range 8).countP fun j => (a.getD i 0).getLsbD j) % 2 = 1) != v.getD i false
    let cols (a : ByteStr) (v : BitStr) := (List.range 8).filter fun j =>
      decide ((a.countP fun x => x.getLsbD (7 - j)) % 2 = 1) != v.getD (a.length + j) false
    rows [0x41, 0x42] (bits "0000000011") = [] ∧ cols [0x41, 0x42] (bits "0000000011") = [] ∧
    rows [0x01, 0x42] (bits "0000000011") = [0] ∧ cols [0x01, 0x42] (bits "0000000011") = [1] ∧
    rows [0x41, 0x42] (bits "1000000011") = [0] ∧ cols [0x41, 0x42] (bits "1000000011") = [] ∧
    (bits "0000000011").length = 2 + 8 ∧ (bits "000000001").length ≠ 2 + 8 := by decide +kernel

/-- PV2 and PV3. -/
theorem test_witness_parver_flips :
    (∃ t, exec .pargen (withPorts (fresh 4) [0x41, 0x42] [] 0 0 0 0) = .next t) ∧
      bytesToBits [0x01, 0x42] = (bytesToBits [0x41, 0x42]).modify 1 (!·) ∧
      bytesToBits [0x01, 0x43] = ((bytesToBits [0x41, 0x42]).modify 1 (!·)).modify 15 (!·) ∧ 15 < 8 * 2 :=
  ⟨⟨_, rfl⟩, by decide +kernel⟩

/-- 8 bits of one byte, and 9. -/
theorem test_witness_injflip :
    (withPorts (fresh 4) [0x00] [] 8 0 0 0).ports.arg0.toNat ≤ 8 * [(0x00 : Byte)].length ∧
      8 * [(0x00 : Byte)].length < (withPorts (fresh 4) [0x00] [] 9 0 0 0).ports.arg0.toNat := by decide

theorem test_witness_injburst :
    (withPorts (fresh 4) [] [] 1 0 0 0).ports.a = [] ∧ (withPorts (fresh 4) [0x41] [] 0 0 0 0).ports.arg0 = 0 ∧
      (withPorts (fresh 4) [0x41] [] 20 0 0 0).ports.arg0 ≠ 0 ∧ (withPorts (fresh 4) [0x41] [] 20 0 0 0).ports.a ≠ [] := by
  decide

/-- ARG1 at 10000 and 10001; a packet of 8 payload bits with ARG0 at 8 and 9. -/
theorem test_witness_injpkt :
    10000 < (withPorts (fresh 4) [] [] 0 10001 0 0).ports.arg1.toNat ∧
      (withPorts (fresh 4) [0x41] [] 0 10000 0 0).ports.arg1.toNat ≤ 10000 ∧ nl ∉ [(0x41 : Byte)] ∧
      nl ∉ txt "HEADER S:0001 T:0001 F:00" ∧
      (withPorts (fresh 4) (pkt "HEADER S:0001 T:0001 F:00" "x") [] 8 10000 0 0).ports.a =
        txt "HEADER S:0001 T:0001 F:00" ++ nl :: txt "x" ∧
      (8 : BitVec 16).toNat ≤ 8 * (txt "x").length ∧ 8 * (txt "x").length < (9 : BitVec 16).toNat := by decide +kernel

theorem test_witness_draws :
    [0, 15].Nodup ∧ (∀ k ∈ [0, 15], k < 8 * (withPorts (fresh 4) [0x41, 0x42] [] 2 5000 1 0).ports.a.length) ∧
      [0, 15].length = (withPorts (fresh 4) [0x41, 0x42] [] 2 5000 1 0).ports.arg0.toNat ∧
      (withPorts (fresh 4) [0x41, 0x42] [] 2 5000 1 0).params.burstMode = .fit ∧ 14 ≤ 8 * [(0x41 : Byte), 0x42].length - 2 ∧
      nl ∈ pkt "HEADER S:0001 T:0001 F:00" "x" ∧ (0 < (5000 : BitVec 16).toNat ∧ (5000 : BitVec 16).toNat < 10000) := by
  decide +kernel

/-- The widest values, in the format with every kind of field that can go together; the empty payload. -/
theorem test_witness_records :
    Hdr.legal .ecN ⟨9999, 9999, 0xFF, [true], true, []⟩ = true ∧ Hdr.legal .plain ⟨0, 0, 0, [], false, [nl]⟩ = true ∧
      parse .plain (pkt "HEADER S:0000 T:0000 F:02" "") = .ok ⟨0, 0, 0x02, [], false, []⟩ := by decide +kernel

/-- Each field at its bound. -/
theorem test_witness_hdrenc :
    let ok := (withPorts (fresh 4) (txt "x") (bits "10000111") 9999 9999 255 1).ports
    hdrencCheck .cN ok = none ∧ hdrencCheck .cN { ok with arg0 := 10000 } = some 3 ∧
      hdrencCheck .cN { ok with arg1 := 10000 } = some 4 ∧ hdrencCheck .cN { ok with arg2 := 256 } = some 5 ∧
      hdrencCheck .cN { ok with v := bits "1000011" } = some 6 ∧ hdrencCheck .ecN { ok with v := [] } = some 7 ∧
      hdrencCheck .cN { ok with arg3 := 2 } = some 8 := by decide +kernel

theorem test_witness_hdrdec :
    pkt "HEADER S:0001 T:0001 F:00 N:1" "" = render .n ⟨1, 1, 0x00, [], true, []⟩ ∧
      Hdr.legal .n ⟨1, 1, 0x00, [], true, []⟩ = true := by decide +kernel

/-- No rendering is empty: the second clause's hypothesis. -/
theorem test_witness_hdrdec_fails (f : Format) (h : Hdr) : h.legal f = true → (fresh 4).ports.a ≠ render f h := by
  intro _ e
  have := congrArg List.length e
  simp [fresh, State.reset, render] at this

/-- For each check of R90 a header that ends where the check begins, or, for the last, one byte too late. -/
theorem test_witness_hdrdec_checks :
    let begin := ascii ['H', 'E', 'A', 'D', 'E', 'R', ' ', 'S', ':']
    let toS (n : Nat) : ByteStr := begin ++ dec4 n
    let toT (n m : Nat) : ByteStr := toS n ++ ascii [' ', 'T', ':'] ++ dec4 m
    let toF (n m : Nat) (fl : Byte) : ByteStr := toT n m ++ ascii [' ', 'F', ':'] ++ hex2 fl
    nl ∉ txt "x" ∧ ¬ begin <+: [] ∧ (∀ n ≤ 9999, ¬ toS n <+: begin) ∧ (∀ m ≤ 9999, ¬ toT 1 m <+: toS 1) ∧
      (∀ fl, ¬ toF 1 1 fl <+: toT 1 1) ∧
      (∀ e : BitStr, e.length = 8 → ¬ toF 1 1 0 ++ (ascii [' ', 'C', ':'] ++ bitchars e) <+: toF 1 1 0) ∧
      (∀ e : BitStr, e ≠ [] → ¬ toF 1 1 0 ++ (ascii [' ', 'E', 'C', ':'] ++ bitchars e) <+: toF 1 1 0) ∧
      (∀ b, ¬ header .n 1 1 0 [] b <+: toF 1 1 0) ∧
      header .n 1 1 0 [] true <+: header .n 1 1 0 [] true ++ [0x30] ∧
      header .n 1 1 0 [] true ++ [0x30] ≠ header .n 1 1 0 [] true ∧
      nl ∉ header .n 1 1 0 [] true ++ [0x30] := by
  intro begin toS toT toF
  have short : ∀ a b : ByteStr, b.length < a.length → ¬ a <+: b := fun a b h p => Nat.not_lt.mpr p.length_le h
  refine ⟨by decide, by decide, fun n _ => short _ _ ?_, fun m _ => short _ _ ?_, fun fl => short _ _ ?_,
    fun e _ => short _ _ ?_, fun e _ => short _ _ ?_, fun b => short _ _ ?_, List.prefix_append .., by decide, by decide⟩
  all_goals simp [begin, toS, toT, toF, header, Format.hasC, Format.hasEC, Format.hasN, dec4, dec1, hex2, ascii, bitchars]

/-- 9999 and 10000 fragments of one byte. -/
theorem test_witness_frag :
    (List.replicate 9999 (0 : Byte)).length ≤ 9999 * (fresh 1).packetDataLen ∧
      9999 * (fresh 1).packetDataLen < (List.replicate 10000 (0 : Byte)).length := by
  rw [List.length_replicate, List.length_replicate]; decide

theorem test_witness_rbadd :
    let s := after .rbadd (withPorts (fresh 4) [0x41] [] 1 2 0 0)
    s.status.op = .none ∧ bufWf s.rcv.buf ∧ bufLookup 1 s.rcv.buf ≠ none ∧ s.rcv.total = some 2 ∧
      bufLookup 2 s.rcv.buf = none ∧ ¬ (s.rcv.total ≠ none ∧ s.rcv.total ≠ some 2) ∧ s.rcv.total ≠ some 3 := by
  decide +kernel

/-- R206's invariant 1 ≤ seq ≤ total ≤ 9999 at its upper bound: 9999 is buffered, 10000 is SEQ_RANGE. -/
theorem test_rbadd_bounds :
    (after .rbadd (withPorts (fresh 4) [0x41] [] 9999 9999 0 0)).rcv.total = some 9999 ∧
      (after .rbadd (withPorts (fresh 4) [0x41] [] 1 10000 0 0)).errInfo = 10 ∧
      (after .rbadd (withPorts (fresh 4) [0x41] [] 1 10000 0 0)).rcv.buf = [] := by decide +kernel

theorem test_witness_reassembly :
    1 ≤ (txt "Hello").length ∧ (txt "Hello").length ≤ 9999 * 4 ∧ (∀ i ∈ [1, 0, 1], i < (fragment (txt "Hello") 4).length) ∧
      (∀ i < (fragment (txt "Hello") 4).length, i ∈ [1, 0, 1]) ∧ ∀ i ∈ [1, 1], i < (fragment (txt "Hello") 4).length := by
  decide +kernel

theorem test_witness_open :
    (session .v20 0).status.sess = .opened ∧ (session .v20 0).status.op = .none ∧ (fresh 4).status.sess ≠ .opened ∧
      (10000 : BitVec 16).toNat ≤ 10000 ∧ 10000 < (10001 : BitVec 16).toNat := by decide +kernel

theorem test_witness_no_session :
    (fresh 4).status.sess = .none ∧ (fresh 4).status.op = .none ∧
      (after .finish (session .v20 0)).status.sess = .ended ∧ (after .finish (session .v20 0)).status.op = .none := by
  decide +kernel

/-- An open session with a message: idle, empty or not, of every length up to the longest. -/
theorem test_witness_send :
    (session .v20 0).status.op = .none ∧ (session .v20 0).status.sess = .opened ∧ (session .v20 0).cfg.ver ≠ .v10 ∧
      (session .v10 0).cfg.ver = .v10 ∧ (session .v20 0).ports.a = [] ∧ txt "Hello" ≠ [] ∧ (session .v20 0).cfg.prob = 0 ∧
      (session .v20 0).packetDataLen = 4 := by decide +kernel

/-- 33 bits to flip in a fragment of 32. -/
theorem test_witness_noise_range :
    let s := noisySession .v20 33 []
    s.status.op = .none ∧ s.status.sess = .opened ∧ s.cfg.ver ≠ .v10 ∧ s.ports.a ≠ [] ∧
      s.ports.a.length ≤ 9999 * s.packetDataLen ∧ s.cfg.prob = 10000 ∧ s.cfg.burst = 0 ∧
      8 * min s.packetDataLen s.ports.a.length < s.cfg.num.toNat := by decide +kernel

/-- A wait whose noise stage must flip `n` bits. -/
def withNoise (s : State) (n : BitVec 16) : State := { s with cfg := ⟨s.cfg.ver, n, 10000, 0, s.cfg.retry⟩ }

/-- The same for a retransmission: 33 bits of "Hell". The rejected packet is that of `test_witness_sender_retransmits`. -/
theorem test_witness_noise_range_retransmission :
    ∀ v ∈ [Version.v20, .v21, .v22, .v30],
      let s := withNoise (waitingSender v 1) 33
      s.cfg.prob ≠ 0 ∧ s.cfg.burst = 0 ∧ s.status.op = .send ∧ s.status.sndState = .waitForReply ∧
        s.status.sess = .opened ∧ s.snd.retryCnt < s.cfg.retry.toNat ∧
        s.snd.lastPkt = some (dataOf v 1 2 false (txt "Hell")) ∧ 8 * (txt "Hell").length < s.cfg.num.toNat := by
  decide +kernel

/-- For an advance and for a receiver's replies: 33 bits of "o" and of "ACK". The packets are those of
`test_witness_sender_advances` and `test_witness_receivers`. -/
theorem test_witness_noise_range_advance_and_reply :
    ∀ v ∈ [Version.v20, .v21, .v22, .v30],
      let s := withNoise (waitingSender v 1) 33
      let r := withNoise (waitingReceiver v) 33
      s.snd.idx + 1 ≠ s.snd.total ∧ s.snd.frags[s.snd.idx + 1]? = some (txt "o") ∧
        8 * (txt "o").length < s.cfg.num.toNat ∧ r.status.op = .recv ∧ r.status.rcvState = .waitForPacket ∧
        r.status.sess = .opened ∧ r.cfg.prob ≠ 0 ∧ r.cfg.burst = 0 ∧ 24 < r.cfg.num.toNat := by decide +kernel

theorem test_witness_recv_and_finish : (session .v30 0).status.op = .none ∧ (session .v30 0).status.sess = .opened := by
  decide +kernel

/-- In every version with replies: the first of two fragments acknowledged, and the second. -/
theorem test_witness_sender_advances :
    ∀ v ∈ [Version.v20, .v21, .v22, .v30],
      let s := waitingSender v 0
      let t := after (.rx (ackPacket v false)) s
      (s.status.op = .send ∧ s.status.sndState = .waitForReply ∧ s.snd.idx + 1 ≠ s.snd.total ∧
        s.snd.frags[s.snd.idx + 1]? = some (txt "o") ∧ s.cfg.prob = 0 ∧
        (parses s.cfg.ver.format (ackPacket v false) fun h => decide (finFlag h.fl = false ∧ acceptable s h = true))) ∧
      (t.status.op = .send ∧ t.snd.idx + 1 = t.snd.total ∧
        (parses t.cfg.ver.format (ackPacket v true) fun h => decide (finFlag h.fl = false ∧ acceptable t h = true))) := by
  decide +kernel

/-- Below the ceiling, and at it. -/
theorem test_witness_sender_retransmits :
    ∀ v ∈ [Version.v20, .v21, .v22, .v30],
      let p := header v.format 1 2 0x04 (bits "11111111") false ++ [nl]
      let s := waitingSender v 1
      let t := after (.rx p) s
      (parses s.cfg.ver.format p fun h => decide (finFlag h.fl = false ∧ acceptable s h = false ∧ acceptable t h = false)) ∧
      s.status.op = .send ∧ s.status.sess = .opened ∧ s.snd.lastPkt ≠ none ∧ s.snd.retryCnt < s.cfg.retry.toNat ∧
      s.cfg.prob = 0 ∧ t.status.op = .send ∧ 0 < t.cfg.retry.toNat ∧ t.cfg.retry.toNat ≤ t.snd.retryCnt := by
  decide +kernel

/-- For the receiver's statements: a new fragment, then the one that completes the message, a corrupt packet, a duplicate
and a reply, in a version's wait. -/
theorem test_witness_receivers :
    ∀ v ∈ [Version.v10, .v20, .v21, .v22, .v30],
      let s := waitingReceiver v
      let t := after (.rx (dataOf v 1 2 false (txt "Hell"))) s
      (s.status.op = .recv ∧ s.status.rcvState = .waitForPacket ∧ s.cfg.ver = v ∧ s.cfg.prob = 0 ∧ s.rcv.total = none) ∧
      (parses v.format (dataOf v 1 2 false (txt "Hell")) fun h =>
          decide (finFlag h.fl = false ∧ (v = .v10 ∨ h.checks = true) ∧ h.n = s.rcv.bit ∧ 1 ≤ h.s ∧ h.s ≤ h.t ∧
            h.pay.length ≤ s.packetDataLen ∧ bufLookup h.s s.rcv.buf = none ∧ s.rcv.buf.length + 1 ≠ h.t ∧
            bufLookup h.s t.rcv.buf ≠ none ∧ t.rcv.total ≠ some t.rcv.buf.length ∧
            (v = .v21 ∨ v = .v22 ∨ v = .v30 → h.n ≠ t.rcv.bit))) ∧
      (parses v.format (dataOf v 2 2 true (txt "o")) fun h =>
          decide (finFlag h.fl = false ∧ bufLookup h.s t.rcv.buf = none ∧ t.rcv.buf.length + 1 = h.t ∧
            t.rcv.total = some h.t ∧ (v = .v21 ∨ v = .v22 ∨ v = .v30 → h.n = t.rcv.bit))) ∧
      (v ≠ .v10 →
        parses v.format (header v.format 1 2 0x00 (bits "00000000") false ++ nl :: txt "Hell") fun h =>
          decide (finFlag h.fl = false ∧ h.checks = false)) ∧
      (parses v.format (header v.format 1 2 0x05 (bits "11111111") false ++ [nl]) fun h =>
        decide (finFlag h.fl = false ∧ ackFlag h.fl = true ∧ nackFlag h.fl = true)) := by decide +kernel

/-- A valid packet with N = RCV_BIT whose seq is already there, the message not complete and complete. -/
theorem test_witness_receivers_same_seq :
    ∀ v ∈ [Version.v10, .v20, .v21, .v22, .v30],
      let t := after (.rx (dataOf v 1 2 false (txt "Hell"))) (waitingReceiver v)
      let u := { t with rcv := ⟨[(1, txt "Hell"), (2, txt "o")], some 2, true⟩ }
      (parses v.format (dataOf v 1 2 true (txt "Hell")) fun h =>
        decide (finFlag h.fl = false ∧ (v = .v10 ∨ h.checks = true) ∧ 1 ≤ h.s ∧ h.s ≤ h.t ∧
          (v = .v21 ∨ v = .v22 ∨ v = .v30 → h.n = t.rcv.bit ∧ h.n = u.rcv.bit) ∧ h.pay.length ≤ t.packetDataLen ∧
          bufLookup h.s t.rcv.buf ≠ none ∧ bufLookup h.s u.rcv.buf ≠ none ∧ t.rcv.total = some h.t ∧
          u.rcv.total = some h.t)) ∧
      t.status.op = .recv ∧ t.cfg.prob = 0 ∧ t.rcv.total ≠ some t.rcv.buf.length ∧
      u.rcv.total = some u.rcv.buf.length := by decide +kernel

/-- A packet that does not parse, a FIN, and fragments with S = 0, S above T, another total, one byte too many. -/
theorem test_witness_fatal_packets :
    let s := waitingReceiver .v20
    let t := after (.rx (dataOf .v20 1 2 false (txt "Hell"))) s
    s.status.sess = .opened ∧ s.status.op = .recv ∧ s.status.rcvState = .waitForPacket ∧
      parse .c (txt "x") = .error 1 ∧
      parses .c (dataOf .v20 0 1 false (txt "x")) (fun h => decide (h.s < 1 ∧ h.checks = true)) ∧
      parses .c (dataOf .v20 3 2 false (txt "x")) (fun h => decide (h.t < h.s ∧ h.checks = true)) ∧
      (t.rcv.total = some 2 ∧ parses .c (dataOf .v20 1 3 false (txt "x")) fun h => decide (h.t = 3 ∧ h.checks = true)) ∧
      (s.packetDataLen = 4 ∧
        parses .c (dataOf .v20 1 1 false (txt "Hello")) fun h => decide (h.pay.length = 5 ∧ h.checks = true)) ∧
      (parses .c (pkt "HEADER S:0000 T:0000 F:02 C:11111111" "") fun h => finFlag h.fl) ∧
      parses .cN (header .cN 0 1 0x05 (bits "10000111") false ++ nl :: txt "x") fun h =>
        decide (h.s < 1 ∧ h.checks = true ∧ h.n = (waitingReceiver .v21).rcv.bit ∧ ackFlag h.fl = true) := by decide +kernel

/-- A timed receiver, and the version 3.0 sender below and at its ceiling. -/
theorem test_witness_timeout :
    let s := waitingSender .v30 1
    let t := after .timeout s
    (waitingReceiver .v10).status.op = .recv ∧ (waitingReceiver .v10).status.rcvState = .waitForPacket ∧
      s.status.op = .send ∧ s.status.sndState = .waitForReply ∧ s.status.sess = .opened ∧ s.cfg.ver = .v30 ∧
      s.snd.lastPkt ≠ none ∧ s.snd.retryCnt < s.cfg.retry.toNat ∧ s.cfg.prob = 0 ∧
      0 < t.cfg.retry.toNat ∧ t.cfg.retry.toNat ≤ t.snd.retryCnt := by decide +kernel

theorem test_witness_chan_close :
    (fresh 4).status.sess ≠ .opened ∧ (session .v10 0).status.sess = .opened ∧ (session .v10 0).status.op = .none ∧
      (waitingReceiver .v10).status.sess = .opened ∧ (waitingReceiver .v10).status.op ≠ .none := by decide +kernel

end Sys2Proof.Tests
end

section
/-! PROOFS. Which input a step takes, and what the step then runs (R4, R21, R255). -/

namespace Sys2Proof.Machine

/-- R255: inputs that cannot be taken are passed over and stay where they are. -/
theorem takeEnabled_of_first_enabled {s : State} {before : List Input} {inp : Input} (after : List Input)
    (hbefore : ∀ x ∈ before, inputEnabled s x = false) (hinp : inputEnabled s inp = true) :
    takeEnabled s (before ++ inp :: after) = some (inp, before ++ after) := by
  induction before with
  | nil => simp [takeEnabled, hinp]
  | cons x xs ih =>
    obtain ⟨hx, hxs⟩ := List.forall_mem_cons.mp hbefore
    simp [takeEnabled, hx, ih hxs]

theorem fetch_of_first_enabled {s : State} {before after : List Input} {inp : Input}
    (hpending : s.env.pending = before ++ inp :: after) (hbefore : ∀ x ∈ before, inputEnabled s x = false)
    (hinp : inputEnabled s inp = true) : fetch s = accept inp (s.setPending (before ++ after)) := by
  simp only [fetch, hpending, takeEnabled_of_first_enabled after hbefore hinp]

/-- R94: an event code with a meaning runs its instruction and leaves the state to it. -/
theorem accept_event_of_decode {code : BitVec 8} {data : ByteStr} {i : Instr} (s : State)
    (hdec : decodeEvent code data = .ok i) : accept (.event code data) s = .run i s := by
  simp only [accept, hdec]

theorem step_of_fetch_run {s t : State} {i : Instr} (h : fetch s = .run i t) : step s = exec i t := by
  simp only [step, h]

end Sys2Proof.Machine

open Sys2Proof Sys2Proof.Machine

/-- Settles O5: `fetch` finds the first enabled input, and each input that decodes is accepted as the run of its
instruction, with CMD written for a command word only; a port write decodes to nothing. -/
theorem stepRunsTheFirstEnabledInput : Obligations.StepRunsTheFirstEnabledInput := by
  intro s before after inp i hpending hbefore hinp hdec _
  have hfetch := fetch_of_first_enabled hpending hbefore hinp
  cases inp with
  | cmdWrite w =>
    obtain rfl : decodeWord w = i := Except.ok.inj hdec
    exact step_of_fetch_run hfetch
  | event code data => exact step_of_fetch_run (hfetch.trans (accept_event_of_decode _ hdec))
  | resetLine =>
    obtain rfl : Instr.reset = i := Except.ok.inj hdec
    exact step_of_fetch_run hfetch
  | writeA b => cases hdec
  | writeV v => cases hdec
  | writeArg port x => cases hdec

end

section
/-! PROOFS. What every step but reset and a successful OPEN leaves alone: the frame of a step, shown once for the operations
the versions share and then for each instruction (R402, R403, R23, R27, R38). -/

namespace Sys2Proof.Machine

/-! ## The frame -/

/-- An error with a sub-code that R401's table lists for it. -/
def Raise.Listed (e : Raise) : Prop := e.code ≠ .ok ∧ e.info ∈ e.code.subcodes

/-- `b` is `a` except perhaps at the ports in `l` (R23). -/
def WritesOnly (l : List ResultPort) (a b : ResultPorts) : Prop :=
  (.r ∉ l → b.r = a.r) ∧ (.rv ∉ l → b.rv = a.rv) ∧ (.rl ∉ l → b.rl = a.rl) ∧ (.rs0 ∉ l → b.rs0 = a.rs0) ∧
    (.rs1 ∉ l → b.rs1 = a.rs1) ∧ (.rs2 ∉ l → b.rs2 = a.rs2) ∧ (.rs3 ∉ l → b.rs3 = a.rs3) ∧ (.rflag ∉ l → b.rflag = a.rflag)

theorem WritesOnly.refl (l : List ResultPort) (a : ResultPorts) : WritesOnly l a a :=
  ⟨fun _ => rfl, fun _ => rfl, fun _ => rfl, fun _ => rfl, fun _ => rfl, fun _ => rfl, fun _ => rfl, fun _ => rfl⟩

theorem WritesOnly.trans {l : List ResultPort} {a b c : ResultPorts} (hab : WritesOnly l a b) (hbc : WritesOnly l b c) :
    WritesOnly l a c := by
  obtain ⟨r, rv, rl, rs0, rs1, rs2, rs3, rflag⟩ := hab
  obtain ⟨r', rv', rl', rs0', rs1', rs2', rs3', rflag'⟩ := hbc
  exact ⟨fun h => (r' h).trans (r h), fun h => (rv' h).trans (rv h), fun h => (rl' h).trans (rl h),
    fun h => (rs0' h).trans (rs0 h), fun h => (rs1' h).trans (rs1 h), fun h => (rs2' h).trans (rs2 h),
    fun h => (rs3' h).trans (rs3 h), fun h => (rflag' h).trans (rflag h)⟩

/-- The writes of a rule before any raise: no operand port, parameter or configuration register, of the result ports at most
those in `l`, neither sticky bit, and ERR and ERR_INFO only by completing (R403). -/
structure RuleFrame (l : List ResultPort) (s t : State) : Prop where
  ports : t.ports = s.ports
  cfg : t.cfg = s.cfg
  params : t.params = s.params
  overrun : t.status.overrun = s.status.overrun
  faultSeen : t.status.faultSeen = s.status.faultSeen
  report : (t.status.err = s.status.err ∧ t.errInfo = s.errInfo) ∨ (t.status.err = .ok ∧ t.errInfo = 0)
  results : WritesOnly l s.res t.res

theorem RuleFrame.refl (l : List ResultPort) (s : State) : RuleFrame l s s :=
  ⟨rfl, rfl, rfl, rfl, rfl, .inl ⟨rfl, rfl⟩, .refl l s.res⟩

theorem RuleFrame.trans {l : List ResultPort} {s t u : State} (hst : RuleFrame l s t) (htu : RuleFrame l t u) :
    RuleFrame l s u where
  ports := htu.ports.trans hst.ports
  cfg := htu.cfg.trans hst.cfg
  params := htu.params.trans hst.params
  overrun := htu.overrun.trans hst.overrun
  faultSeen := htu.faultSeen.trans hst.faultSeen
  report := by
    obtain ⟨herr, hinfo⟩ | h := htu.report
    · rw [herr, hinfo]; exact hst.report
    · exact .inr h
  results := hst.results.trans htu.results

/-- Writes to CMD, the FSM and session fields, the sender, the receiver and the environment are within every frame. -/
theorem RuleFrame.of_internal (l : List ResultPort) (s : State) (c : BitVec 32) (se : Sess) (ec : EndCause) (o : Op)
    (ss : SndState) (rs : RcvState) (snd : SenderRegs) (rcv : ReceiverRegs) (env : Env) :
    RuleFrame l s
      { s with
        cmd := c, snd := snd, rcv := rcv, env := env
        status := { s.status with sess := se, endCause := ec, op := o, sndState := ss, rcvState := rs } } :=
  ⟨rfl, rfl, rfl, rfl, rfl, .inl ⟨rfl, rfl⟩, .refl l s.res⟩

theorem RuleFrame.complete {l : List ResultPort} {s t : State} (h : RuleFrame l s t) : RuleFrame l s t.complete :=
  { h with report := .inr ⟨rfl, rfl⟩ }

/-- The writes of a step: those of a rule, and then at most one report of a listed error (R402). -/
def StepFrame (l : List ResultPort) (s t : State) : Prop :=
  ∃ u, RuleFrame l s u ∧ (t = u ∨ ∃ e : Raise, e.Listed ∧ (t = u.report e ∨ t = u.raiseFatal e))

theorem RuleFrame.step {l : List ResultPort} {s t : State} (h : RuleFrame l s t) : StepFrame l s t := ⟨t, h, .inl rfl⟩

theorem StepFrame.of_report (l : List ResultPort) {s : State} {e : Raise} (he : e.Listed) : StepFrame l s (s.report e) :=
  ⟨s, .refl l s, .inr ⟨e, he, .inl rfl⟩⟩

section
variable {l : List ResultPort} {s t : State}

theorem StepFrame.ports (h : StepFrame l s t) : t.ports = s.ports := by
  obtain ⟨u, hu, rfl | ⟨e, -, rfl | rfl⟩⟩ := h <;> simpa using hu.ports

theorem StepFrame.cfg (h : StepFrame l s t) : t.cfg = s.cfg := by
  obtain ⟨u, hu, rfl | ⟨e, -, rfl | rfl⟩⟩ := h <;> simpa using hu.cfg

theorem StepFrame.params (h : StepFrame l s t) : t.params = s.params := by
  obtain ⟨u, hu, rfl | ⟨e, -, rfl | rfl⟩⟩ := h <;> simpa using hu.params

theorem StepFrame.overrun (h : StepFrame l s t) : t.status.overrun = s.status.overrun := by
  obtain ⟨u, hu, rfl | ⟨e, -, rfl | rfl⟩⟩ := h <;> simpa using hu.overrun

theorem StepFrame.results (h : StepFrame l s t) : WritesOnly l s.res t.res := by
  obtain ⟨u, hu, rfl | ⟨e, -, rfl | rfl⟩⟩ := h <;> simpa using hu.results

/-- ERR, ERR_INFO and FAULT_SEEN after a step: kept, or a completion's with FAULT_SEEN kept (R403), or a listed error's with
FAULT_SEEN set (R402, R38). -/
theorem StepFrame.report_cases (h : StepFrame l s t) :
    (t.status.faultSeen = s.status.faultSeen ∧
      ((t.status.err = s.status.err ∧ t.errInfo = s.errInfo) ∨ (t.status.err = .ok ∧ t.errInfo = 0))) ∨
    (t.status.faultSeen = true ∧ t.status.err ≠ .ok ∧ t.errInfo ∈ t.status.err.subcodes) := by
  obtain ⟨u, hu, rfl | ⟨e, ⟨hcode, hinfo⟩, rfl | rfl⟩⟩ := h
  · exact .inl ⟨hu.faultSeen, hu.report⟩
  · exact .inr ⟨rfl, hcode, hinfo⟩
  · exact .inr ⟨by simp, by simpa using hcode, by simpa using hinfo⟩

end

/-! ## The rules of a blocking operation -/

/-- A rule ends where `P` holds or raises an error `e` where `E e` holds; one that is stuck is no step. -/
def Flow.Ends (P : State → Prop) (E : Raise → State → Prop) : Flow → Prop
  | .done t => P t
  | .raise e t => E e t
  | .stuck _ => True

theorem Flow.Ends.andThen {P Q : State → Prop} {E : Raise → State → Prop} {r : Flow} {k : State → Flow}
    (hr : r.Ends P E) (hk : ∀ t, P t → (k t).Ends Q E) : (r.andThen k).Ends Q E := by
  cases r with
  | done t => exact hk t hr
  | raise e t => exact hr
  | stuck f => trivial

/-- A rule that stays within a frame and raises only listed errors. -/
def Flow.Framed (l : List ResultPort) (s : State) (r : Flow) : Prop :=
  r.Ends (RuleFrame l s) fun e t => e.Listed ∧ RuleFrame l s t

section
variable (l : List ResultPort) (s : State)

theorem Flow.Framed.settle {l : List ResultPort} {s t : State} {r : Flow} (hr : r.Framed l s) (h : r.settle = .next t) :
    StepFrame l s t := by
  obtain rfl | ⟨e, u, rfl, rfl⟩ := Flow.settle_eq_next h
  · exact hr.step
  · obtain ⟨he, hu⟩ := hr
    exact ⟨u, hu, .inr ⟨e, he, .inr rfl⟩⟩

theorem Flow.Framed.trans {l : List ResultPort} {s t : State} {r : Flow} (hst : RuleFrame l s t) (hr : r.Framed l t) :
    r.Framed l s := by
  cases r with
  | done u => exact hst.trans hr
  | raise e u => exact ⟨hr.1, hst.trans hr.2⟩
  | stuck f => trivial

theorem injectRange_listed : Raise.Listed ⟨.injectRange, 1⟩ := ⟨nofun, by decide⟩

theorem Why.raise_listed (why : Why) : why.raise.Listed := by
  cases why <;> exact ⟨nofun, by decide⟩

theorem finReceived_listed : Raise.Listed ⟨.channelClosed, 2⟩ := ⟨nofun, by decide⟩

theorem parse_error_listed {f : Format} {p : ByteStr} {c : BitVec 16} (h : parse f p = .error c) :
    Raise.Listed ⟨.malformedHeader, c⟩ :=
  ⟨nofun, List.mem_of_mem_take (i := 9) (parse_error_range h)⟩

theorem bufAdd_error_listed {c : BitVec 16} (h : c = 10 ∨ c = 11 ∨ c = 13) : Raise.Listed ⟨.malformedHeader, c⟩ := by
  obtain rfl | rfl | rfl := h <;> exact ⟨nofun, by decide⟩

theorem retransmit_framed (why : Why) : (retransmit why s).Framed l s := by
  obtain ⟨-, -, e⟩ | ⟨-, ⟨-, e⟩ | ⟨p, -, ⟨d, q, -, e⟩ | ⟨-, d, e⟩⟩⟩ := retransmit_cases why s <;> rw [e]
  · exact ⟨why.raise_listed, .refl l s⟩
  · trivial
  · exact .of_internal ..
  · exact ⟨injectRange_listed, .of_internal ..⟩

theorem transmitFragment_framed (i : Nat) : (transmitFragment i s).Framed l s := by
  obtain ⟨-, e⟩ | ⟨p, -, ⟨d, q, -, e⟩ | ⟨-, d, e⟩⟩ := transmitFragment_cases i s <;> rw [e]
  · trivial
  · exact .of_internal ..
  · exact ⟨injectRange_listed, .of_internal ..⟩

theorem advance_framed : (advance s).Framed l s := by
  obtain ⟨-, e⟩ | ⟨-, e⟩ := advance_cases s <;> rw [e]
  · exact RuleFrame.complete (.of_internal ..)
  · exact .trans (.of_internal ..) (transmitFragment_framed l _ _)

theorem sendReply_framed (p : ByteStr) (inj : Bool) : (sendReply p inj s).Framed l s := by
  obtain ⟨d, q, -, e⟩ | ⟨-, -, d, e⟩ := sendReply_cases p inj s <;> rw [e]
  · exact .of_internal ..
  · exact ⟨injectRange_listed, .of_internal ..⟩

theorem bufferFragment_framed (h : Hdr) : (bufferFragment h s).Framed l s := by
  obtain ⟨c, hc, e⟩ | ⟨-, e⟩ | ⟨-, -, -, -, -, -, e⟩ := bufferFragment_cases h s <;> rw [e]
  · exact ⟨bufAdd_error_listed hc, .refl l s⟩
  · exact .refl l s
  · exact .of_internal ..

/-- Deliver writes R alone of the result ports (R250). -/
theorem deliver_frame : RuleFrame [.r] s (deliver s) := by
  obtain ⟨-, e⟩ | ⟨-, e⟩ := deliver_cases s <;> rw [e]
  · exact ⟨rfl, rfl, rfl, rfl, rfl, .inr ⟨rfl, rfl⟩, by simp [WritesOnly]⟩
  · exact .refl [.r] s

/-- Rules one after the other stay within the frame that each keeps. -/
theorem Flow.Framed.andThen {l : List ResultPort} {s : State} {r : Flow} {k : State → Flow} (hr : r.Framed l s)
    (hk : ∀ t, (k t).Framed l t) : (r.andThen k).Framed l s :=
  Flow.Ends.andThen hr fun t ht => (hk t).trans ht

theorem newFragment_framed (k : Reply) (h : Hdr) : (newFragment k h s).Framed [.r] s :=
  (bufferFragment_framed _ s h).andThen fun t =>
    .trans (t := { t with rcv := { t.rcv with bit := !t.rcv.bit } }) (.of_internal ..)
      ((sendReply_framed _ _ _ _).andThen deliver_frame)

theorem rxRule_send_framed (p : ByteStr) {s : State} (hop : s.status.op = .send) : (rxRule p s).Framed l s := by
  obtain ⟨-, e⟩ | ⟨c, hc, e⟩ | e | ⟨why, e⟩ | ⟨b, e⟩ := rxRule_send_cases p hop <;> rw [e]
  · trivial
  · exact ⟨parse_error_listed hc, .refl l s⟩
  · exact ⟨finReceived_listed, .of_internal ..⟩
  · exact retransmit_framed l s why
  · exact .trans (.of_internal ..) (advance_framed l _)

theorem rxRule_recv_framed (p : ByteStr) {s : State} (hop : s.status.op = .recv) : (rxRule p s).Framed [.r] s := by
  obtain ⟨c, hc, e⟩ | e | e | ⟨q, inj, e⟩ | ⟨h, e⟩ | ⟨h, e⟩ | ⟨k, h, e⟩ := rxRule_recv_cases p hop <;> rw [e]
  · exact ⟨parse_error_listed hc, .refl _ s⟩
  · exact ⟨finReceived_listed, .of_internal ..⟩
  · exact .refl _ s
  · exact sendReply_framed _ s q inj
  · exact (bufferFragment_framed _ s h).andThen deliver_frame
  · exact (bufferFragment_framed _ s h).andThen fun t => (sendReply_framed _ t _ _).andThen deliver_frame
  · exact newFragment_framed s k h

theorem rxRule_framed (p : ByteStr) : (rxRule p s).Framed [.r] s := by
  cases hop : s.status.op with
  | none => rw [rxRule, hop]; exact .refl _ s
  | send => exact rxRule_send_framed _ p hop
  | recv => exact rxRule_recv_framed p hop

theorem timeoutRule_framed : (timeoutRule s).Framed l s := by
  unfold timeoutRule
  cases s.status.op with
  | send => exact retransmit_framed l s .timeout
  | recv | none => exact .refl l s

theorem sendMessage_framed : (sendMessage s).Framed l s := by
  unfold sendMessage
  dsimp only
  split_ifs
  · exact ⟨⟨nofun, by decide⟩, .refl l s⟩
  · exact RuleFrame.complete (.of_internal ..)
  · exact RuleFrame.complete (.of_internal ..)
  · exact .trans (.of_internal ..) (transmitFragment_framed l _ _)

end

end Sys2Proof.Machine
end

section
/-! PROOFS. What the datapath commands compute: lengths of their results and the buffer they leave (R23, R71, R206), and the
two ways each ends (R402, R403). -/

namespace Sys2Proof.Machine

/-! ## Lengths -/

/-- A and V within R71's lengths. -/
def OperandPorts.Fit (p : OperandPorts) : Prop := p.a.length ≤ Config.maxLen ∧ p.v.length ≤ 8 * Config.maxLen

/-- R, RV and RL within R23's widths. -/
def ResultPorts.Fit (r : ResultPorts) : Prop :=
  r.r.length ≤ Config.maxLen ∧ r.rv.length ≤ 8 * Config.maxLen ∧ r.rl.length ≤ 9999

/-- The clauses of the invariant on RCV_BUF and RCV_TOTAL (R37, R206), `len` being PACKET_DATA_LEN. -/
structure ReceiverRegs.Fit (len : Nat) (rc : ReceiverRegs) : Prop where
  wf : bufWf rc.buf
  total : ∀ t, rc.total = some t → 1 ≤ t ∧ t ≤ 9999
  entries : ∀ e ∈ rc.buf, 1 ≤ e.1 ∧ e.2.length ≤ len ∧ ∃ t, rc.total = some t ∧ e.1 ≤ t

theorem ReceiverRegs.Fit.empty (len : Nat) (bit : Bool) : ReceiverRegs.Fit len ⟨[], none, bit⟩ :=
  ⟨.nil, nofun, nofun⟩

/-- A fragment that passes BufAdd's checks keeps the buffer's bounds (R206). -/
theorem ReceiverRegs.Fit.insert {len s t : Nat} {pay : ByteStr} {rc : ReceiverRegs} (h : rc.Fit len) (h1 : 1 ≤ s)
    (hst : s ≤ t) (ht : t ≤ 9999) (htotal : rc.total = none ∨ rc.total = some t) (hpay : pay.length ≤ len) :
    ReceiverRegs.Fit len { rc with buf := bufInsert s pay rc.buf, total := some t } where
  wf := bufInsert_wf h.wf
  total := by rintro _ ⟨⟩; exact ⟨h1.trans hst, ht⟩
  entries := by
    intro e he
    obtain rfl | he := mem_bufInsert he
    · exact ⟨h1, hpay, t, rfl, hst⟩
    · obtain ⟨hseq, hlen, t', ht', hle⟩ := h.entries e he
      obtain rfl : t' = t := by simpa [ht'] using htotal
      exact ⟨hseq, hlen, t', rfl, hle⟩

theorem bufAdd_fit {len s t : Nat} {pay : ByteStr} {rc rc' : ReceiverRegs} {r : BufResult} (h : rc.Fit len)
    (e : bufAdd len rc s t pay = .ok (rc', r)) : rc'.Fit len := by
  obtain ⟨c, -, e'⟩ | ⟨-, e'⟩ | ⟨h1, hst, ht, htotal, hpay, -, e'⟩ := bufAdd_cases len rc s t pay <;> rw [e'] at e <;> cases e
  · exact h
  · exact h.insert h1 hst ht htotal hpay

theorem bufAdd_raise_listed {len s t : Nat} {pay : ByteStr} {rc : ReceiverRegs} {e : Raise}
    (h : bufAdd len rc s t pay = .error e) : e.Listed := by
  obtain ⟨c, hc, e'⟩ | ⟨-, e'⟩ | ⟨-, -, -, -, -, -, e'⟩ := bufAdd_cases len rc s t pay <;> rw [e'] at h <;> cases h
  exact bufAdd_error_listed hc

/-- Each of at most 9999 payloads has at most PACKET_DATA_LEN bytes (R207, R71). -/
theorem reassemble_length_le {len : Nat} {rc : ReceiverRegs} (h : rc.Fit len) : (reassemble rc).length ≤ 9999 * len := by
  unfold reassemble
  cases htotal : rc.total with
  | none => simp
  | some t =>
    have hpay : ∀ k, ((bufLookup k rc.buf).getD []).length ≤ len := by
      intro k
      cases hk : bufLookup k rc.buf with
      | none => simp
      | some pay => exact (h.entries _ (bufLookup_mem hk)).2.1
    dsimp only
    calc ((List.range t).flatMap fun i => (bufLookup (i + 1) rc.buf).getD []).length
        = ((List.range t).map fun i => ((bufLookup (i + 1) rc.buf).getD []).length).sum := by
          simp [List.length_flatMap]
      _ ≤ ((List.range t).map fun i => ((bufLookup (i + 1) rc.buf).getD []).length).length • len :=
          List.sum_le_card_nsmul _ _ (by simpa using fun i _ => hpay (i + 1))
      _ = t * len := by simp
      _ ≤ 9999 * len := Nat.mul_le_mul_right len (h.total t htotal).2

/-- A reassembled message is within MAXLEN, PACKET_DATA_LEN being at most 16384 (R5, R71). -/
theorem reassemble_length_le_maxLen {s : State} {rc : ReceiverRegs} (h : rc.Fit s.packetDataLen) :
    (reassemble rc).length ≤ Config.maxLen := by
  have hlen := reassemble_length_le h
  have hdata := s.packetDataLen_le
  simp only [Config.maxLen]
  omega

theorem FlipsBits.length_eq {n : Nat} {a b : ByteStr} (h : FlipsBits n a b) : b.length = a.length :=
  CorruptedPayload.length_eq (mode := .fit) (n := n) (len := 0) (by rwa [CorruptedPayload, if_pos rfl])

theorem CorruptedCopy.length_eq {mode : BurstMode} {n prob len : Nat} {p q : ByteStr}
    (h : CorruptedCopy mode n prob len p q) : q.length = p.length := by
  obtain ⟨rfl, -⟩ | ⟨-, hd, pay, pay2, -, rfl, rfl, hpay⟩ := h
  · rfl
  · simp [hpay.length_eq]

theorem parityOf_length (b : ByteStr) : (parityOf b).length = b.length + 8 := by simp [parityOf]

/-- A correction flips one bit of A (R164). -/
theorem parityCheck_corrected_length {a b : ByteStr} {v : BitStr} {i j : Nat} (h : parityCheck a v = .corrected i j b) :
    b.length = a.length := by
  unfold parityCheck at h
  split at h
  · cases h
  · split at h
    · cases h; simp
    · cases h
  · cases h

/-- PARVER gives back A, A with one bit flipped, or nothing (R162 to R165). -/
theorem parityResults_fit {a : ByteStr} {v : BitStr} {res : ResultPorts} (ha : a.length ≤ Config.maxLen) (h : res.Fit) :
    (parityResults a res (parityCheck a v)).Fit := by
  obtain ⟨-, hrv, hrl⟩ := h
  cases hout : parityCheck a v with
  | clean => exact ⟨ha, hrv, hrl⟩
  | corrected i j b => exact ⟨(parityCheck_corrected_length hout).trans_le ha, hrv, hrl⟩
  | uncorrectable => exact ⟨Nat.zero_le _, hrv, hrl⟩

/-! ## Parsing takes its parts from the packet -/

theorem except_bind_eq_ok {α β : Type} {x : Except (BitVec 16) α} {k : α → Except (BitVec 16) β} {b : β}
    (h : (x >>= k) = .ok b) : ∃ a, x = .ok a ∧ k a = .ok b := by
  cases x with
  | error c => cases h
  | ok a => exact ⟨a, rfl, h⟩

theorem parseLit_length_le {x h r : ByteStr} {c : BitVec 16} (e : parseLit x c h = .ok r) : r.length ≤ h.length := by
  unfold parseLit at e
  split at e <;> cases e
  simp

theorem parseRun_length_le {m : Nat} {cls : Byte → Bool} {c : BitVec 16} {h : ByteStr} {r : ByteStr × ByteStr}
    (e : parseRun m cls c h = .ok r) : r.1.length ≤ h.length ∧ r.2.length ≤ h.length := by
  unfold parseRun at e
  split at e <;> cases e
  simp

theorem parseC_length_le {f : Format} {h : ByteStr} {r : BitStr × ByteStr} (e : parseC f h = .ok r) :
    r.1.length ≤ h.length ∧ r.2.length ≤ h.length := by
  unfold parseC at e
  split at e
  · obtain ⟨h', hlit, e⟩ := except_bind_eq_ok e
    obtain ⟨run, hrun, e⟩ := except_bind_eq_ok e
    obtain ⟨hbits, hrest⟩ := parseRun_length_le hrun
    have hh := parseLit_length_le hlit
    cases e
    simp only [charBits, List.length_map]
    omega
  · cases e; simp

theorem parseEC_length_le {f : Format} {v : BitStr} {h : ByteStr} {r : BitStr × ByteStr} {m : Nat} (hv : v.length ≤ m)
    (hm : h.length ≤ m) (e : parseEC f v h = .ok r) : r.1.length ≤ m := by
  unfold parseEC at e
  split at e
  · obtain ⟨h', hlit, e⟩ := except_bind_eq_ok e
    have hh := parseLit_length_le hlit
    have hrun := (List.takeWhile_sublist (p := isBitChar) (l := h')).length_le
    dsimp only at e
    split at e <;> cases e
    simp only [charBits, List.length_map]
    omega
  · cases e; exact hv

/-- The fields of a header are no longer than the header, and the payload is what follows it (R90). -/
theorem parseHeader_length_le {f : Format} {h pay : ByteStr} {r : Hdr} (e : parseHeader f h pay = .ok r) :
    r.e.length ≤ h.length ∧ r.pay = pay := by
  unfold parseHeader at e
  obtain ⟨h1, e1, e⟩ := except_bind_eq_ok e
  obtain ⟨s, e2, e⟩ := except_bind_eq_ok e
  obtain ⟨h2, e3, e⟩ := except_bind_eq_ok e
  obtain ⟨t, e4, e⟩ := except_bind_eq_ok e
  obtain ⟨h3, e5, e⟩ := except_bind_eq_ok e
  obtain ⟨fl, e6, e⟩ := except_bind_eq_ok e
  obtain ⟨c, e7, e⟩ := except_bind_eq_ok e
  obtain ⟨ec, e8, e⟩ := except_bind_eq_ok e
  obtain ⟨n, -, e⟩ := except_bind_eq_ok e
  have hfl : fl.2.length ≤ h.length :=
    calc fl.2.length ≤ h3.length := (parseRun_length_le e6).2
      _ ≤ t.2.length := parseLit_length_le e5
      _ ≤ h2.length := (parseRun_length_le e4).2
      _ ≤ s.2.length := parseLit_length_le e3
      _ ≤ h1.length := (parseRun_length_le e2).2
      _ ≤ h.length := parseLit_length_le e1
  obtain ⟨hc, hrest⟩ := parseC_length_le e7
  have hec : ec.1.length ≤ h.length := parseEC_length_le (hc.trans hfl) (hrest.trans hfl) e8
  split at e <;> cases e
  exact ⟨hec, rfl⟩

/-- A decoded packet's bit field and payload are no longer than the packet (R90). -/
theorem parse_length_le {f : Format} {p : ByteStr} {r : Hdr} (e : parse f p = .ok r) :
    r.e.length ≤ p.length ∧ r.pay.length ≤ p.length := by
  unfold parse at e
  split at e
  · cases e
  · rename_i h pay hsplit
    obtain ⟨-, rfl⟩ := splitNl_eq_some hsplit
    obtain ⟨he, rfl⟩ := parseHeader_length_le e
    simp only [List.length_append, List.length_cons]
    omega

/-! ## How a datapath command ends -/

/-- What a completing datapath command may leave in the receiver's registers and in the result ports: the ports R23 names for
it, and both within their bounds where the ports and registers were. -/
structure DatapathWrites (i : Instr) (s : State) (rc : ReceiverRegs) (res : ResultPorts) : Prop where
  only : WritesOnly i.writes s.res res
  rcvFit : s.rcv.Fit s.packetDataLen → rc.Fit s.packetDataLen
  resFit : s.ports.Fit → s.rcv.Fit s.packetDataLen → s.res.Fit → res.Fit

/-- A datapath command ends with the report of a listed error, or completes with its results written (R402, R403); either may
have drawn. -/
def DatapathEnds (i : Instr) (s t : State) : Prop :=
  (∃ (e : Raise) (d : DrawSource), e.Listed ∧ t = (s.setDraws d).report e) ∨
  ∃ (d : DrawSource) (rc : ReceiverRegs) (res : ResultPorts), DatapathWrites i s rc res ∧
    t = ({ s with rcv := rc, res := res, env := { s.env with draws := d } } : State).complete

theorem DatapathEnds.of_raised {i : Instr} {s t : State} {e : Raise} (he : e.Listed) (d : DrawSource)
    (h : raised e (s.setDraws d) = .next t) : DatapathEnds i s t :=
  .inl ⟨e, d, he, (Host.Outcome.next.inj h).symm⟩

/-- A datapath command that writes results alone. -/
theorem DatapathEnds.of_results {i : Instr} {s t : State} {res : ResultPorts} (d : DrawSource)
    (h : completed { s with res := res, env := { s.env with draws := d } } = .next t) (only : WritesOnly i.writes s.res res)
    (fit : s.ports.Fit → s.res.Fit → res.Fit) : DatapathEnds i s t :=
  .inr ⟨d, s.rcv, res, ⟨only, id, fun hports _ => fit hports⟩, (Host.Outcome.next.inj h).symm⟩

theorem issue_next_of_not_busy {s t : State} {body : State → Host.Outcome State Fault Refusal} (hbusy : s.busy = false)
    (h : issue s body = .next t) : body s = .next t := by
  rwa [issue_of_not_busy body hbusy] at h

section
variable {s t : State}

theorem execB2bits_ends (hbusy : s.busy = false) (h : execB2bits s = .next t) : DatapathEnds .b2bits s t := by
  replace h := issue_next_of_not_busy hbusy h
  refine .of_results s.env.draws h (by simp [WritesOnly, Instr.writes]) ?_
  rintro ⟨ha, -⟩ ⟨hr, -, hrl⟩
  exact ⟨hr, by simpa using ha, hrl⟩

theorem execBits2b_ends (hbusy : s.busy = false) (h : execBits2b s = .next t) : DatapathEnds .bits2b s t := by
  replace h := issue_next_of_not_busy hbusy h
  split at h
  · refine .of_raised ?_ s.env.draws h
    exact ⟨nofun, by decide⟩
  · refine .of_results s.env.draws h (by simp [WritesOnly, Instr.writes]) ?_
    rintro ⟨-, hv⟩ ⟨-, hrv, hrl⟩
    refine ⟨?_, hrv, hrl⟩
    rw [bitsToBytes_length]
    omega

theorem execCkgen_ends (hbusy : s.busy = false) (h : execCkgen s = .next t) : DatapathEnds .ckgen s t := by
  replace h := issue_next_of_not_busy hbusy h
  refine .of_results s.env.draws h (by simp [WritesOnly, Instr.writes]) ?_
  rintro - ⟨hr, -, hrl⟩
  exact ⟨hr, by simp [Config.maxLen], hrl⟩

theorem execCkver_ends (hbusy : s.busy = false) (h : execCkver s = .next t) : DatapathEnds .ckver s t := by
  replace h := issue_next_of_not_busy hbusy h
  split at h
  · refine .of_raised ?_ s.env.draws h
    exact ⟨nofun, by decide⟩
  · exact .of_results s.env.draws h (by simp [WritesOnly, Instr.writes]) fun _ hres => hres

theorem execPargen_ends (hbusy : s.busy = false) (h : execPargen s = .next t) : DatapathEnds .pargen s t := by
  replace h := issue_next_of_not_busy hbusy h
  refine .of_results s.env.draws h (by simp [WritesOnly, Instr.writes]) ?_
  rintro ⟨ha, -⟩ ⟨hr, -, hrl⟩
  refine ⟨hr, ?_, hrl⟩
  simp only [parityOf_length, Config.maxLen] at ha ⊢
  omega

theorem execParver_ends (hbusy : s.busy = false) (h : execParver s = .next t) : DatapathEnds .parver s t := by
  replace h := issue_next_of_not_busy hbusy h
  split at h
  · refine .of_raised ?_ s.env.draws h
    exact ⟨nofun, by decide⟩
  · refine .of_results s.env.draws h ?_ fun ⟨ha, _⟩ hres => parityResults_fit ha hres
    cases parityCheck s.ports.a s.ports.v <;> simp [WritesOnly, Instr.writes, parityResults]

theorem execInjflip_ends (hbusy : s.busy = false) (h : execInjflip s = .next t) : DatapathEnds .injflip s t := by
  replace h := issue_next_of_not_busy hbusy h
  obtain ⟨-, e⟩ | ⟨-, d, r, e, hr⟩ := flipN_cases s.env.draws s.ports.a s.ports.arg0.toNat <;> rw [e] at h
  · exact .of_raised injectRange_listed _ h
  · refine .of_results d h (by simp [WritesOnly, Instr.writes]) ?_
    rintro ⟨ha, -⟩ ⟨-, hrv, hrl⟩
    exact ⟨hr.length_eq.trans_le ha, hrv, hrl⟩

theorem execInjburst_ends (hbusy : s.busy = false) (h : execInjburst s = .next t) : DatapathEnds .injburst s t := by
  replace h := issue_next_of_not_busy hbusy h
  refine .of_results _ h (by simp [WritesOnly, Instr.writes]) ?_
  rintro ⟨ha, -⟩ ⟨-, hrv, hrl⟩
  exact ⟨by simpa using ha, hrv, hrl⟩

theorem execInjpkt_ends (hbusy : s.busy = false) (h : execInjpkt s = .next t) : DatapathEnds .injpkt s t := by
  replace h := issue_next_of_not_busy hbusy h
  split at h
  · refine .of_raised ?_ s.env.draws h
    exact ⟨nofun, by decide⟩
  · obtain ⟨d, q, c, e, hq⟩ | ⟨d, e, -⟩ := corruptPacket_cases s.params.burstMode s.env.draws s.ports.a s.ports.arg0.toNat
      s.ports.arg1.toNat s.ports.arg2.toNat <;> rw [e] at h
    · refine .of_results d h (by simp [WritesOnly, Instr.writes]) ?_
      rintro ⟨ha, -⟩ ⟨-, hrv, hrl⟩
      exact ⟨hq.length_eq.trans_le ha, hrv, hrl⟩
    · exact .of_raised injectRange_listed d h

theorem hdrencCheck_listed {f : Format} {p : OperandPorts} {c : BitVec 16} (h : hdrencCheck f p = some c) :
    Raise.Listed ⟨.malformedHeader, c⟩ := by
  unfold hdrencCheck at h
  split_ifs at h <;> cases h <;> exact ⟨nofun, by decide⟩

theorem execHdrenc_ends (f : Format) (hbusy : s.busy = false) (h : execHdrenc f s = .next t) :
    DatapathEnds (.hdrenc f) s t := by
  replace h := issue_next_of_not_busy hbusy h
  cases hcheck : hdrencCheck f s.ports with
  | some c => rw [hcheck] at h; exact .of_raised (hdrencCheck_listed hcheck) s.env.draws h
  | none =>
    rw [hcheck] at h
    dsimp only at h
    split at h
    · refine .of_raised ?_ s.env.draws h
      exact ⟨nofun, by decide⟩
    · rename_i hlen
      refine .of_results s.env.draws h (by simp [WritesOnly, Instr.writes]) ?_
      rintro - ⟨-, hrv, hrl⟩
      exact ⟨Nat.le_of_not_lt hlen, hrv, hrl⟩

theorem execHdrdec_ends (f : Format) (hbusy : s.busy = false) (h : execHdrdec f s = .next t) :
    DatapathEnds (.hdrdec f) s t := by
  replace h := issue_next_of_not_busy hbusy h
  cases hparse : parse f s.ports.a with
  | error c => rw [hparse] at h; exact .of_raised (parse_error_listed hparse) s.env.draws h
  | ok r =>
    rw [hparse] at h
    refine .of_results s.env.draws h (by simp [WritesOnly, Instr.writes]) ?_
    rintro ⟨ha, -⟩ ⟨-, -, hrl⟩
    obtain ⟨he, hpay⟩ := parse_length_le hparse
    refine ⟨hpay.trans ha, ?_, hrl⟩
    dsimp only
    omega

theorem execFrag_ends (hbusy : s.busy = false) (h : execFrag s = .next t) : DatapathEnds .frag s t := by
  replace h := issue_next_of_not_busy hbusy h
  dsimp only at h
  split at h
  · refine .of_raised ?_ s.env.draws h
    exact ⟨nofun, by decide⟩
  · rename_i hlen
    refine .of_results s.env.draws h (by simp [WritesOnly, Instr.writes]) ?_
    rintro - ⟨hr, hrv, -⟩
    exact ⟨hr, hrv, Nat.le_of_not_lt hlen⟩

theorem execRbclr_ends (hbusy : s.busy = false) (h : execRbclr s = .next t) : DatapathEnds .rbclr s t :=
  have h := issue_next_of_not_busy hbusy h
  .inr ⟨s.env.draws, _, s.res, ⟨.refl .., fun _ => .empty .., fun _ _ hres => hres⟩, (Host.Outcome.next.inj h).symm⟩

theorem execRbadd_ends (hbusy : s.busy = false) (h : execRbadd s = .next t) : DatapathEnds .rbadd s t := by
  replace h := issue_next_of_not_busy hbusy h
  cases hadd : bufAdd s.packetDataLen s.rcv s.ports.arg0.toNat s.ports.arg1.toNat s.ports.a with
  | error e => rw [hadd] at h; exact .of_raised (bufAdd_raise_listed hadd) s.env.draws h
  | ok r =>
    rw [hadd] at h
    refine .inr ⟨s.env.draws, r.1, _, ⟨by simp [WritesOnly, Instr.writes, rbaddResults], fun hrcv => bufAdd_fit hrcv hadd, ?_⟩,
      (Host.Outcome.next.inj h).symm⟩
    rintro - hrcv ⟨-, hrv, hrl⟩
    refine ⟨?_, hrv, hrl⟩
    dsimp only [rbaddResults]
    split
    · exact reassemble_length_le_maxLen (bufAdd_fit hrcv hadd)
    · exact Nat.zero_le _

/-- A datapath command that is executed ends as `DatapathEnds` says. -/
theorem exec_datapath_ends {i : Instr} (hi : i.isDatapath = true) (hbusy : s.busy = false) (h : exec i s = .next t) :
    DatapathEnds i s t := by
  cases i with
  | b2bits => exact execB2bits_ends hbusy h
  | bits2b => exact execBits2b_ends hbusy h
  | ckgen => exact execCkgen_ends hbusy h
  | ckver => exact execCkver_ends hbusy h
  | pargen => exact execPargen_ends hbusy h
  | parver => exact execParver_ends hbusy h
  | injflip => exact execInjflip_ends hbusy h
  | injburst => exact execInjburst_ends hbusy h
  | injpkt => exact execInjpkt_ends hbusy h
  | hdrenc f => exact execHdrenc_ends f hbusy h
  | hdrdec f => exact execHdrdec_ends f hbusy h
  | frag => exact execFrag_ends hbusy h
  | rbclr => exact execRbclr_ends hbusy h
  | rbadd => exact execRbadd_ends hbusy h
  | _ => cases hi

end

end Sys2Proof.Machine
end

section
/-! PROOFS. What one step of each instruction can be: an overrun, a successful OPEN, an illegal word's report, reset, or a step
within the frame of the instruction (R455, R240, R81, R450); and the statements on the sticky bits, the configuration and the
result ports. -/

namespace Sys2Proof.Machine

section
variable {s t : State}

theorem DatapathEnds.frame {i : Instr} (h : DatapathEnds i s t) : StepFrame i.writes s t := by
  obtain ⟨e, d, he, rfl⟩ | ⟨d, rc, res, hw, rfl⟩ := h
  · exact ⟨s.setDraws d, .of_internal .., .inr ⟨e, he, .inl rfl⟩⟩
  · exact RuleFrame.step ⟨rfl, rfl, rfl, rfl, rfl, .inr ⟨rfl, rfl⟩, hw.only⟩

/-- OPEN raises or starts a fresh session with CFG_PROB in range (R240). -/
theorem execOpen_cases {v : Version} (hbusy : s.busy = false) (h : execOpen v s = .next t) :
    (∃ e : Raise, e.Listed ∧ t = s.report e) ∨ (s.ports.arg1.toNat ≤ 10000 ∧ t = (openState v s).complete) := by
  replace h := issue_next_of_not_busy hbusy h
  split at h
  · exact .inl ⟨⟨.sessionOpen, 0⟩, ⟨nofun, by decide⟩, (Host.Outcome.next.inj h).symm⟩
  · split at h
    · exact .inl ⟨⟨.configError, 1⟩, ⟨nofun, by decide⟩, (Host.Outcome.next.inj h).symm⟩
    · rename_i hprob
      exact .inr ⟨Nat.le_of_not_lt hprob, (Host.Outcome.next.inj h).symm⟩

/-- An illegal word's report (R81). -/
theorem execIllegal_eq {w : BitVec 32} (hbusy : s.busy = false) (h : execIllegal w s = .next t) :
    t = s.report ⟨.illegalCommand, (illegalSubcode w).getD 0⟩ := by
  replace h := issue_next_of_not_busy hbusy h
  exact (Host.Outcome.next.inj h).symm

/-- A session command outside an open session reports an error and does no more (R241 to R243). -/
theorem inSession_cases {body : State → Host.Outcome State Fault Refusal} (h : inSession s body = .next t) :
    (∃ e : Raise, e.Listed ∧ t = s.report e) ∨ (s.status.sess = .opened ∧ body s = .next t) := by
  obtain ⟨-, rfl⟩ | ⟨-, rfl⟩ | h := inSession_eq_next h
  · exact .inl ⟨⟨.noSession, 0⟩, ⟨nofun, by decide⟩, rfl⟩
  · exact .inl ⟨⟨.channelClosed, 1⟩, ⟨nofun, by decide⟩, rfl⟩
  · exact .inr h

theorem execSend_frame (l : List ResultPort) (hbusy : s.busy = false) (h : execSend s = .next t) : StepFrame l s t := by
  obtain ⟨e, he, rfl⟩ | ⟨-, h⟩ := inSession_cases (issue_next_of_not_busy hbusy h)
  · exact .of_report l he
  · exact (sendMessage_framed l s).settle h

theorem execRecv_frame (l : List ResultPort) (hbusy : s.busy = false) (h : execRecv s = .next t) : StepFrame l s t := by
  obtain ⟨e, he, rfl⟩ | ⟨-, h⟩ := inSession_cases (issue_next_of_not_busy hbusy h)
  · exact .of_report l he
  · cases h
    exact RuleFrame.step (.of_internal ..)

theorem execFinish_frame (l : List ResultPort) (hbusy : s.busy = false) (h : execFinish s = .next t) : StepFrame l s t := by
  obtain ⟨e, he, rfl⟩ | ⟨-, h⟩ := inSession_cases (issue_next_of_not_busy hbusy h)
  · exact .of_report l he
  · cases h
    exact RuleFrame.step (RuleFrame.complete (.of_internal ..))

/-- RX runs its rule in a wait, and elsewhere leaves the packet in the channel (R254, R255). -/
theorem execRx_cases {p : ByteStr} (h : execRx p s = .next t) :
    (s.waiting = true ∧ (rxRule p s).settle = .next t) ∨ (s.waiting = false ∧ t = s.keepInChannel p) := by
  unfold execRx at h
  split at h
  · exact .inl ⟨by assumption, h⟩
  · exact .inr ⟨Bool.eq_false_of_not_eq_true (by assumption), (Host.Outcome.next.inj h).symm⟩

/-- TIMEOUT runs its rule in a wait with a timer, and elsewhere does nothing (R256). -/
theorem execTimeout_cases (h : execTimeout s = .next t) :
    (s.timedWait = true ∧ (timeoutRule s).settle = .next t) ∨ (s.timedWait = false ∧ t = s) := by
  unfold execTimeout at h
  split at h
  · exact .inl ⟨by assumption, h⟩
  · exact .inr ⟨Bool.eq_false_of_not_eq_true (by assumption), (Host.Outcome.next.inj h).symm⟩

/-- CHAN_CLOSE ends an open session, with a raise when an operation is in progress, and does nothing without one (R257). -/
theorem execChanClose_cases (h : execChanClose s = .next t) :
    (s.status.sess = .opened ∧ s.status.op = .none ∧ t = s.endSession .channelClosed) ∨
    (s.status.sess = .opened ∧ s.status.op ≠ .none ∧
      t = (s.endSession .channelClosed).raiseFatal ⟨.channelClosed, 3⟩) ∨
    (s.status.sess ≠ .opened ∧ t = s) := by
  unfold execChanClose at h
  split_ifs at h with hsess hop
  · exact .inl ⟨hsess, hop, (Host.Outcome.next.inj h).symm⟩
  · exact .inr (.inl ⟨hsess, hop, (Host.Outcome.next.inj h).symm⟩)
  · exact .inr (.inr ⟨hsess, (Host.Outcome.next.inj h).symm⟩)

theorem chanClose_listed : Raise.Listed ⟨.channelClosed, 3⟩ := ⟨nofun, by decide⟩

theorem execRx_frame {p : ByteStr} (h : execRx p s = .next t) : StepFrame [.r] s t := by
  obtain ⟨-, h⟩ | ⟨-, rfl⟩ := execRx_cases h
  · exact (rxRule_framed s p).settle h
  · exact RuleFrame.step (.of_internal ..)

theorem execTimeout_frame (l : List ResultPort) (h : execTimeout s = .next t) : StepFrame l s t := by
  obtain ⟨-, h⟩ | ⟨-, rfl⟩ := execTimeout_cases h
  · exact (timeoutRule_framed l s).settle h
  · exact (RuleFrame.refl l t).step

theorem execChanClose_frame (l : List ResultPort) (h : execChanClose s = .next t) : StepFrame l s t := by
  obtain ⟨-, -, rfl⟩ | ⟨-, -, rfl⟩ | ⟨-, rfl⟩ := execChanClose_cases h
  · exact RuleFrame.step (.of_internal ..)
  · exact ⟨_, .of_internal .., .inr ⟨_, chanClose_listed, .inr rfl⟩⟩
  · exact (RuleFrame.refl l t).step

/-- A command given while BUSY is an overrun, whichever it is (R455). -/
theorem exec_of_busy {i : Instr} (hi : i.isCommand = true) (hbusy : s.busy = true) : exec i s = .next s.overrun := by
  cases i with
  | rx p | timeout | chanClose | reset => cases hi
  | _ => unfold exec; exact issue_of_busy _ hbusy

/-- Every step of a command that is executed: the start of a session by OPEN, an illegal word's report, or a step within the
command's frame. -/
theorem exec_command_cases {i : Instr} (hi : i.isCommand = true) (hbusy : s.busy = false) (h : exec i s = .next t) :
    (∃ v, i = .openSession v ∧ t = (openState v s).complete) ∨
    (∃ w, i = .illegal w ∧ t = s.report ⟨.illegalCommand, (illegalSubcode w).getD 0⟩) ∨ StepFrame i.writes s t := by
  cases i with
  | rx p | timeout | chanClose | reset => cases hi
  | openSession v =>
    obtain ⟨e, he, rfl⟩ | ⟨-, rfl⟩ := execOpen_cases hbusy h
    · exact .inr (.inr (.of_report _ he))
    · exact .inl ⟨v, rfl, rfl⟩
  | illegal w => exact .inr (.inl ⟨w, rfl, execIllegal_eq hbusy h⟩)
  | send => exact .inr (.inr (execSend_frame _ hbusy h))
  | recv => exact .inr (.inr (execRecv_frame _ hbusy h))
  | finish => exact .inr (.inr (execFinish_frame _ hbusy h))
  | _ => exact .inr (.inr (exec_datapath_ends rfl hbusy h).frame)

/-- Every step of an event stays within its frame. -/
theorem exec_event_frame {i : Instr} (hi : i.isCommand = false) (hreset : i ≠ .reset) (h : exec i s = .next t) :
    StepFrame i.writes s t := by
  cases i with
  | rx p => exact execRx_frame h
  | timeout => exact execTimeout_frame _ h
  | chanClose => exact execChanClose_frame _ h
  | reset => exact absurd rfl hreset
  | _ => cases hi

/-- Every step but reset's: an overrun, the start of a session by OPEN, an illegal word's report, or a step within the
instruction's frame. -/
theorem exec_cases {i : Instr} (hreset : i ≠ .reset) (h : exec i s = .next t) :
    (i.isCommand = true ∧ s.status.op ≠ .none ∧ t = s.overrun) ∨
    ((i.isCommand = true → s.status.op = .none) ∧
      ((∃ v, i = .openSession v ∧ t = (openState v s).complete) ∨
       (∃ w, i = .illegal w ∧ t = s.report ⟨.illegalCommand, (illegalSubcode w).getD 0⟩) ∨ StepFrame i.writes s t)) := by
  cases hi : i.isCommand with
  | false => exact .inr ⟨nofun, .inr (.inr (exec_event_frame hi hreset h))⟩
  | true =>
    cases hbusy : s.busy with
    | true =>
      rw [exec_of_busy hi hbusy] at h
      exact .inl ⟨rfl, s.busy_eq_true.mp hbusy, (Host.Outcome.next.inj h).symm⟩
    | false => exact .inr ⟨fun _ => s.busy_eq_false.mp hbusy, exec_command_cases hi hbusy h⟩

end

end Sys2Proof.Machine

open Sys2Proof Sys2Proof.Machine

/-- Settles O13: an overrun sets both bits, an illegal word's report and the steps within a frame keep OVERRUN, and set
FAULT_SEEN exactly when they report an error. -/
theorem faultSeenAndOverrunAreSticky : Obligations.FaultSeenAndOverrunAreSticky := by
  intro i s t hreset h
  obtain ⟨hi, hop, rfl⟩ | ⟨hidle, ⟨v, rfl, rfl⟩ | ⟨w, rfl, rfl⟩ | hframe⟩ := exec_cases hreset h
  · exact ⟨fun _ => rfl, fun _ => rfl, fun _ => .inl rfl, fun _ _ => rfl, fun _ _ => rfl, fun _ _ => rfl,
      fun _ => .inr ⟨hi, hop⟩, fun _ => .inr (.inr ⟨hi, hop⟩)⟩
  · exact ⟨id, id, nofun, fun _ => nofun, fun h0 h1 => absurd (h0.symm.trans h1) nofun, fun hi hop => absurd (hidle hi) hop,
      .inl, .inl⟩
  · exact ⟨fun _ => rfl, id, fun _ => .inl rfl, fun _ _ => rfl, fun _ _ => rfl, fun hi hop => absurd (hidle hi) hop, .inl,
      fun _ => .inr (.inl nofun)⟩
  · rw [hframe.overrun]
    have hover : s.status.overrun = false → s.status.overrun = true → t.status.faultSeen = true :=
      fun h0 h1 => absurd (h0.symm.trans h1) nofun
    have hbusy : i.isCommand = true → s.status.op ≠ .none → s.status.overrun = true := fun hi hop => absurd (hidle hi) hop
    obtain ⟨hseen, ⟨herr, hinfo⟩ | ⟨herr, -⟩⟩ | ⟨hseen, herr, -⟩ := hframe.report_cases
    · rw [hseen] at hover ⊢
      rw [herr]
      exact ⟨id, id, fun _ => .inr ⟨rfl, hinfo⟩, fun h => h, hover, hbusy, .inl, .inl⟩
    · rw [hseen] at hover ⊢
      exact ⟨id, id, fun h => absurd herr h, fun _ h => absurd herr h, hover, hbusy, .inl, .inl⟩
    · exact ⟨fun _ => hseen, id, fun _ => .inl hseen, fun _ _ => hseen, hover, hbusy, .inl, fun _ => .inr (.inl herr)⟩

/-- Settles O14: reset keeps the parameters, OPEN's success writes the configuration from the operand ports, and every other
step keeps all three. -/
theorem configurationAndOperandPortsKeptByOtherSteps : Obligations.ConfigurationAndOperandPortsKeptByOtherSteps := by
  intro i s t h
  by_cases hreset : i = .reset
  · subst hreset
    cases h
    exact ⟨rfl, fun hr => absurd rfl hr, fun hr => absurd rfl hr, nofun⟩
  obtain ⟨-, -, rfl⟩ | ⟨-, ⟨v, rfl, rfl⟩ | ⟨w, -, rfl⟩ | hframe⟩ := exec_cases hreset h
  · exact ⟨rfl, fun _ => rfl, fun _ _ => rfl, fun _ _ => .inl rfl⟩
  · exact ⟨rfl, fun _ => rfl, fun _ hv => absurd rfl (hv v), by rintro _ ⟨⟩; exact .inr rfl⟩
  · exact ⟨rfl, fun _ => rfl, fun _ _ => rfl, fun _ _ => .inl rfl⟩
  · exact ⟨hframe.params, fun _ => hframe.ports, fun _ _ => hframe.cfg, fun _ _ => .inl hframe.cfg⟩

/-- Settles O16: reset names every port, and every other step writes only the ports of its frame. -/
theorem onlyNamedResultPortsAreWritten : Obligations.OnlyNamedResultPortsAreWritten := by
  intro i s t h
  have key : WritesOnly i.writes s.res t.res := by
    by_cases hreset : i = .reset
    · subst hreset
      simp [WritesOnly, Instr.writes]
    obtain ⟨-, -, rfl⟩ | ⟨-, ⟨v, -, rfl⟩ | ⟨w, -, rfl⟩ | hframe⟩ := exec_cases hreset h
    · exact .refl ..
    · exact .refl ..
    · exact .refl ..
    · exact hframe.results
  exact key

end

section
/-! PROOFS. The decoder answers well-formed instructions only, and an illegal word's sub-code is one of R401's (R80, R81). -/

namespace Sys2Proof.Machine

/-- R81's three sub-codes stand in R401's table. -/
theorem illegalSubcode_listed {w : BitVec 32} {c : BitVec 16} (h : illegalSubcode w = some c) :
    Raise.Listed ⟨.illegalCommand, c⟩ := by
  unfold illegalSubcode at h
  split_ifs at h <;> cases h <;> exact ⟨nofun, by decide⟩

/-- A word that fails one of R80's checks is a well-formed illegal word. -/
theorem illegal_wf_of_check {w : BitVec 32}
    (h : rsvField w ≠ 0 ∨ opcField w ∉ opcodeMap ∨ (opcField w = 0x40 ∧ 4 < (subopField w).toNat) ∨
      ((opcField w = 0x30 ∨ opcField w = 0x31) ∧ 5 < (subopField w).toNat) ∨
      ((opcField w ≠ 0x40 ∧ opcField w ≠ 0x30 ∧ opcField w ≠ 0x31) ∧ subopField w ≠ 0)) :
    (Instr.illegal w).wf = true := by
  change (illegalSubcode w).isSome = true
  unfold illegalSubcode
  split_ifs with h1 h2 h3 h4 h5
  case neg => exact absurd h (by tauto)
  all_goals rfl

theorem plainCommand_wf {w : BitVec 32} {opc : BitVec 8} {i : Instr} (hi : i.wf = true) (hw : opcField w = opc)
    (hopc : opc ≠ 0x40 ∧ opc ≠ 0x30 ∧ opc ≠ 0x31) : (plainCommand w i).wf = true := by
  subst hw
  unfold plainCommand
  split_ifs with hsub
  · exact hi
  · exact illegal_wf_of_check (.inr (.inr (.inr (.inr ⟨hopc, hsub⟩))))

theorem formatOf_elim_wf {w : BitVec 32} {k : Format → Instr} (hk : ∀ f, (k f).wf = true)
    (hopc : opcField w = 0x30 ∨ opcField w = 0x31) : ((formatOf (subopField w)).elim (.illegal w) k).wf = true := by
  have hnone : ∀ sub : BitVec 4, formatOf sub = none → 5 < sub.toNat := by decide
  cases hf : formatOf (subopField w) with
  | some f => exact hk f
  | none => exact illegal_wf_of_check (.inr (.inr (.inr (.inl ⟨hopc, hnone _ hf⟩))))

theorem versionOf_elim_wf {w : BitVec 32} {k : Version → Instr} (hk : ∀ v, (k v).wf = true) (hopc : opcField w = 0x40) :
    ((versionOf (subopField w)).elim (.illegal w) k).wf = true := by
  have hnone : ∀ sub : BitVec 4, versionOf sub = none → 4 < sub.toNat := by decide
  cases hv : versionOf (subopField w) with
  | some v => exact hk v
  | none => exact illegal_wf_of_check (.inr (.inr (.inl ⟨hopc, hnone _ hv⟩)))

theorem ite_wf {c : Prop} [Decidable c] {i j : Instr} (hi : c → i.wf = true) (hj : ¬ c → j.wf = true) :
    (if c then i else j).wf = true := by
  split <;> [exact hi ‹_›; exact hj ‹_›]

/-- A command word decodes to a well-formed instruction: where the decoder answers `illegal`, a check of R80 fails. -/
theorem decodeWord_wf (w : BitVec 32) : (decodeWord w).wf = true := by
  unfold decodeWord
  refine ite_wf (fun h => illegal_wf_of_check (.inl h)) fun _ => ?_
  iterate 9 refine ite_wf (fun h => plainCommand_wf rfl h (by decide)) fun _ => ?_
  refine ite_wf (fun h => formatOf_elim_wf (fun _ => rfl) (.inl h)) fun _ => ?_
  refine ite_wf (fun h => formatOf_elim_wf (fun _ => rfl) (.inr h)) fun _ => ?_
  iterate 3 refine ite_wf (fun h => plainCommand_wf rfl h (by decide)) fun _ => ?_
  refine ite_wf (fun h => versionOf_elim_wf (fun _ => rfl) h) fun _ => ?_
  iterate 3 refine ite_wf (fun h => plainCommand_wf rfl h (by decide)) fun _ => ?_
  refine illegal_wf_of_check (.inr (.inl ?_))
  simp_all [opcodeMap]

end Sys2Proof.Machine
end

section
/-! PROOFS. Every step keeps the invariant: what it says of the stored registers, of the waits and of the report, each kept by
the rules of the blocking operations, by every instruction, and by the host's port writes (R23 to R38, R71, R206, R248, R401). -/

namespace Sys2Proof.Machine

/-! ## The three parts of the invariant -/

/-- The clauses of `CoreInv` that hold in the middle of a rule too, whatever the state machines have reached. -/
structure RegsInv (s : State) : Prop where
  cause : s.status.endCause = .none ↔ s.status.sess ≠ .ended
  prob : s.cfg.prob.toNat ≤ 10000
  retries : 0 < s.cfg.retry.toNat → s.snd.retryCnt ≤ s.cfg.retry.toNat
  total : s.snd.total = s.snd.frags.length ∧ s.snd.total ≤ 9999 ∧ s.snd.idx ≤ s.snd.total
  frags : ∀ pay ∈ s.snd.frags, 1 ≤ pay.length ∧ pay.length ≤ s.packetDataLen
  rcvFit : s.rcv.Fit s.packetDataLen
  portsFit : s.ports.Fit
  resFit : s.res.Fit

/-- The clauses of `CoreInv` on the waits of SEND and RECV (R30, R35, R254). -/
structure WaitInv (s : State) : Prop where
  sending : s.status.op = .send →
    s.status.sndState = .waitForReply ∧ s.status.sess = .opened ∧ s.cfg.ver ≠ .v10 ∧
      ∃ pay, s.snd.frags[s.snd.idx]? = some pay ∧ s.snd.lastPkt = some (dataPacket s s.snd.idx pay)
  sndIdle : s.status.op ≠ .send → s.status.sndState = .idle
  receiving : s.status.op = .recv → s.status.rcvState = .waitForPacket ∧ s.status.sess = .opened
  rcvIdle : s.status.op ≠ .recv → s.status.rcvState = .idle

/-- The clauses of `CoreInv` on what is reported (R401, R38). -/
structure ReportInv (s : State) : Prop where
  report : s.errInfo ∈ s.status.err.subcodes
  seen : s.status.err ≠ .ok ∨ s.status.overrun = true → s.status.faultSeen = true

theorem CoreInv.regs {s : State} (h : CoreInv s) : RegsInv s :=
  { h with rcvFit := ⟨h.bufWf, h.rcvTotal, h.buffered⟩, portsFit := h.ports, resFit := h.results }

theorem CoreInv.waits {s : State} (h : CoreInv s) : WaitInv s := { h with }

theorem CoreInv.reported {s : State} (h : CoreInv s) : ReportInv s := { h with }

theorem CoreInv.of_parts {s : State} (hregs : RegsInv s) (hwaits : WaitInv s) (hreport : ReportInv s) : CoreInv s :=
  { hregs, hwaits, hreport with
    bufWf := hregs.rcvFit.wf, rcvTotal := hregs.rcvFit.total, buffered := hregs.rcvFit.entries
    ports := hregs.portsFit, results := hregs.resFit }

/-- With no operation in progress and both state machines idle, nothing is claimed of a wait. -/
theorem WaitInv.of_idle {s : State} (hop : s.status.op = .none) (hsnd : s.status.sndState = .idle)
    (hrcv : s.status.rcvState = .idle) : WaitInv s :=
  ⟨fun h => absurd (hop.symm.trans h) nofun, fun _ => hsnd, fun h => absurd (hop.symm.trans h) nofun, fun _ => hrcv⟩

theorem WaitInv.sndState_of_not_busy {s : State} (h : WaitInv s) (hop : s.status.op = .none) : s.status.sndState = .idle :=
  h.sndIdle (by simp [hop])

theorem WaitInv.rcvState_of_not_busy {s : State} (h : WaitInv s) (hop : s.status.op = .none) : s.status.rcvState = .idle :=
  h.rcvIdle (by simp [hop])

theorem ReportInv.complete {s : State} (h : ReportInv s) : ReportInv s.complete :=
  ⟨List.mem_singleton.mpr rfl, by rintro (he | ho); exacts [absurd rfl he, h.seen (.inr ho)]⟩

/-- A step within a frame reports what R401 lists and keeps FAULT_SEEN over every report (R38). -/
theorem StepFrame.reportInv {l : List ResultPort} {s t : State} (h : StepFrame l s t) (hs : ReportInv s) : ReportInv t := by
  obtain ⟨hseen, ⟨herr, hinfo⟩ | ⟨herr, hinfo⟩⟩ | ⟨hseen, -, hinfo⟩ := h.report_cases
  · exact ⟨by rw [hinfo, herr]; exact hs.report, by rw [herr, hseen, h.overrun]; exact hs.seen⟩
  · exact ⟨by rw [hinfo, herr]; exact List.mem_singleton.mpr rfl,
      by rw [herr, hseen, h.overrun]; rintro (he | ho); exacts [absurd rfl he, hs.seen (.inr ho)]⟩
  · exact ⟨hinfo, fun _ => hseen⟩

theorem RegsInv.endSession {s : State} (h : RegsInv s) {c : EndCause} (hc : c ≠ .none) : RegsInv (s.endSession c) :=
  { h with cause := by simpa using hc }

/-- A fatal raise ends the operation, and the session with a cause unless its rule has ended it (R402). -/
theorem RegsInv.raiseFatal {s : State} (h : RegsInv s) (e : Raise) : RegsInv (s.raiseFatal e) := by
  unfold State.raiseFatal
  split
  · exact RegsInv.endSession (s := (s.report e).endOperation) { h with } nofun
  · exact { h with }

theorem WaitInv.of_raiseFatal (s : State) (e : Raise) : WaitInv (s.raiseFatal e) := .of_idle (by simp) (by simp) (by simp)

/-! ## The rules of a blocking operation -/

/-- A rule that ends in a state of both parts, or raises from a state that keeps the registers' part. -/
def Flow.Safe (r : Flow) : Prop := r.Ends (fun t => RegsInv t ∧ WaitInv t) fun _ t => RegsInv t

theorem Flow.Safe.settle {r : Flow} {t : State} (hr : r.Safe) (h : r.settle = .next t) : RegsInv t ∧ WaitInv t := by
  obtain rfl | ⟨e, s, rfl, rfl⟩ := Flow.settle_eq_next h
  · exact hr
  · exact ⟨RegsInv.raiseFatal hr e, .of_raiseFatal s e⟩

/-- A SEND in progress in an open session of a version with replies, wherever its own state machine stands. -/
structure Sending (s : State) : Prop where
  op : s.status.op = .send
  sess : s.status.sess = .opened
  ver : s.cfg.ver ≠ .v10
  rcvState : s.status.rcvState = .idle

theorem WaitInv.isSending {s : State} (h : WaitInv s) (hop : s.status.op = .send) : Sending s := by
  obtain ⟨-, hsess, hver, -⟩ := h.sending hop
  exact ⟨hop, hsess, hver, h.rcvIdle (by simp [hop])⟩

/-- The fragment in flight is one of the message's (R31). -/
theorem WaitInv.idx_lt_total {s : State} (h : WaitInv s) (hregs : RegsInv s) (hop : s.status.op = .send) :
    s.snd.idx < s.snd.total := by
  obtain ⟨-, -, -, pay, hpay, -⟩ := h.sending hop
  obtain ⟨hlt, -⟩ := List.getElem?_eq_some_iff.mp hpay
  rwa [hregs.total.1]

/-- A first transmission of the fragment in flight begins its wait (R247, R249, R262). -/
theorem transmitFragment_safe {s : State} (hregs : RegsInv s) (hs : Sending s) : (transmitFragment s.snd.idx s).Safe := by
  have hregs' : ∀ p env st, RegsInv
      { s with
        snd := { s.snd with lastPkt := some p, retryCnt := 0 }, env := env, status := { s.status with sndState := st } } :=
    fun _ _ _ => { hregs with retries := fun _ => Nat.zero_le _ }
  obtain ⟨-, e⟩ | ⟨p, hp, ⟨d, q, -, e⟩ | ⟨-, d, e⟩⟩ := transmitFragment_cases s.snd.idx s <;> rw [e]
  · trivial
  · obtain ⟨pay, hpay, rfl⟩ := Option.map_eq_some_iff.mp hp
    exact ⟨hregs' .., fun _ => ⟨rfl, hs.sess, hs.ver, pay, hpay, rfl⟩, fun h => absurd hs.op h,
      fun h => absurd (hs.op.symm.trans h) nofun, fun _ => hs.rcvState⟩
  · exact hregs' p _ s.status.sndState

theorem retransmit_safe {s : State} (why : Why) (hregs : RegsInv s) (hwaits : WaitInv s) : (retransmit why s).Safe := by
  obtain ⟨-, -, e⟩ | ⟨hcount, ⟨-, e⟩ | ⟨p, -, ⟨d, q, -, e⟩ | ⟨-, d, e⟩⟩⟩ := retransmit_cases why s <;> rw [e]
  · exact hregs
  · trivial
  · exact ⟨{ hregs with retries := hcount }, { hwaits with }⟩
  · exact { hregs with retries := hcount }

/-- The next fragment, or the end of the SEND: SND_IDX moves by one and stays within SND_TOTAL (R249, R24). -/
theorem advance_safe {s : State} (hregs : RegsInv s) (hs : Sending s) (hidx : s.snd.idx < s.snd.total) : (advance s).Safe := by
  obtain ⟨htotal, hle, -⟩ := hregs.total
  obtain ⟨-, e⟩ | ⟨-, e⟩ := advance_cases s <;> rw [e]
  · exact ⟨{ hregs with total := ⟨htotal, hle, hidx⟩ }, .of_idle rfl rfl hs.rcvState⟩
  · exact transmitFragment_safe { hregs with total := ⟨htotal, hle, hidx⟩ } { hs with }

theorem rxRule_send_safe (p : ByteStr) {s : State} (hregs : RegsInv s) (hwaits : WaitInv s) (hop : s.status.op = .send) :
    (rxRule p s).Safe := by
  obtain ⟨-, e⟩ | ⟨c, -, e⟩ | e | ⟨why, e⟩ | ⟨b, e⟩ := rxRule_send_cases p hop <;> rw [e]
  · trivial
  · exact hregs
  · exact hregs.endSession nofun
  · exact retransmit_safe why hregs hwaits
  · exact advance_safe { hregs with } { hwaits.isSending hop with } (hwaits.idx_lt_total hregs hop)

/-- Both parts of the invariant while a RECV is in progress. -/
structure ReceivingInv (s : State) : Prop where
  op : s.status.op = .recv
  regs : RegsInv s
  waits : WaitInv s

theorem bufferFragment_ends {s : State} (h : Hdr) (hs : ReceivingInv s) :
    (bufferFragment h s).Ends ReceivingInv fun _ t => RegsInv t := by
  obtain ⟨c, -, e⟩ | ⟨-, e⟩ | ⟨h1, hst, ht, htotal, hpay, -, e⟩ := bufferFragment_cases h s <;> rw [e]
  · exact hs.regs
  · exact hs
  · exact ⟨hs.op, { hs.regs with rcvFit := hs.regs.rcvFit.insert h1 hst ht htotal hpay }, { hs.waits with }⟩

theorem sendReply_ends {s : State} (p : ByteStr) (inj : Bool) (hs : ReceivingInv s) :
    (sendReply p inj s).Ends ReceivingInv fun _ t => RegsInv t := by
  obtain ⟨d, q, -, e⟩ | ⟨-, -, d, e⟩ := sendReply_cases p inj s <;> rw [e]
  · exact ⟨hs.op, { hs.regs with }, { hs.waits with }⟩
  · exact { hs.regs with }

/-- The delivered message is within MAXLEN, and the RECV is over (R250, R71). -/
theorem deliver_safe {s : State} (hs : ReceivingInv s) : (Flow.done (deliver s)).Safe := by
  obtain ⟨-, e⟩ | ⟨-, e⟩ := deliver_cases s <;> rw [e]
  · obtain ⟨-, hrv, hrl⟩ := hs.regs.resFit
    exact ⟨{ hs.regs with resFit := ⟨reassemble_length_le_maxLen hs.regs.rcvFit, hrv, hrl⟩ },
      .of_idle rfl (hs.waits.sndIdle (by simp [hs.op])) rfl⟩
  · exact ⟨hs.regs, hs.waits⟩

theorem newFragment_safe {s : State} (k : Reply) (h : Hdr) (hs : ReceivingInv s) : (newFragment k h s).Safe :=
  (bufferFragment_ends h hs).andThen fun t ht =>
    have hbit : ReceivingInv { t with rcv := { t.rcv with bit := !t.rcv.bit } } :=
      ⟨ht.op, { ht.regs with rcvFit := { ht.regs.rcvFit with } }, { ht.waits with }⟩
    (sendReply_ends _ _ hbit).andThen fun _ => deliver_safe

theorem rxRule_recv_safe (p : ByteStr) {s : State} (hs : ReceivingInv s) : (rxRule p s).Safe := by
  obtain ⟨c, -, e⟩ | e | e | ⟨q, inj, e⟩ | ⟨h, e⟩ | ⟨h, e⟩ | ⟨k, h, e⟩ := rxRule_recv_cases p hs.op <;> rw [e]
  · exact hs.regs
  · exact hs.regs.endSession nofun
  · exact ⟨hs.regs, hs.waits⟩
  · have hreply := sendReply_ends q inj hs
    cases hr : sendReply q inj s with
    | done t => rw [hr] at hreply; exact ⟨hreply.regs, hreply.waits⟩
    | raise e t => rw [hr] at hreply; exact hreply
    | stuck f => trivial
  · exact (bufferFragment_ends h hs).andThen fun _ => deliver_safe
  · exact (bufferFragment_ends h hs).andThen fun _ ht => (sendReply_ends _ _ ht).andThen fun _ => deliver_safe
  · exact newFragment_safe k h hs

theorem rxRule_safe (p : ByteStr) {s : State} (hregs : RegsInv s) (hwaits : WaitInv s) : (rxRule p s).Safe := by
  cases hop : s.status.op with
  | none => rw [rxRule, hop]; exact ⟨hregs, hwaits⟩
  | send => exact rxRule_send_safe p hregs hwaits hop
  | recv => exact rxRule_recv_safe p ⟨hop, hregs, hwaits⟩

theorem timeoutRule_safe {s : State} (hregs : RegsInv s) (hwaits : WaitInv s) : (timeoutRule s).Safe := by
  unfold timeoutRule
  cases s.status.op with
  | send => exact retransmit_safe .timeout hregs hwaits
  | recv | none => exact ⟨hregs, hwaits⟩

/-- SEND loads the message's fragments, within 9999 and PACKET_DATA_LEN (R241, R204, R31). -/
theorem loadMessage_regs {s : State} (hregs : RegsInv s)
    (hlen : (fragment s.ports.a s.packetDataLen).length ≤ 9999) :
    RegsInv (loadMessage (fragment s.ports.a s.packetDataLen) s) :=
  { hregs with
    retries := fun _ => Nat.zero_le _
    total := ⟨rfl, hlen, Nat.zero_le _⟩
    frags := fun _ => fragment_mem_length s.one_le_packetDataLen }

theorem sendMessage_safe {s : State} (hregs : RegsInv s) (hwaits : WaitInv s) (hop : s.status.op = .none)
    (hsess : s.status.sess = .opened) : (sendMessage s).Safe := by
  have hsnd := hwaits.sndState_of_not_busy hop
  have hrcv := hwaits.rcvState_of_not_busy hop
  unfold sendMessage
  dsimp only
  split_ifs with hmany hempty hver
  · exact hregs
  · exact ⟨{ loadMessage_regs hregs (Nat.le_of_not_lt hmany) with }, .of_idle hop hsnd hrcv⟩
  · have hload := loadMessage_regs hregs (Nat.le_of_not_lt hmany)
    exact ⟨{ hload with total := ⟨hload.total.1, hload.total.2.1, le_rfl⟩ }, .of_idle hop hsnd hrcv⟩
  · exact transmitFragment_safe { loadMessage_regs hregs (Nat.le_of_not_lt hmany) with } ⟨rfl, hsess, hver, hrcv⟩

/-! ## The instructions -/

section
variable {s t : State}

/-- A report changes neither part. -/
theorem report_keeps (e : Raise) (hregs : RegsInv s) (hwaits : WaitInv s) :
    RegsInv (s.report e) ∧ WaitInv (s.report e) := ⟨{ hregs with }, { hwaits with }⟩

theorem DatapathEnds.keeps {i : Instr} (h : DatapathEnds i s t) (hregs : RegsInv s) (hwaits : WaitInv s) :
    RegsInv t ∧ WaitInv t := by
  obtain ⟨e, d, -, rfl⟩ | ⟨d, rc, res, hw, rfl⟩ := h
  · exact ⟨{ hregs with }, { hwaits with }⟩
  · exact ⟨{ hregs with
      rcvFit := hw.rcvFit hregs.rcvFit
      resFit := hw.resFit hregs.portsFit hregs.rcvFit hregs.resFit }, { hwaits with }⟩

theorem execOpen_keeps {v : Version} (hbusy : s.busy = false) (h : execOpen v s = .next t) (hregs : RegsInv s)
    (hwaits : WaitInv s) : RegsInv t ∧ WaitInv t := by
  obtain ⟨e, -, rfl⟩ | ⟨hprob, rfl⟩ := execOpen_cases hbusy h
  · exact report_keeps e hregs hwaits
  · refine ⟨?_, .of_idle (s.busy_eq_false.mp hbusy) rfl rfl⟩
    exact
      { cause := ⟨fun _ => nofun, fun _ => rfl⟩
        prob := hprob
        retries := fun _ => Nat.zero_le _
        total := ⟨rfl, Nat.zero_le _, le_rfl⟩
        frags := nofun
        rcvFit := .empty _ _
        portsFit := hregs.portsFit
        resFit := hregs.resFit }

theorem execSend_keeps (hbusy : s.busy = false) (h : execSend s = .next t) (hregs : RegsInv s) (hwaits : WaitInv s) :
    RegsInv t ∧ WaitInv t := by
  obtain ⟨e, -, rfl⟩ | ⟨hsess, h⟩ := inSession_cases (issue_next_of_not_busy hbusy h)
  · exact report_keeps e hregs hwaits
  · exact (sendMessage_safe hregs hwaits (s.busy_eq_false.mp hbusy) hsess).settle h

theorem execRecv_keeps (hbusy : s.busy = false) (h : execRecv s = .next t) (hregs : RegsInv s) (hwaits : WaitInv s) :
    RegsInv t ∧ WaitInv t := by
  obtain ⟨e, -, rfl⟩ | ⟨hsess, h⟩ := inSession_cases (issue_next_of_not_busy hbusy h)
  · exact report_keeps e hregs hwaits
  · cases h
    exact ⟨{ hregs with rcvFit := .empty _ _ }, nofun,
      fun _ => hwaits.sndState_of_not_busy (s.busy_eq_false.mp hbusy), fun _ => ⟨rfl, hsess⟩, fun h => absurd rfl h⟩

theorem execFinish_keeps (hbusy : s.busy = false) (h : execFinish s = .next t) (hregs : RegsInv s) (hwaits : WaitInv s) :
    RegsInv t ∧ WaitInv t := by
  have hop := s.busy_eq_false.mp hbusy
  obtain ⟨e, -, rfl⟩ | ⟨-, h⟩ := inSession_cases (issue_next_of_not_busy hbusy h)
  · exact report_keeps e hregs hwaits
  · cases h
    exact ⟨{ hregs.endSession (c := .finSent) nofun with },
      .of_idle hop (hwaits.sndState_of_not_busy hop) (hwaits.rcvState_of_not_busy hop)⟩

theorem execChanClose_keeps (h : execChanClose s = .next t) (hregs : RegsInv s) (hwaits : WaitInv s) :
    RegsInv t ∧ WaitInv t := by
  have hended : RegsInv (s.endSession .channelClosed) := hregs.endSession nofun
  obtain ⟨-, hop, rfl⟩ | ⟨-, -, rfl⟩ | ⟨-, rfl⟩ := execChanClose_cases h
  · exact ⟨hended, .of_idle hop (hwaits.sndState_of_not_busy hop) (hwaits.rcvState_of_not_busy hop)⟩
  · exact ⟨hended.raiseFatal _, .of_raiseFatal _ _⟩
  · exact ⟨hregs, hwaits⟩

/-- A command that is executed keeps both parts. -/
theorem exec_command_keeps {i : Instr} (hi : i.isCommand = true) (hbusy : s.busy = false) (h : exec i s = .next t)
    (hregs : RegsInv s) (hwaits : WaitInv s) : RegsInv t ∧ WaitInv t := by
  cases i with
  | rx p | timeout | chanClose | reset => cases hi
  | openSession v => exact execOpen_keeps hbusy h hregs hwaits
  | illegal w =>
    obtain rfl := execIllegal_eq hbusy h
    exact report_keeps _ hregs hwaits
  | send => exact execSend_keeps hbusy h hregs hwaits
  | recv => exact execRecv_keeps hbusy h hregs hwaits
  | finish => exact execFinish_keeps hbusy h hregs hwaits
  | _ => exact (exec_datapath_ends rfl hbusy h).keeps hregs hwaits

/-- An event keeps both parts. -/
theorem exec_event_keeps {i : Instr} (hi : i.isCommand = false) (hreset : i ≠ .reset) (h : exec i s = .next t)
    (hregs : RegsInv s) (hwaits : WaitInv s) : RegsInv t ∧ WaitInv t := by
  cases i with
  | rx p =>
    obtain ⟨-, h⟩ | ⟨-, rfl⟩ := execRx_cases h
    · exact (rxRule_safe p hregs hwaits).settle h
    · exact ⟨{ hregs with }, { hwaits with }⟩
  | timeout =>
    obtain ⟨-, h⟩ | ⟨-, rfl⟩ := execTimeout_cases h
    · exact (timeoutRule_safe hregs hwaits).settle h
    · exact ⟨hregs, hwaits⟩
  | chanClose => exact execChanClose_keeps h hregs hwaits
  | reset => exact absurd rfl hreset
  | _ => cases hi

/-- R41's values meet the invariant whatever the environment and the parameters are. -/
theorem coreInv_of_reset (env : Env) (params : Params) : CoreInv { State.reset with env := env, params := params } where
  report := List.mem_singleton.mpr rfl
  seen := nofun
  cause := ⟨fun _ => nofun, fun _ => rfl⟩
  sending := nofun
  sndIdle := fun _ => rfl
  receiving := nofun
  rcvIdle := fun _ => rfl
  prob := Nat.zero_le _
  retries := fun _ => Nat.zero_le _
  total := ⟨rfl, Nat.zero_le _, le_rfl⟩
  frags := nofun
  bufWf := .nil
  rcvTotal := nofun
  buffered := nofun
  ports := ⟨Nat.zero_le _, Nat.zero_le _⟩
  results := ⟨Nat.zero_le _, Nat.zero_le _, Nat.zero_le _⟩

/-- An overrun sets the two sticky bits together (R455, R38). -/
theorem CoreInv.overrun (h : CoreInv s) : CoreInv s.overrun := { h with seen := fun _ => rfl }

/-- ERR and ERR_INFO after a well-formed instruction are a pair of R401's table, and FAULT_SEEN is set over every report. -/
theorem exec_keeps_reportInv {i : Instr} (hwf : i.wf = true) (hreset : i ≠ .reset) (h : exec i s = .next t)
    (hs : ReportInv s) : ReportInv t := by
  obtain ⟨-, -, rfl⟩ | ⟨-, ⟨v, -, rfl⟩ | ⟨w, rfl, rfl⟩ | hframe⟩ := exec_cases hreset h
  · exact { hs with seen := fun _ => rfl }
  · exact ReportInv.complete (s := openState v s) { hs with }
  · obtain ⟨c, hc⟩ := Option.isSome_iff_exists.mp hwf
    obtain ⟨-, hinfo⟩ := illegalSubcode_listed hc
    exact ⟨by simpa [hc] using hinfo, fun _ => rfl⟩
  · exact hframe.reportInv hs

/-- Every well-formed instruction keeps the invariant. -/
theorem exec_keeps_inv {i : Instr} (hwf : i.wf = true) (hs : CoreInv s) (h : exec i s = .next t) : CoreInv t := by
  by_cases hreset : i = .reset
  · subst hreset
    cases h
    exact coreInv_of_reset s.env s.params
  have hreport := exec_keeps_reportInv hwf hreset h hs.reported
  cases hi : i.isCommand with
  | false =>
    obtain ⟨hregs, hwaits⟩ := exec_event_keeps hi hreset h hs.regs hs.waits
    exact .of_parts hregs hwaits hreport
  | true =>
    cases hbusy : s.busy with
    | true =>
      rw [exec_of_busy hi hbusy] at h
      cases h
      exact hs.overrun
    | false =>
      obtain ⟨hregs, hwaits⟩ := exec_command_keeps hi hbusy h hs.regs hs.waits
      exact .of_parts hregs hwaits hreport

/-! ## The step -/

/-- The input a step takes can be taken (R255 to R257, R71). -/
theorem inputEnabled_of_takeEnabled {inp : Input} {l rest : List Input} (h : takeEnabled s l = some (inp, rest)) :
    inputEnabled s inp = true := by
  induction l generalizing rest with
  | nil => cases h
  | cons x xs ih =>
    unfold takeEnabled at h
    split at h
    · cases h; assumption
    · obtain ⟨⟨inp', rest'⟩, htake, e⟩ := Option.map_eq_some_iff.mp h
      cases e
      exact ih htake

/-- CMD and the environment are no part of the invariant. -/
theorem CoreInv.write_cmd (h : CoreInv s) (c : BitVec 32) (l : List Input) :
    CoreInv { s.setPending l with cmd := c } := { h with }

/-- A host write within R71's lengths keeps the invariant (R70). -/
theorem CoreInv.write_ports (h : CoreInv s) (l : List Input) {p : OperandPorts} (hp : p.Fit) :
    CoreInv { s.setPending l with ports := p } := { h with ports := hp }

end

/-- An event's instruction is well-formed where it can be taken (R94, R71). -/
theorem decodeEvent_wf {s : State} {code : BitVec 8} {data : ByteStr} {i : Instr} (hdec : decodeEvent code data = .ok i)
    (hen : inputEnabled s (.event code data) = true) : i.wf = true := by
  cases i with
  | rx p =>
    simp only [inputEnabled, hdec, Bool.and_eq_true] at hen
    exact hen.2
  | illegal w => simp [inputEnabled, hdec] at hen
  | _ => rfl

/-- What a taken input runs: a well-formed instruction, on a state that differs in CMD at most (R21, R94). -/
theorem accept_run {inp : Input} {s t : State} {i : Instr} (hen : inputEnabled s inp = true) (l : List Input)
    (h : accept inp (s.setPending l) = .run i t) : i.wf = true ∧ ∃ c, t = { s.setPending l with cmd := c } := by
  cases inp with
  | cmdWrite w => cases h; exact ⟨decodeWord_wf w, w, rfl⟩
  | event code data =>
    cases hdec : decodeEvent code data with
    | ok j =>
      rw [accept_event_of_decode _ hdec] at h
      cases h
      exact ⟨decodeEvent_wf hdec hen, s.cmd, rfl⟩
    | error e => simp only [accept, hdec] at h; cases h
  | resetLine => cases h; exact ⟨rfl, s.cmd, rfl⟩
  | writeA b | writeV v | writeArg port x => cases h

/-- What a taken port write leaves: the operand ports, still within R71's lengths (R70). -/
theorem accept_portWritten {inp : Input} {s t : State} (hen : inputEnabled s inp = true) (l : List Input)
    (hports : s.ports.Fit) (h : accept inp (s.setPending l) = .portWritten t) :
    ∃ p : OperandPorts, p.Fit ∧ t = { s.setPending l with ports := p } := by
  cases inp with
  | writeA b =>
    simp only [inputEnabled, decide_eq_true_eq] at hen
    cases h
    exact ⟨{ s.ports with a := b }, ⟨hen, hports.2⟩, rfl⟩
  | writeV v =>
    simp only [inputEnabled, decide_eq_true_eq] at hen
    cases h
    exact ⟨{ s.ports with v := v }, ⟨hports.1, hen⟩, rfl⟩
  | writeArg port x => cases h; exact ⟨_, by cases port <;> exact hports, rfl⟩
  | cmdWrite w | resetLine => cases h
  | event code data => simp only [accept] at h; split at h <;> cases h

end Sys2Proof.Machine
open Sys2Proof Sys2Proof.Machine

/-- Settles O9: the step idles, or a port write within R71's lengths is taken, or a well-formed instruction runs on a state
that differs in CMD and the environment alone; `exec_keeps_inv` is the case of the instructions. -/
theorem everyStepKeepsInv : Obligations.EveryStepKeepsInv := by
  intro s t hs h
  unfold step fetch at h
  cases htake : takeEnabled s s.env.pending with
  | none => rw [htake] at h; cases h; exact hs
  | some taken =>
    obtain ⟨inp, rest⟩ := taken
    rw [htake] at h
    have hen := inputEnabled_of_takeEnabled htake
    cases hacc : accept inp (s.setPending rest) with
    | idle => simp only [hacc] at h; cases h; exact hs
    | portWritten s' =>
      obtain ⟨p, hp, rfl⟩ := accept_portWritten hen rest hs.ports hacc
      simp only [hacc] at h
      cases h
      exact hs.write_ports rest hp
    | run i s' =>
      obtain ⟨hwf, c, rfl⟩ := accept_run hen rest hacc
      simp only [hacc] at h
      exact exec_keeps_inv hwf (hs.write_cmd c rest) h

/-- Settles O8. -/
theorem resetStateMeetsInv : Obligations.ResetStateMeetsInv :=
  coreInv_of_reset State.reset.env State.reset.params

end

section
/-! PROOFS. The STATUS register: where each field stands (R25), and the numbers of the codes (R401). -/

namespace Sys2Proof.Machine

/-- The one-bit fields of STATUS at their bits (R25). -/
theorem statusWord_bits (s : State) :
    s.statusWord.getLsbD 8 = s.busy ∧ s.statusWord.getLsbD 9 = s.status.faultSeen ∧
    s.statusWord.getLsbD 10 = s.status.overrun ∧ s.statusWord.getLsbD 18 = s.status.sndState.value ∧
    s.statusWord.getLsbD 19 = s.status.rcvState.value ∧ s.statusWord.getLsbD 20 = s.snd.bit ∧
    s.statusWord.getLsbD 21 = s.rcv.bit := by
  simp only [State.statusWord, BitVec.getLsbD_append, BitVec.getLsbD_ofBool, Nat.reduceLT, Nat.reduceSub, reduceIte,
    decide_true, Bool.true_and, and_self]

/-- The wider fields of STATUS at their bits, the fields below each dropped one by one (R25). -/
theorem statusWord_fields (s : State) :
    s.statusWord.extractLsb' 0 8 = s.status.err.value ∧ s.statusWord.extractLsb' 11 2 = s.status.sess.value ∧
    s.statusWord.extractLsb' 13 3 = s.status.endCause.value ∧ s.statusWord.extractLsb' 16 2 = s.status.op.value ∧
    s.statusWord.extractLsb' 22 10 = 0 := by
  unfold State.statusWord
  refine ⟨BitVec.extractLsb'_append_eq_right, ?_, ?_, ?_, ?_⟩
  · iterate 4 refine (BitVec.extractLsb'_append_eq_of_le (by decide)).trans ?_
    exact BitVec.extractLsb'_append_eq_right
  · iterate 5 refine (BitVec.extractLsb'_append_eq_of_le (by decide)).trans ?_
    exact BitVec.extractLsb'_append_eq_right
  · iterate 6 refine (BitVec.extractLsb'_append_eq_of_le (by decide)).trans ?_
    exact BitVec.extractLsb'_append_eq_right
  · iterate 11 refine (BitVec.extractLsb'_append_eq_of_le (by decide)).trans ?_
    exact BitVec.extractLsb'_eq_self

theorem SndState.value_eq (st : SndState) : st.value = decide (st = .waitForReply) := by cases st <;> rfl

theorem RcvState.value_eq (st : RcvState) : st.value = decide (st = .waitForPacket) := by cases st <;> rfl

end Sys2Proof.Machine

open Sys2Proof Sys2Proof.Machine

/-- Settles O60: each field is cut out of the concatenation at its bits, and each code's number read off its table. -/
theorem statusWordPlacesEveryField : Obligations.StatusWordPlacesEveryField := by
  intro s w
  obtain ⟨hbusy, hseen, hoverrun, hsnd, hrcv, hsndBit, hrcvBit⟩ := statusWord_bits s
  obtain ⟨herr, hsess, hcause, hop, hreserved⟩ := statusWord_fields s
  refine ⟨herr.trans ?_, hbusy, hseen, hoverrun, hsess.trans ?_, hcause.trans ?_, hop.trans ?_,
    hsnd.trans s.status.sndState.value_eq, hrcv.trans s.status.rcvState.value_eq, hsndBit, hrcvBit, hreserved⟩
  · cases s.status.err <;> rfl
  · cases s.status.sess <;> rfl
  · cases s.status.endCause <;> rfl
  · cases s.status.op <;> rfl

end

section
/-! PROOFS. The channel's transmit side: what a rule of a blocking operation emits goes after what is already there (R66),
and only a step from an open session emits (R241 to R243, R257, R408). -/

namespace Sys2Proof.Machine

/-! ## The rules of a blocking operation -/

/-- A rule that leaves the packets emitted before it where they are, whether it runs to its end or raises. -/
def Flow.ExtendsTx (s : State) (r : Flow) : Prop :=
  r.Ends (fun t => s.env.tx <+: t.env.tx) fun _ t => s.env.tx <+: t.env.tx

theorem Flow.ExtendsTx.trans {s t : State} {r : Flow} (hst : s.env.tx <+: t.env.tx) (hr : r.ExtendsTx t) :
    r.ExtendsTx s := by
  cases r with
  | done u | raise e u => exact List.IsPrefix.trans hst hr
  | stuck f => trivial

/-- What a rule writes before another rule, other than to the transmit side, does not matter. -/
theorem Flow.ExtendsTx.of_tx_eq {s t : State} {r : Flow} (hr : r.ExtendsTx t) (h : t.env.tx = s.env.tx) : r.ExtendsTx s :=
  hr.trans (by rw [h])

theorem Flow.ExtendsTx.andThen {s : State} {r : Flow} {k : State → Flow} (hr : r.ExtendsTx s)
    (hk : ∀ t, (k t).ExtendsTx t) : (r.andThen k).ExtendsTx s :=
  Flow.Ends.andThen hr fun t ht => (hk t).trans ht

/-- A fatal raise keeps what its rule has emitted (R402). -/
theorem Flow.ExtendsTx.settle {s t : State} {r : Flow} (hr : r.ExtendsTx s) (h : r.settle = .next t) :
    s.env.tx <+: t.env.tx := by
  obtain rfl | ⟨e, u, rfl, rfl⟩ := Flow.settle_eq_next h
  · exact hr
  · rw [State.raiseFatal_env]; exact hr

section
variable (s : State)

theorem retransmit_extendsTx (why : Why) : (retransmit why s).ExtendsTx s := by
  obtain ⟨-, -, e⟩ | ⟨-, ⟨-, e⟩ | ⟨p, -, ⟨d, q, -, e⟩ | ⟨-, d, e⟩⟩⟩ := retransmit_cases why s <;> rw [e]
  · exact List.prefix_rfl
  · trivial
  · exact List.prefix_append s.env.tx [q]
  · exact List.prefix_rfl

theorem transmitFragment_extendsTx (i : Nat) : (transmitFragment i s).ExtendsTx s := by
  obtain ⟨-, e⟩ | ⟨p, -, ⟨d, q, -, e⟩ | ⟨-, d, e⟩⟩ := transmitFragment_cases i s <;> rw [e]
  · trivial
  · exact List.prefix_append s.env.tx [q]
  · exact List.prefix_rfl

theorem advance_extendsTx : (advance s).ExtendsTx s := by
  obtain ⟨-, e⟩ | ⟨-, e⟩ := advance_cases s <;> rw [e]
  · exact List.prefix_rfl
  · exact (transmitFragment_extendsTx _ _).of_tx_eq rfl

theorem sendReply_extendsTx (p : ByteStr) (inj : Bool) : (sendReply p inj s).ExtendsTx s := by
  obtain ⟨d, q, -, e⟩ | ⟨-, -, d, e⟩ := sendReply_cases p inj s <;> rw [e]
  · exact List.prefix_append s.env.tx [q]
  · exact List.prefix_rfl

theorem bufferFragment_extendsTx (h : Hdr) : (bufferFragment h s).ExtendsTx s := by
  obtain ⟨c, -, e⟩ | ⟨-, e⟩ | ⟨-, -, -, -, -, -, e⟩ := bufferFragment_cases h s <;> rw [e] <;> exact List.prefix_rfl

theorem deliver_extendsTx : (Flow.done (deliver s)).ExtendsTx s := by
  obtain ⟨-, e⟩ | ⟨-, e⟩ := deliver_cases s <;> rw [e] <;> exact List.prefix_rfl

theorem newFragment_extendsTx (k : Reply) (h : Hdr) : (newFragment k h s).ExtendsTx s :=
  (bufferFragment_extendsTx s h).andThen fun _ => (sendReply_extendsTx _ _ _).andThen deliver_extendsTx

theorem rxRule_send_extendsTx (p : ByteStr) (hop : s.status.op = .send) : (rxRule p s).ExtendsTx s := by
  obtain ⟨-, e⟩ | ⟨c, -, e⟩ | e | ⟨why, e⟩ | ⟨b, e⟩ := rxRule_send_cases p hop <;> rw [e]
  · trivial
  · exact List.prefix_rfl
  · exact List.prefix_rfl
  · exact retransmit_extendsTx s why
  · exact (advance_extendsTx _).of_tx_eq rfl

theorem rxRule_recv_extendsTx (p : ByteStr) (hop : s.status.op = .recv) : (rxRule p s).ExtendsTx s := by
  obtain ⟨c, -, e⟩ | e | e | ⟨q, inj, e⟩ | ⟨h, e⟩ | ⟨h, e⟩ | ⟨k, h, e⟩ := rxRule_recv_cases p hop <;> rw [e]
  · exact List.prefix_rfl
  · exact List.prefix_rfl
  · exact List.prefix_rfl
  · exact sendReply_extendsTx s q inj
  · exact (bufferFragment_extendsTx s h).andThen deliver_extendsTx
  · exact (bufferFragment_extendsTx s h).andThen fun t => (sendReply_extendsTx t _ _).andThen deliver_extendsTx
  · exact newFragment_extendsTx s k h

theorem rxRule_extendsTx (p : ByteStr) : (rxRule p s).ExtendsTx s := by
  cases hop : s.status.op with
  | none => rw [rxRule, hop]; exact List.prefix_rfl
  | send => exact rxRule_send_extendsTx s p hop
  | recv => exact rxRule_recv_extendsTx s p hop

theorem timeoutRule_extendsTx : (timeoutRule s).ExtendsTx s := by
  unfold timeoutRule
  cases s.status.op with
  | send => exact retransmit_extendsTx s .timeout
  | recv | none => exact List.prefix_rfl

/-- SEND emits every packet of a version 1.0 message (R280), and otherwise the first one, if any (R241). -/
theorem sendMessage_extendsTx : (sendMessage s).ExtendsTx s := by
  unfold sendMessage
  dsimp only
  split_ifs
  · exact List.prefix_rfl
  · exact List.prefix_rfl
  · exact List.prefix_append s.env.tx _
  · exact (transmitFragment_extendsTx _ _).of_tx_eq rfl

end

/-! ## The instructions -/

/-- RX is enabled only while an operation is in progress (R255). -/
theorem State.op_ne_none_of_waiting {s : State} (h : s.waiting = true) : s.status.op ≠ .none := by
  intro hop
  simp [State.waiting, hop] at h

/-- TIMEOUT is enabled only while an operation is in progress (R256). -/
theorem State.op_ne_none_of_timedWait {s : State} (h : s.timedWait = true) : s.status.op ≠ .none := by
  intro hop
  simp [State.timedWait, hop] at h

/-- An operation in progress has an open session (R30, R35). -/
theorem WaitInv.opened_of_op_ne_none {s : State} (h : WaitInv s) (hop : s.status.op ≠ .none) :
    s.status.sess = .opened := by
  cases ho : s.status.op with
  | none => exact absurd ho hop
  | send => exact (h.isSending ho).sess
  | recv => exact (h.receiving ho).2

/-- A step that takes no emitted packet back, and emits only if it starts in an open session. -/
def EmitsIfOpened (s t : State) : Prop :=
  ∃ out : List ByteStr, t.env.tx = s.env.tx ++ out ∧ (out ≠ [] → s.status.sess = .opened)

section
variable {s t : State}

theorem EmitsIfOpened.of_tx_eq (h : t.env.tx = s.env.tx) : EmitsIfOpened s t :=
  ⟨[], by rw [h, List.append_nil], absurd rfl⟩

theorem EmitsIfOpened.of_opened (hsess : s.status.sess = .opened) (h : s.env.tx <+: t.env.tx) : EmitsIfOpened s t := by
  obtain ⟨out, hout⟩ := h
  exact ⟨out, hout.symm, fun _ => hsess⟩

/-- A datapath command emits nothing (R66). -/
theorem DatapathEnds.tx_eq {i : Instr} (h : DatapathEnds i s t) : t.env.tx = s.env.tx := by
  obtain ⟨e, d, -, rfl⟩ | ⟨d, rc, res, -, rfl⟩ := h <;> rfl

theorem execOpen_tx_eq {v : Version} (hbusy : s.busy = false) (h : execOpen v s = .next t) : t.env.tx = s.env.tx := by
  obtain ⟨e, -, rfl⟩ | ⟨-, rfl⟩ := execOpen_cases hbusy h <;> rfl

theorem execSend_emitsIfOpened (hbusy : s.busy = false) (h : execSend s = .next t) : EmitsIfOpened s t := by
  obtain ⟨e, -, rfl⟩ | ⟨hsess, h⟩ := inSession_cases (issue_next_of_not_busy hbusy h)
  · exact .of_tx_eq rfl
  · exact .of_opened hsess ((sendMessage_extendsTx s).settle h)

theorem execRecv_tx_eq (hbusy : s.busy = false) (h : execRecv s = .next t) : t.env.tx = s.env.tx := by
  obtain ⟨e, -, rfl⟩ | ⟨-, h⟩ := inSession_cases (issue_next_of_not_busy hbusy h)
  · rfl
  · cases h; rfl

/-- FINISH in an open session emits the FIN packet (R243). -/
theorem execFinish_emitsIfOpened (hbusy : s.busy = false) (h : execFinish s = .next t) : EmitsIfOpened s t := by
  obtain ⟨e, -, rfl⟩ | ⟨hsess, h⟩ := inSession_cases (issue_next_of_not_busy hbusy h)
  · exact .of_tx_eq rfl
  · cases h
    exact .of_opened hsess (List.prefix_append s.env.tx [buildFin s])

theorem execRx_emitsIfOpened {p : ByteStr} (hwaits : WaitInv s) (h : execRx p s = .next t) : EmitsIfOpened s t := by
  obtain ⟨hwait, h⟩ | ⟨-, rfl⟩ := execRx_cases h
  · have hop := State.op_ne_none_of_waiting hwait
    exact .of_opened (hwaits.opened_of_op_ne_none hop) ((rxRule_extendsTx s p).settle h)
  · exact .of_tx_eq rfl

theorem execTimeout_emitsIfOpened (hwaits : WaitInv s) (h : execTimeout s = .next t) : EmitsIfOpened s t := by
  obtain ⟨hwait, h⟩ | ⟨-, rfl⟩ := execTimeout_cases h
  · have hop := State.op_ne_none_of_timedWait hwait
    exact .of_opened (hwaits.opened_of_op_ne_none hop) ((timeoutRule_extendsTx s).settle h)
  · exact .of_tx_eq rfl

/-- The end of the channel emits nothing (R257). -/
theorem execChanClose_tx_eq (h : execChanClose s = .next t) : t.env.tx = s.env.tx := by
  obtain ⟨-, -, rfl⟩ | ⟨-, -, rfl⟩ | ⟨-, rfl⟩ := execChanClose_cases h
  · rfl
  · rw [State.raiseFatal_env, State.endSession_env]
  · rfl

/-- A command that is executed emits only in SEND and FINISH (R241, R243). -/
theorem exec_command_emitsIfOpened {i : Instr} (hi : i.isCommand = true) (hbusy : s.busy = false)
    (h : exec i s = .next t) : EmitsIfOpened s t := by
  cases i with
  | rx p | timeout | chanClose | reset => cases hi
  | openSession v => exact .of_tx_eq (execOpen_tx_eq hbusy h)
  | illegal w =>
    obtain rfl := execIllegal_eq hbusy h
    exact .of_tx_eq rfl
  | send => exact execSend_emitsIfOpened hbusy h
  | recv => exact .of_tx_eq (execRecv_tx_eq hbusy h)
  | finish => exact execFinish_emitsIfOpened hbusy h
  | _ => exact .of_tx_eq (exec_datapath_ends rfl hbusy h).tx_eq

/-- An event emits only in RX and TIMEOUT (R254, R256); reset leaves the channel alone (R450). -/
theorem exec_event_emitsIfOpened {i : Instr} (hi : i.isCommand = false) (hwaits : WaitInv s) (h : exec i s = .next t) :
    EmitsIfOpened s t := by
  cases i with
  | rx p => exact execRx_emitsIfOpened hwaits h
  | timeout => exact execTimeout_emitsIfOpened hwaits h
  | chanClose => exact .of_tx_eq (execChanClose_tx_eq h)
  | reset => cases h; exact .of_tx_eq rfl
  | _ => cases hi

end

end Sys2Proof.Machine

open Sys2Proof Sys2Proof.Machine

/-- Settles O18: an overrun emits nothing; SEND and FINISH raise outside an open session; RX and TIMEOUT run their rule in a
wait, and under the invariant a wait has an open session. -/
theorem emissionsNeedAnOpenSession : Obligations.EmissionsNeedAnOpenSession := by
  intro i s t hs h
  have key : EmitsIfOpened s t := by
    cases hi : i.isCommand with
    | false => exact exec_event_emitsIfOpened hi hs.waits h
    | true =>
      cases hbusy : s.busy with
      | false => exact exec_command_emitsIfOpened hi hbusy h
      | true =>
        rw [exec_of_busy hi hbusy] at h
        cases h
        exact .of_tx_eq rfl
  exact key

end

section
/-! PROOFS. The steps that run no instruction: a host's port write, and a step with no input to take (R70, R451). -/

namespace Sys2Proof.Machine

theorem takeEnabled_of_none_enabled {s : State} {l : List Input} (h : ∀ x ∈ l, inputEnabled s x = false) :
    takeEnabled s l = none := by
  induction l with
  | nil => rfl
  | cons x xs ih =>
    obtain ⟨hx, hxs⟩ := List.forall_mem_cons.mp h
    simp [takeEnabled, hx, ih hxs]

/-- With no input that can be taken a step changes nothing, the pending inputs included (R419, R451). -/
theorem step_of_none_enabled {s : State} (h : ∀ x ∈ s.env.pending, inputEnabled s x = false) : step s = .next s := by
  simp only [step, fetch, takeEnabled_of_none_enabled h]

theorem step_of_fetch_portWritten {s t : State} (h : fetch s = .portWritten t) : step s = .next t := by
  simp only [step, h]

/-- A port write at the head of the pending inputs is the whole step (R70). -/
theorem step_of_head_portWritten {s t : State} {inp : Input} {rest : List Input} (hpending : s.env.pending = inp :: rest)
    (hinp : inputEnabled s inp = true) (hacc : accept inp (s.setPending rest) = .portWritten t) : step s = .next t :=
  step_of_fetch_portWritten ((fetch_of_first_enabled (before := []) hpending nofun hinp).trans hacc)

end Sys2Proof.Machine

open Sys2Proof Sys2Proof.Machine

/-- Settles O6: a write of ARGk can always be taken, a write of A or V within R71's lengths, and taking it writes the port
alone. -/
theorem stepWithoutInstruction : Obligations.StepWithoutInstruction := by
  intro s rest
  refine ⟨fun b hb hpending => ?_, fun v hv hpending => ?_, fun x hpending => ?_, fun x hpending => ?_,
    fun x hpending => ?_, fun x hpending => ?_, step_of_none_enabled⟩
  · exact step_of_head_portWritten hpending (decide_eq_true hb) rfl
  · exact step_of_head_portWritten hpending (decide_eq_true hv) rfl
  all_goals exact step_of_head_portWritten hpending rfl rfl

end

section
/-! PROOFS. Command words and their fields: RSV, SUBOP and OPC make up the word (R80), the encoder is a left inverse of the
decoder on words (R82), and the illegal words are exactly those with a sub-code (R81). -/

namespace Sys2Proof.Machine

/-! ## The fields as numbers -/

theorem opcField_toNat (w : BitVec 32) : (opcField w).toNat = w.toNat % 256 := by
  simp [opcField]

theorem subopField_toNat (w : BitVec 32) : (subopField w).toNat = w.toNat / 256 % 16 := by
  simp [subopField, Nat.shiftRight_eq_div_pow]

theorem rsvField_toNat (w : BitVec 32) : (rsvField w).toNat = w.toNat / 4096 := by
  simp only [rsvField, BitVec.extractLsb'_toNat, Nat.shiftRight_eq_div_pow]
  have := w.isLt
  omega

theorem commandWord_toNat (opc : BitVec 8) (sub : BitVec 4) :
    (commandWord opc sub).toNat = 256 * sub.toNat + opc.toNat := by
  simp only [commandWord, BitVec.toNat_append, BitVec.toNat_ofNat, ← Nat.shiftLeft_add_eq_or_of_lt sub.isLt,
    ← Nat.shiftLeft_add_eq_or_of_lt opc.isLt]
  simp [Nat.shiftLeft_eq, Nat.mul_comm]

/-- A word with RSV 0 is made of its OPC and SUBOP (R80). -/
theorem commandWord_fields {w : BitVec 32} (hrsv : rsvField w = 0) : commandWord (opcField w) (subopField w) = w := by
  have hzero : w.toNat / 4096 = 0 := (rsvField_toNat w).symm.trans (congrArg BitVec.toNat hrsv)
  apply BitVec.eq_of_toNat_eq
  rw [commandWord_toNat, opcField_toNat, subopField_toNat]
  omega

/-- The opcodes of R82's map as numbers. -/
theorem opcField_mem_opcodeMap (w : BitVec 32) :
    opcField w ∈ opcodeMap ↔ w.toNat % 256 ∈ [0x01, 0x02, 0x10, 0x11, 0x18, 0x19, 0x20, 0x21, 0x22, 0x30, 0x31, 0x32, 0x33,
      0x34, 0x40, 0x41, 0x42, 0x43] := by
  rw [← opcField_toNat]
  exact (List.mem_map_of_injective fun _ _ => BitVec.eq_of_toNat_eq).symm

/-! ## The word of a decoded instruction -/

theorem encode_plainCommand {w : BitVec 32} {opc : BitVec 8} {i : Instr} (hrsv : rsvField w = 0) (hw : opcField w = opc)
    (hi : encode i = .cmdWrite (commandWord opc 0)) : encode (plainCommand w i) = .cmdWrite w := by
  unfold plainCommand
  split_ifs with hsub
  · rw [hi, ← hw, ← hsub, commandWord_fields hrsv]
  · rfl

theorem formatOf_eq_some {sub : BitVec 4} {f : Format} (h : formatOf sub = some f) : f.code = sub := by
  unfold formatOf at h
  split_ifs at h <;> cases h <;> exact Eq.symm ‹_›

theorem versionOf_eq_some {sub : BitVec 4} {v : Version} (h : versionOf sub = some v) : v.code = sub := by
  unfold versionOf at h
  split_ifs at h <;> cases h <;> exact Eq.symm ‹_›

/-- A command whose SUBOP selects its operand, where the selection inverts the operand's code (R83, R84). -/
theorem encode_elim_subop {α : Type} {w : BitVec 32} {opc : BitVec 8} {o : Option α} {code : α → BitVec 4}
    {k : α → Instr} (hrsv : rsvField w = 0) (hw : opcField w = opc) (ho : ∀ {a}, o = some a → code a = subopField w)
    (hk : ∀ a, encode (k a) = .cmdWrite (commandWord opc (code a))) : encode (o.elim (.illegal w) k) = .cmdWrite w := by
  cases o with
  | some a => rw [Option.elim_some, hk, ← hw, ho rfl, commandWord_fields hrsv]
  | none => rfl

theorem encode_ite {c : Prop} [Decidable c] {i j : Instr} {inp : Input} (hi : c → encode i = inp)
    (hj : ¬ c → encode j = inp) : encode (if c then i else j) = inp := by
  split <;> [exact hi ‹_›; exact hj ‹_›]

/-- The instruction of a word stands for that word: each opcode's branch gives the word back from its fields, and an illegal
word is carried whole (R80, R82). -/
theorem encode_decodeWord (w : BitVec 32) : encode (decodeWord w) = .cmdWrite w := by
  unfold decodeWord
  refine encode_ite (fun _ => rfl) fun hrsv => ?_
  replace hrsv := not_not.mp hrsv
  iterate 9 refine encode_ite (fun h => encode_plainCommand hrsv h rfl) fun _ => ?_
  iterate 2 refine encode_ite (fun h => encode_elim_subop hrsv h formatOf_eq_some fun _ => rfl) fun _ => ?_
  iterate 3 refine encode_ite (fun h => encode_plainCommand hrsv h rfl) fun _ => ?_
  refine encode_ite (fun h => encode_elim_subop hrsv h versionOf_eq_some fun _ => rfl) fun _ => ?_
  iterate 3 refine encode_ite (fun h => encode_plainCommand hrsv h rfl) fun _ => ?_
  rfl

/-! ## The illegal words -/

/-- A word that stands for an instruction other than itself as illegal fails no check of R80. -/
theorem eq_illegal_or_illegalSubcode_eq_none {i : Instr} {w : BitVec 32} (h : encode i = .cmdWrite w) :
    i = .illegal w ∨ illegalSubcode w = none := by
  cases i with
  | illegal => cases h; exact .inl rfl
  | rx | timeout | chanClose | reset => cases h
  | hdrenc f | hdrdec f => cases h; cases f <;> exact .inr rfl
  | openSession v => cases h; cases v <;> exact .inr rfl
  | _ => cases h; exact .inr rfl

/-- The decoder answers `illegal` exactly where one of R80's checks fails. -/
theorem decodeWord_eq_illegal_iff (w : BitVec 32) : decodeWord w = .illegal w ↔ (illegalSubcode w).isSome = true := by
  constructor
  · intro h
    have hwf := decodeWord_wf w
    rwa [h] at hwf
  · intro h
    obtain hill | hnone := eq_illegal_or_illegalSubcode_eq_none (encode_decodeWord w)
    · exact hill
    · simp [hnone] at h

/-- R80's checks, in their order, on the numbers of the word's fields. -/
theorem illegalSubcode_eq (w : BitVec 32) :
    illegalSubcode w =
      if w.toNat / 4096 ≠ 0 then some 1
      else if w.toNat % 256 ∉ [0x01, 0x02, 0x10, 0x11, 0x18, 0x19, 0x20, 0x21, 0x22, 0x30, 0x31, 0x32, 0x33, 0x34, 0x40,
          0x41, 0x42, 0x43] then some 2
      else if (w.toNat % 256 = 0x40 ∧ 4 < w.toNat / 256 % 16) ∨
          ((w.toNat % 256 = 0x30 ∨ w.toNat % 256 = 0x31) ∧ 5 < w.toNat / 256 % 16) ∨
          (w.toNat % 256 ≠ 0x40 ∧ w.toNat % 256 ≠ 0x30 ∧ w.toNat % 256 ≠ 0x31 ∧ w.toNat / 256 % 16 ≠ 0) then some 3
      else none := by
  have hopc (n : BitVec 8) : opcField w = n ↔ w.toNat % 256 = n.toNat := by rw [← opcField_toNat, BitVec.toNat_inj]
  have hsub : subopField w = 0 ↔ w.toNat / 256 % 16 = 0 := by rw [← subopField_toNat, ← BitVec.toNat_inj]; rfl
  have hrsv : rsvField w = 0 ↔ w.toNat / 4096 = 0 := by rw [← rsvField_toNat, ← BitVec.toNat_inj]; rfl
  simp only [illegalSubcode, ne_eq, hrsv, opcField_mem_opcodeMap, hopc, hsub, subopField_toNat, ite_or, and_assoc]
  rfl

/-- R81: an illegal word reports its sub-code and does no more. -/
theorem exec_illegal {w : BitVec 32} {s : State} {c : BitVec 16} (hidle : s.status.op = .none)
    (hc : illegalSubcode w = some c) : exec (.illegal w) s = .next (s.report ⟨.illegalCommand, c⟩) := by
  change issue s (raised ⟨.illegalCommand, (illegalSubcode w).getD 0⟩) = _
  rw [issue, (State.busy_eq_false s).mpr hidle, hc]
  rfl

end Sys2Proof.Machine

open Sys2Proof Sys2Proof.Machine

/-- Settles O1: a command's word and an event's code are decoded as they stand; an illegal word fails one of R80's checks,
since it is well-formed, and so decodes to itself. -/
theorem decodeOfEncodeIsTheInstruction : Obligations.DecodeOfEncodeIsTheInstruction := by
  intro i hwf
  cases i with
  | illegal w => exact congrArg Except.ok ((decodeWord_eq_illegal_iff w).mpr hwf)
  | hdrenc f | hdrdec f => cases f <;> rfl
  | openSession v => cases v <;> rfl
  | _ => rfl

/-- Settles O2: the decoder answers well-formed instructions only, and encoding undoes it. -/
theorem encodeOfDecodedWordIsTheWord : Obligations.EncodeOfDecodedWordIsTheWord := fun w =>
  ⟨decodeWord_wf w, encode_decodeWord w⟩

/-- Settles O3: the chain of R80's checks is `illegalSubcode`, on which both the decoder and the report turn. -/
theorem illegalWordsRaiseBySubcode : Obligations.IllegalWordsRaiseBySubcode := by
  intro w s hidle opc sub raises
  have hraises {c : BitVec 16} (hc : illegalSubcode w = some c) : raises c :=
    ⟨(decodeWord_eq_illegal_iff w).mpr (hc ▸ rfl), exec_illegal hidle hc⟩
  have hchecks := illegalSubcode_eq w
  split_ifs at hchecks ⊢
  · exact hraises hchecks
  · exact hraises hchecks
  · simp [decodeWord_eq_illegal_iff, hchecks]
  · exact hraises hchecks

/-- Settles O4: each word is closed, so the decoder runs on it. -/
theorem wordsOfTheSpecDecode : Obligations.WordsOfTheSpecDecode := by
  unfold Obligations.WordsOfTheSpecDecode
  decide

end

section
/-! PROOFS. When an event can be taken (R255 to R257, R94, R71). -/

namespace Sys2Proof.Machine

theorem State.waiting_iff (s : State) :
    s.waiting = true ↔ (s.status.op = .send ∧ s.status.sndState = .waitForReply) ∨
      (s.status.op = .recv ∧ s.status.rcvState = .waitForPacket) := by
  simp [State.waiting]

theorem State.timedWait_iff (s : State) :
    s.timedWait = true ↔ (s.status.op = .send ∧ s.status.sndState = .waitForReply ∧ s.cfg.ver = .v30) ∨
      (s.status.op = .recv ∧ s.status.rcvState = .waitForPacket ∧ (s.cfg.ver = .v10 ∨ s.cfg.ver = .v30)) := by
  simp [State.timedWait, and_assoc]

theorem inputEnabled_rx (s : State) (p : ByteStr) :
    inputEnabled s (.event 0x01 p) = (s.waiting && decide (p.length ≤ Config.maxLen)) := rfl

theorem inputEnabled_timeout (s : State) : inputEnabled s (.event 0x02 []) = s.timedWait := rfl

/-- R94: an event code other than RX, TIMEOUT and CHAN_CLOSE is no input. -/
theorem inputEnabled_unknownEvent (s : State) {c : BitVec 8} (d : ByteStr) (hrx : c ≠ 0x01) (htimeout : c ≠ 0x02)
    (hclose : c ≠ 0x03) : inputEnabled s (.event c d) = false := by
  simp only [inputEnabled, decodeEvent, if_neg hrx, if_neg htimeout, if_neg hclose]

end Sys2Proof.Machine

open Sys2Proof Sys2Proof.Machine

/-- Settles O7: each event code is enabled by the wait its rule names. -/
theorem eventsAreEnabledAsTheirWaitsSay : Obligations.EventsAreEnabledAsTheirWaitsSay := by
  intro s
  refine ⟨fun p => ?_, ?_, rfl, fun c d => inputEnabled_unknownEvent s d⟩
  · rw [inputEnabled_rx, Bool.and_eq_true, State.waiting_iff, decide_eq_true_iff, and_comm]
  · rw [inputEnabled_timeout, State.timedWait_iff]

end

section
/-! PROOFS. The BitCodec: where a byte's bits stand in a bit string and what they sum to, what B2BITS and BITS2B leave, and that
the two undo each other (R10, R130 to R133). -/

namespace Sys2Proof.Machine

/-! ## Bits and bytes -/

/-- R130: bit `k` of a byte string is bit `7 − (k mod 8)` of its byte `k div 8`. -/
theorem bytesToBits_getElem? {b : ByteStr} {k : Nat} {x : Byte} (h : b[k / 8]? = some x) :
    (bytesToBits b)[k]? = some (x.getLsbD (7 - k % 8)) := by
  induction b generalizing k with
  | nil => simp at h
  | cons y b ih =>
    rw [bytesToBits_cons]
    obtain hk | hk := Nat.lt_or_ge k 8
    · obtain rfl : y = x := by simpa [Nat.div_eq_of_lt hk] using h
      rw [List.getElem?_append_left hk, byteBits_getElem? y hk, Nat.mod_eq_of_lt hk]
    · have hdiv : k / 8 = (k - 8) / 8 + 1 := by omega
      have hmod : (k - 8) % 8 = k % 8 := by omega
      rw [hdiv, List.getElem?_cons_succ] at h
      rw [List.getElem?_append_right hk, byteBits_length, ih h, hmod]

/-- A byte is its bits by their weights (R10): each bit splits the remainder by its power of two in two. -/
theorem toNat_eq_weighted_bits (x : Byte) :
    x.toNat = 128 * (x.getLsbD 7).toNat + 64 * (x.getLsbD 6).toNat + 32 * (x.getLsbD 5).toNat +
      16 * (x.getLsbD 4).toNat + 8 * (x.getLsbD 3).toNat + 4 * (x.getLsbD 2).toNat + 2 * (x.getLsbD 1).toNat +
      (x.getLsbD 0).toNat := by
  have hsplit (n : Nat) : x.toNat % 2 ^ (n + 1) = x.toNat % 2 ^ n + 2 ^ n * (x.getLsbD n).toNat := by
    rw [BitVec.getLsbD, Nat.toNat_testBit, Nat.mod_pow_succ]
  calc x.toNat = x.toNat % 2 ^ 8 := (Nat.mod_eq_of_lt x.isLt).symm
    _ = _ := by
      rw [hsplit 7, hsplit 6, hsplit 5, hsplit 4, hsplit 3, hsplit 2, hsplit 1, hsplit 0]
      omega

/-- The weighted sum as R131 writes it. -/
theorem toNat_eq_sum_bits (x : Byte) :
    x.toNat = ((List.range 8).map fun j => (x.getLsbD (7 - j)).toNat * 2 ^ (7 - j)).sum := by
  rw [toNat_eq_weighted_bits x]
  simp only [List.range_succ, List.range_zero, List.map_append, List.map_cons, List.map_nil, List.sum_append,
    List.sum_cons, List.sum_nil, Nat.reduceSub]
  omega

/-- The byte built from a byte's own bits is that byte (R131). -/
theorem byteOfBits_getLsbD (x : Byte) :
    byteOfBits (x.getLsbD 7) (x.getLsbD 6) (x.getLsbD 5) (x.getLsbD 4) (x.getLsbD 3) (x.getLsbD 2) (x.getLsbD 1)
      (x.getLsbD 0) = x := by
  rw [byteOfBits, ← toNat_eq_weighted_bits, BitVec.ofNat_toNat, BitVec.setWidth_eq]

/-- The bytes of a byte string's bits (R132). -/
theorem bitsToBytes_bytesToBits (b : ByteStr) : bitsToBytes (bytesToBits b) = b := by
  induction b with
  | nil => rfl
  | cons x b ih => rw [bytesToBits_cons, bitsToBytes_byteBits_append, byteOfBits_getLsbD, ih]

/-- R131's sum: whole groups of eight bits are the bits of their bytes, so R130 says where each byte's bits stand. -/
theorem toNat_of_bitsToBytes_getElem? {v : BitStr} {i : Nat} {x : Byte} (hv : v.length % 8 = 0)
    (hx : (bitsToBytes v)[i]? = some x) :
    x.toNat = ((List.range 8).map fun j => (v.getD (8 * i + j) false).toNat * 2 ^ (7 - j)).sum := by
  rw [toNat_eq_sum_bits]
  refine congrArg List.sum (List.map_congr_left fun j hj => ?_)
  have hj : j < 8 := List.mem_range.mp hj
  have hdiv : (8 * i + j) / 8 = i := by omega
  have hmod : (8 * i + j) % 8 = j := by omega
  have hbit : v[8 * i + j]? = some (x.getLsbD (7 - j)) := by
    have h := bytesToBits_getElem? (hdiv.symm ▸ hx)
    rwa [bytesToBits_bitsToBytes v hv, hmod] at h
  rw [List.getD_eq_getElem?_getD, hbit, Option.getD_some]

/-! ## The commands -/

section
variable {s : State}

/-- B2BITS issued without BUSY (R130). -/
theorem exec_b2bits (hidle : s.status.op = .none) :
    exec .b2bits s = completed { s with res := { s.res with rv := bytesToBits s.ports.a } } := by
  change execB2bits s = _
  rw [execB2bits, issue_of_not_busy _ ((State.busy_eq_false s).mpr hidle)]

/-- BITS2B issued without BUSY on whole bytes (R131). -/
theorem exec_bits2b_of_whole (hidle : s.status.op = .none) (hv : s.ports.v.length % 8 = 0) :
    exec .bits2b s = completed { s with res := { s.res with r := bitsToBytes s.ports.v } } := by
  change execBits2b s = _
  rw [execBits2b, issue_of_not_busy _ ((State.busy_eq_false s).mpr hidle), if_neg (not_not.mpr hv)]

/-- BITS2B issued without BUSY on a partial byte (R131). -/
theorem exec_bits2b_of_partial (hidle : s.status.op = .none) (hv : s.ports.v.length % 8 ≠ 0) :
    exec .bits2b s = raised ⟨.operandError, 1⟩ s := by
  change execBits2b s = _
  rw [execBits2b, issue_of_not_busy _ ((State.busy_eq_false s).mpr hidle), if_pos hv]

end

end Sys2Proof.Machine

open Sys2Proof Sys2Proof.Machine

/-- Settles O23: B2BITS leaves the bits of A in RV, each where R130 places it. -/
theorem b2bitsListsTheBitsOfA : Obligations.B2bitsListsTheBitsOfA := by
  refine ⟨by decide, fun s hidle => ⟨bytesToBits s.ports.a, ?_, ?_, ?_⟩⟩
  · exact exec_b2bits hidle
  · exact bytesToBits_length s.ports.a
  · exact fun _ _ hx => bytesToBits_getElem? hx

/-- Settles O24: BITS2B turns on the length of V alone; on whole bytes it leaves them in R, each the sum R131 writes. -/
theorem bits2bSumsTheBitsOfV : Obligations.Bits2bSumsTheBitsOfV := by
  refine ⟨by decide, fun s hidle => ⟨fun hv => ?_, fun hv => ⟨bitsToBytes s.ports.v, ?_, ?_, ?_⟩⟩⟩
  · exact exec_bits2b_of_partial hidle hv
  · exact exec_bits2b_of_whole hidle hv
  · exact bitsToBytes_length s.ports.v
  · exact fun _ _ hx => toNat_of_bitsToBytes_getElem? hv hx

/-- Settles O25: the first command completes without BUSY and leaves whole bytes, so the second completes too, and the two
functions on bits and bytes undo each other. -/
theorem bitCodecCommandsInvertEachOther : Obligations.BitCodecCommandsInvertEachOther := by
  refine fun s t hidle => ⟨fun h => ?_, fun hv h => ?_⟩
  · rw [exec_b2bits hidle] at h
    obtain rfl := Host.Outcome.next.inj h
    have hwhole : (bytesToBits s.ports.a).length % 8 = 0 := by simp
    exact ⟨_, exec_bits2b_of_whole hidle hwhole, bitsToBytes_bytesToBits s.ports.a, rfl⟩
  · rw [exec_bits2b_of_whole hidle hv] at h
    obtain rfl := Host.Outcome.next.inj h
    exact ⟨bitsToBytes_length s.ports.v, _, exec_b2bits hidle, bytesToBits_bitsToBytes s.ports.v hv⟩

end

section
/-! PROOFS. The ChecksumEngine: the folded sum in closed form, what one inverted bit does to a sum, and what CKGEN and CKVER
leave (R140 to R146). -/

namespace Sys2Proof.Machine

/-! ## The fold law -/

/-- A sum folded into 8 bits with end-around carry (R144). -/
def foldedSum (n : Nat) : Nat := if n = 0 then 0 else 1 + (n - 1) % 255

/-- The ordinary sum of the bytes (R144). -/
def byteTotal (b : ByteStr) : Nat := (b.map fun x => x.toNat).sum

@[simp] theorem byteTotal_nil : byteTotal [] = 0 := rfl

@[simp] theorem byteTotal_cons (x : Byte) (b : ByteStr) : byteTotal (x :: b) = x.toNat + byteTotal b := by
  simp [byteTotal]

@[simp] theorem byteTotal_append (a b : ByteStr) : byteTotal (a ++ b) = byteTotal a + byteTotal b := by
  simp [byteTotal]

/-- A sum of at most 8 bits needs no folding. -/
theorem foldedSum_of_lt {n : Nat} (h : n < 256) : foldedSum n = n := by
  unfold foldedSum
  split <;> omega

/-- Folding a part of a sum first does not change the folded sum. -/
theorem foldedSum_foldedSum_add (m n : Nat) : foldedSum (foldedSum m + n) = foldedSum (m + n) := by
  obtain rfl | hm := Nat.eq_zero_or_pos m
  · rfl
  · have hmod : (m + n - 1) % 255 = (1 + (m - 1) % 255 + n - 1) % 255 := by omega
    rw [foldedSum, foldedSum, foldedSum, if_neg hm.ne', if_neg (by omega), if_neg (by omega), hmod]

/-- R140: one addition folds the sum of its two bytes. -/
theorem ocAdd8_toNat (x y : Byte) : (ocAdd8 x y).toNat = foldedSum (x.toNat + y.toNat) := by
  have hx := x.isLt
  have hy := y.isLt
  have hlt : (x.toNat + y.toNat) % 256 + (x.toNat + y.toNat) / 256 < 2 ^ 8 := by omega
  rw [ocAdd8, BitVec.toNat_ofNat, Nat.mod_eq_of_lt hlt, foldedSum]
  split <;> omega

theorem foldl_ocAdd8_toNat (b : ByteStr) (x : Byte) : (b.foldl ocAdd8 x).toNat = foldedSum (x.toNat + byteTotal b) := by
  induction b generalizing x with
  | nil => exact (foldedSum_of_lt x.isLt).symm
  | cons y b ih => rw [List.foldl_cons, ih, ocAdd8_toNat, foldedSum_foldedSum_add, byteTotal_cons, Nat.add_assoc]

/-- The fold law (R144). -/
theorem ocSum_toNat (b : ByteStr) : (ocSum b).toNat = foldedSum (byteTotal b) := by
  simp [ocSum, foldl_ocAdd8_toNat]

theorem checksum_toNat (b : ByteStr) : (checksum b).toNat = 255 - foldedSum (byteTotal b) := by
  rw [checksum, BitVec.toNat_not, ocSum_toNat]

/-- The sums of a valid byte string and its checksum byte: the nonzero multiples of 255, those that fold to 255 (R143,
R144). -/
def validSum (n : Nat) : Bool := decide (n % 255 = 0 ∧ n ≠ 0)

theorem validSum_eq_decide_foldedSum (n : Nat) : validSum n = decide (foldedSum n = 255) := by
  rw [validSum, decide_eq_decide, foldedSum]
  split <;> omega

/-- R143: the checksum over both is 0 when their sum folds to 255. -/
theorem ckValid_eq (b : ByteStr) (c : Byte) : ckValid b c = validSum (byteTotal b + c.toNat) := by
  have htotal : byteTotal (b ++ [c]) = byteTotal b + c.toNat := by simp
  have hlt := (ocSum (b ++ [c])).isLt
  rw [ckValid, validSum_eq_decide_foldedSum, decide_eq_decide, ← BitVec.toNat_inj, checksum_toNat, ← htotal,
    ← ocSum_toNat]
  change 255 - _ = 0 ↔ _
  omega

/-- The soundness law (R145). -/
theorem validSum_checksum (b : ByteStr) : validSum (byteTotal b + (checksum b).toNat) = true := by
  rw [validSum, decide_eq_true_iff, checksum_toNat, foldedSum]
  split <;> omega

/-! ## One inverted bit -/

/-- The sum of the bits' weights, where bit `k` stands in a byte at `7 − (k mod 8)` (R10). -/
def bitTotal (v : BitStr) : Nat := (v.mapIdx fun k x => x.toNat * 2 ^ (7 - k % 8)).sum

/-- Bits that follow whole bytes keep their weights. -/
theorem bitTotal_append {v : BitStr} (w : BitStr) (hv : v.length % 8 = 0) :
    bitTotal (v ++ w) = bitTotal v + bitTotal w := by
  have hpos (k : Nat) : (k + v.length) % 8 = k % 8 := by omega
  simp only [bitTotal, List.mapIdx_append, List.sum_append, hpos]

theorem bitTotal_byteBits (x : Byte) : bitTotal (byteBits x) = x.toNat := by
  rw [toNat_eq_sum_bits]
  rfl

theorem bitTotal_bytesToBits (b : ByteStr) : bitTotal (bytesToBits b) = byteTotal b := by
  induction b with
  | nil => rfl
  | cons x b ih => rw [bytesToBits_cons, bitTotal_append _ (by simp), bitTotal_byteBits, ih, byteTotal_cons]

theorem byteTotal_bitsToBytes {v : BitStr} (hv : v.length % 8 = 0) : byteTotal (bitsToBytes v) = bitTotal v := by
  rw [← bitTotal_bytesToBits, bytesToBits_bitsToBytes v hv]

/-- The weighted sum of eight bits as R131 writes it. -/
theorem bitTotal_of_length_eight {v : BitStr} (hv : v.length = 8) :
    bitTotal v = ((List.range 8).map fun j => (v.getD j false).toNat * 2 ^ (7 - j)).sum := by
  refine congrArg List.sum (List.ext_getElem (by simp [hv]) fun j hj _ => ?_)
  have hj : j < v.length := by simpa using hj
  rw [List.getElem_mapIdx, List.getElem_map, List.getElem_range, List.getD_eq_getElem v false hj,
    Nat.mod_eq_of_lt (hv ▸ hj)]

/-- A bit adds its weight to what the other bits sum to. -/
theorem exists_bitTotal_append_cons (v w : BitStr) :
    ∃ rest, ∀ x : Bool, bitTotal (v ++ x :: w) = rest + x.toNat * 2 ^ (7 - v.length % 8) := by
  refine ⟨bitTotal v + (w.mapIdx fun k x => x.toNat * 2 ^ (7 - (k + 1 + v.length) % 8)).sum, fun x => ?_⟩
  simp only [bitTotal, List.mapIdx_append, List.mapIdx_cons, List.sum_append, List.sum_cons, Nat.zero_add]
  omega

/-- Inverting bit `k` moves the sum by its weight, up or down. -/
theorem bitTotal_modify_not {v : BitStr} {k : Nat} (hk : k < v.length) :
    bitTotal (v.modify k (!·)) = bitTotal v + 2 ^ (7 - k % 8) ∨
      bitTotal v = bitTotal (v.modify k (!·)) + 2 ^ (7 - k % 8) := by
  obtain ⟨v₁, x, v₂, hv, rfl, hmodify⟩ := List.exists_of_modify (!·) hk
  obtain ⟨rest, hrest⟩ := exists_bitTotal_append_cons v₁ v₂
  rw [hmodify, hv, hrest, hrest]
  cases x <;> simp

/-- The single-bit detection law (R146): a bit's weight is a power of two up to 128, so two sums that are one weight apart are
not both multiples of 255. -/
theorem validSum_eq_false_of_weight_apart {m n i : Nat} (hm : validSum m = true)
    (h : n = m + 2 ^ (7 - i) ∨ m = n + 2 ^ (7 - i)) : validSum n = false := by
  have hpos : 0 < 2 ^ (7 - i) := Nat.two_pow_pos _
  have hle : 2 ^ (7 - i) ≤ 2 ^ 7 := Nat.pow_le_pow_right (by decide) (Nat.sub_le 7 i)
  simp only [validSum, decide_eq_true_iff, decide_eq_false_iff_not] at hm ⊢
  omega

/-- R146 for a bit of the checksum. -/
theorem validSum_check_bit_inverted {n k : Nat} {v : BitStr} (hvalid : validSum (n + bitTotal v) = true)
    (hk : k < v.length) : validSum (n + bitTotal (v.modify k (!·))) = false := by
  have hweight := bitTotal_modify_not hk
  exact validSum_eq_false_of_weight_apart (i := k % 8) hvalid (by omega)

/-- R146 for a bit of the data. -/
theorem validSum_data_bit_inverted {n k : Nat} {a a' : ByteStr} (hvalid : validSum (byteTotal a + n) = true)
    (hk : k < 8 * a.length) (ha : bytesToBits a' = (bytesToBits a).modify k (!·)) :
    validSum (byteTotal a' + n) = false := by
  rw [Nat.add_comm, ← bitTotal_bytesToBits] at hvalid ⊢
  rw [ha]
  exact validSum_check_bit_inverted hvalid (hk.trans_eq (bytesToBits_length a).symm)

/-! ## The commands -/

section
variable {s t : State}

/-- CKGEN issued without BUSY (R142). -/
theorem exec_ckgen (hidle : s.status.op = .none) :
    exec .ckgen s = completed { s with
      res := { s.res with rs0 := (checksum s.ports.a).setWidth 32, rv := bytesToBits [checksum s.ports.a] } } := by
  change execCkgen s = _
  rw [execCkgen, issue_of_not_busy _ ((State.busy_eq_false s).mpr hidle)]

/-- What CKGEN hands on to a CKVER after it. -/
theorem exec_ckgen_leaves (hidle : s.status.op = .none) (h : exec .ckgen s = .next t) :
    t.status.op = .none ∧ t.ports.a = s.ports.a ∧ t.res.rv = bytesToBits [checksum s.ports.a] := by
  rw [exec_ckgen hidle] at h
  obtain rfl := Host.Outcome.next.inj h
  exact ⟨hidle, rfl, rfl⟩

/-- CKVER issued without BUSY on a V of 8 bits (R143). -/
theorem exec_ckver_of_byte (hidle : s.status.op = .none) (hv : s.ports.v.length = 8) :
    exec .ckver s = completed { s with
      res := { s.res with rflag := validSum (byteTotal s.ports.a + bitTotal s.ports.v) } } := by
  have hlen : (bitsToBytes s.ports.v).length = 1 := by rw [bitsToBytes_length, hv]
  obtain ⟨c, hc⟩ := List.length_eq_one_iff.mp hlen
  have htotal : bitTotal s.ports.v = c.toNat := by rw [← byteTotal_bitsToBytes (by omega), hc]; simp
  change execCkver s = _
  rw [execCkver, issue_of_not_busy _ ((State.busy_eq_false s).mpr hidle), if_neg (not_not.mpr hv), ckValid_eq, hc, htotal,
    List.headD_cons]

/-- CKVER issued without BUSY on a V of another length (R143). -/
theorem exec_ckver_of_length_ne (hidle : s.status.op = .none) (hv : s.ports.v.length ≠ 8) :
    exec .ckver s = raised ⟨.operandError, 3⟩ s := by
  change execCkver s = _
  rw [execCkver, issue_of_not_busy _ ((State.busy_eq_false s).mpr hidle), if_pos hv]

/-- R143: RFLAG of CKVER on given A and V. -/
theorem exists_exec_ckver_rflag {a : ByteStr} {v : BitStr} {flag : Bool} (hidle : s.status.op = .none)
    (hv : v.length = 8) (hflag : validSum (byteTotal a + bitTotal v) = flag) :
    ∃ u, exec .ckver { s with ports := { s.ports with a := a, v := v } } = .next u ∧ u.res.rflag = flag := by
  rw [exec_ckver_of_byte (by exact hidle) (by exact hv)]
  exact ⟨_, rfl, hflag⟩

end

end Sys2Proof.Machine

open Sys2Proof Sys2Proof.Machine

/-- Settles O26: CKGEN writes the complement of OCSUM, and OCSUM is the sum folded once at the end. -/
theorem ckgenComplementsTheFoldedSum : Obligations.CkgenComplementsTheFoldedSum := by
  refine ⟨by decide, fun s hidle => ?_⟩
  have hc : (checksum s.ports.a).toNat = 255 - foldedSum (byteTotal s.ports.a) := checksum_toNat s.ports.a
  change exec .ckgen s = completed { s with
    res := { s.res with
      rs0 := BitVec.ofNat 32 (255 - foldedSum (byteTotal s.ports.a))
      rv := (List.range 8).map fun j => (255 - foldedSum (byteTotal s.ports.a)).testBit (7 - j) } }
  rw [exec_ckgen hidle, ← hc, BitVec.ofNat_toNat]
  rfl

/-- Settles O27: CKVER turns on the length of V alone; on 8 bits their weights sum to the checksum byte. -/
theorem ckverTestsTheSumModulo255 : Obligations.CkverTestsTheSumModulo255 := by
  refine ⟨by decide, fun s hidle => ⟨fun hv => exec_ckver_of_length_ne hidle hv, fun hv => ?_⟩⟩
  rw [← bitTotal_of_length_eight hv]
  exact exec_ckver_of_byte hidle hv

/-- Settles O28: CKGEN leaves a checksum that makes the sum valid, and one inverted bit moves that sum by the bit's weight. -/
theorem checksumDetectsEverySingleBitError : Obligations.ChecksumDetectsEverySingleBitError := by
  intro s t a' k hidle h
  obtain ⟨hready, hkept, hrv⟩ := exec_ckgen_leaves hidle h
  have hlen : t.res.rv.length = 8 := by rw [hrv]; simp
  have hvalid : validSum (byteTotal t.ports.a + bitTotal t.res.rv) = true := by
    rw [hkept, hrv, bitTotal_bytesToBits, byteTotal_cons, byteTotal_nil, Nat.add_zero, validSum_checksum]
  rw [← hkept]
  refine ⟨exists_exec_ckver_rflag hready hlen hvalid, fun hk ha => ?_, fun hk => ?_⟩
  · exact exists_exec_ckver_rflag hready hlen (validSum_data_bit_inverted hvalid hk ha)
  · have hlenModify : (t.res.rv.modify k (!·)).length = 8 := by rw [List.length_modify, hlen]
    exact exists_exec_ckver_rflag hready hlenModify (validSum_check_bit_inverted hvalid (by omega))

end

section
/-! PROOFS. The ParityEngine: the row and column parities by counting, what one inverted bit does to the mismatches, and what
PARGEN and PARVER leave (R160 to R167). -/

namespace Sys2Proof.Machine

/-! ## The parity bits -/

@[simp] theorem xorAll_cons (x : Bool) (v : BitStr) : xorAll (x :: v) = (x ^^ xorAll v) := by
  have hfold (w : BitStr) (y : Bool) : w.foldl Bool.xor y = (y ^^ w.foldl Bool.xor false) := by
    induction w generalizing y with
    | nil => simp
    | cons z w ih => rw [List.foldl_cons, List.foldl_cons, ih, ih (Bool.xor false z), Bool.false_xor, Bool.xor_assoc]
  rw [xorAll, List.foldl_cons, hfold, Bool.false_xor, xorAll]

/-- Even parity (R160): the exclusive-or is 1 when an odd number of bits are. -/
theorem xorAll_eq_odd_count (v : BitStr) : xorAll v = decide (v.countP id % 2 = 1) := by
  induction v with
  | nil => rfl
  | cons x v ih =>
    rw [xorAll_cons, ih, List.countP_cons]
    cases x
    · simp
    · obtain h | h := Nat.mod_two_eq_zero_or_one (v.countP id) <;> simp [h, Nat.add_mod]

theorem rowPar_eq_odd_count (x : Byte) :
    rowPar x = decide (((List.range 8).countP fun j => x.getLsbD j) % 2 = 1) := by
  have hbits : byteBits x = ((List.range 8).map fun j => x.getLsbD j).reverse := rfl
  rw [rowPar, xorAll_eq_odd_count, hbits, List.countP_reverse, List.countP_map]
  rfl

theorem colPar_eq_odd_count (b : ByteStr) (j : Nat) :
    colPar b j = decide ((b.countP fun x => x.getLsbD (7 - j)) % 2 = 1) := by
  rw [colPar, xorAll_eq_odd_count, List.countP_map]
  rfl

theorem parityOf_getElem?_row {b : ByteStr} {i : Nat} {x : Byte} (h : b[i]? = some x) :
    (parityOf b)[i]? = some (rowPar x) := by
  obtain ⟨hi, -⟩ := List.getElem?_eq_some_iff.mp h
  rw [parityOf, List.getElem?_append_left (by simpa using hi), List.getElem?_map, h, Option.map_some]

theorem parityOf_getElem?_col (b : ByteStr) {j : Nat} (hj : j < 8) :
    (parityOf b)[b.length + j]? = some (colPar b j) := by
  simp [parityOf, hj]

/-! ## The mismatches -/

section
variable {a a' : ByteStr} {v : BitStr} {k : Nat}

/-- The rows whose parity differs from V's (R162's Rm). -/
def rowMismatches (a : ByteStr) (v : BitStr) : List Nat :=
  (List.range a.length).filter fun i => rowPar (a.getD i 0) != v.getD i false

/-- The columns whose parity differs from V's (R162's Cm). -/
def colMismatches (a : ByteStr) (v : BitStr) : List Nat :=
  (List.range 8).filter fun j => colPar a j != v.getD (a.length + j) false

theorem mismatches_rows (a : ByteStr) (v : BitStr) : mismatches 0 a.length (parityOf a) v = rowMismatches a v := by
  refine List.filter_congr fun i hi => ?_
  have hi : i < a.length := List.mem_range.mp hi
  have hbit : (parityOf a)[i]? = some (rowPar a[i]) := parityOf_getElem?_row (List.getElem?_eq_getElem hi)
  rw [Nat.zero_add, List.getD_eq_getElem?_getD, hbit, Option.getD_some, List.getD_eq_getElem a 0 hi]

theorem mismatches_cols (a : ByteStr) (v : BitStr) : mismatches a.length 8 (parityOf a) v = colMismatches a v := by
  refine List.filter_congr fun j hj => ?_
  rw [List.getD_eq_getElem?_getD, parityOf_getElem?_col a (List.mem_range.mp hj), Option.getD_some]

theorem mem_rowMismatches {i : Nat} :
    i ∈ rowMismatches a v ↔ i < a.length ∧ rowPar (a.getD i 0) ≠ v.getD i false := by
  simp [rowMismatches]

theorem mem_colMismatches {j : Nat} :
    j ∈ colMismatches a v ↔ j < 8 ∧ colPar a j ≠ v.getD (a.length + j) false := by
  simp [colMismatches]

theorem rowMismatches_nodup (a : ByteStr) (v : BitStr) : (rowMismatches a v).Nodup := List.nodup_range.filter _

theorem colMismatches_nodup (a : ByteStr) (v : BitStr) : (colMismatches a v).Nodup := List.nodup_range.filter _

/-- No mismatch: V is the parity of A (R163). -/
theorem parityOf_eq_of_no_mismatches (hv : v.length = a.length + 8) (hrows : rowMismatches a v = [])
    (hcols : colMismatches a v = []) : parityOf a = v := by
  rw [← mismatches_rows] at hrows
  rw [← mismatches_cols] at hcols
  refine List.ext_getElem (by rw [parityOf_length, hv]) fun p hp hpv => ?_
  rw [← List.getD_eq_getElem _ false hp, ← List.getD_eq_getElem _ false hpv]
  obtain hrow | hcol := Nat.lt_or_ge p a.length
  · simpa using List.filter_eq_nil_iff.mp hrows p (List.mem_range.mpr hrow)
  · obtain ⟨j, rfl⟩ := Nat.exists_eq_add_of_le hcol
    simpa using List.filter_eq_nil_iff.mp hcols j (List.mem_range.mpr (by omega))

theorem no_mismatches_parityOf (a : ByteStr) :
    rowMismatches a (parityOf a) = [] ∧ colMismatches a (parityOf a) = [] := by
  rw [← mismatches_rows, ← mismatches_cols]
  simp [mismatches]

/-! ## One inverted bit -/

/-- A byte with its bit at position `j` (R10) inverted. -/
def invertBit (j : Nat) (x : Byte) : Byte := x ^^^ BitVec.twoPow 8 (7 - j)

theorem invertBit_getLsbD {j i : Nat} (x : Byte) (hj : j < 8) (hi : i < 8) :
    (invertBit j x).getLsbD (7 - i) = (x.getLsbD (7 - i) ^^ decide (i = j)) := by
  rw [invertBit, BitVec.getLsbD_xor, BitVec.getLsbD_twoPow]
  congr 1
  rw [← Bool.decide_and, decide_eq_decide]
  omega

/-- Where a bit of a byte string stands, and where there is none (R130). -/
theorem bytesToBits_getElem?_eq_map (b : ByteStr) (p : Nat) :
    (bytesToBits b)[p]? = b[p / 8]?.map fun x => x.getLsbD (7 - p % 8) := by
  cases hx : b[p / 8]? with
  | some x => exact bytesToBits_getElem? hx
  | none =>
    have hlen : b.length ≤ p / 8 := List.getElem?_eq_none_iff.mp hx
    exact List.getElem?_eq_none (by rw [bytesToBits_length]; omega)

/-- Inverting bit `k` of a byte string inverts bit `k mod 8` of its byte `k div 8` (R10). -/
theorem bytesToBits_modify_invertBit (a : ByteStr) (k : Nat) :
    bytesToBits (a.modify (k / 8) (invertBit (k % 8))) = (bytesToBits a).modify k (!·) := by
  have hmod (p : Nat) : p % 8 < 8 := Nat.mod_lt p (by decide)
  refine List.ext_getElem? fun p => ?_
  rw [bytesToBits_getElem?_eq_map, List.getElem?_modify, List.getElem?_modify, bytesToBits_getElem?_eq_map]
  cases a[p / 8]? with
  | none => rfl
  | some x =>
    by_cases hrow : k / 8 = p / 8
    · have hcol : p % 8 = k % 8 ↔ k = p := by omega
      have hbit := invertBit_getLsbD x (hmod k) (hmod p)
      simp only [hcol] at hbit
      by_cases h : k = p
      · simpa [hrow, h] using hbit
      · simpa [hrow, h] using hbit
    · have hne : k ≠ p := fun h => hrow (congrArg (· / 8) h)
      simp [hrow, hne]

theorem bytesToBits_injective : Function.Injective bytesToBits :=
  Function.LeftInverse.injective bitsToBytes_bytesToBits

theorem eq_modify_invertBit (h : bytesToBits a' = (bytesToBits a).modify k (!·)) :
    a' = a.modify (k / 8) (invertBit (k % 8)) :=
  bytesToBits_injective (h.trans (bytesToBits_modify_invertBit a k).symm)

/-- Changing one entry, where each entry's change inverts what is read of it or not by `d`, inverts the exclusive-or or not
by `d`. -/
theorem xorAll_map_modify {α : Type} {f : α → α} {g : α → Bool} {d : Bool} (hg : ∀ x, g (f x) = (g x ^^ d)) {l : List α}
    {m : Nat} (hm : m < l.length) : xorAll ((l.modify m f).map g) = (xorAll (l.map g) ^^ d) := by
  induction l generalizing m with
  | nil => simp at hm
  | cons x l ih =>
    cases m with
    | zero => simp only [List.modify_zero_cons, List.map_cons, xorAll_cons, hg, Bool.xor_right_comm]
    | succ m => simp [ih (Nat.lt_of_succ_lt_succ hm)]

theorem rowPar_invertBit {j : Nat} (x : Byte) (hj : j < 8) : rowPar (invertBit j x) = !rowPar x := by
  have hbits : byteBits (invertBit j x) = (byteBits x).modify j (!·) := by
    simpa [Nat.div_eq_of_lt hj, Nat.mod_eq_of_lt hj] using bytesToBits_modify_invertBit [x] j
  have hxor := xorAll_map_modify (f := (!·)) (g := id) (d := true) (by simp) (l := byteBits x) hj
  rw [rowPar, hbits, rowPar]
  simpa using hxor

theorem length_eq_of_bit_inverted (h : bytesToBits a' = (bytesToBits a).modify k (!·)) : a'.length = a.length := by
  rw [eq_modify_invertBit h, List.length_modify]

/-- R167: an inverted bit of A puts its row among the mismatches, or takes it out, and no other row. -/
theorem mem_rowMismatches_of_bit_inverted (h : bytesToBits a' = (bytesToBits a).modify k (!·)) (i : Nat) :
    i ∈ rowMismatches a' v ↔ i < a.length ∧ ¬ (i ∈ rowMismatches a v ↔ i = k / 8) := by
  rw [mem_rowMismatches, mem_rowMismatches, length_eq_of_bit_inverted h]
  refine and_congr_right fun hi => ?_
  obtain rfl := eq_modify_invertBit h
  have hi' : i < (a.modify (k / 8) (invertBit (k % 8))).length := by simpa using hi
  rw [List.getD_eq_getElem _ _ hi', List.getD_eq_getElem _ _ hi, List.getElem_modify]
  by_cases hrow : k / 8 = i
  · simp [hrow, hi, rowPar_invertBit _ (Nat.mod_lt k (by decide : 0 < 8))]
  · simp [hrow, Ne.symm hrow, hi]

/-- R167: an inverted bit of A puts its column among the mismatches, or takes it out, and no other column. -/
theorem mem_colMismatches_of_bit_inverted (h : bytesToBits a' = (bytesToBits a).modify k (!·)) (hk : k < 8 * a.length)
    (j : Nat) : j ∈ colMismatches a' v ↔ j < 8 ∧ ¬ (j ∈ colMismatches a v ↔ j = k % 8) := by
  rw [mem_colMismatches, mem_colMismatches, length_eq_of_bit_inverted h]
  refine and_congr_right fun hj => ?_
  obtain rfl := eq_modify_invertBit h
  have hmod : k % 8 < 8 := Nat.mod_lt k (by decide)
  have hcol : colPar (a.modify (k / 8) (invertBit (k % 8))) j = (colPar a j ^^ decide (j = k % 8)) :=
    xorAll_map_modify (fun x => invertBit_getLsbD x hmod hj) (by omega)
  rw [hcol]
  by_cases h : j = k % 8
  · simp [h, hmod]
  · simp [h, hj]

/-! ## The outcome -/

/-- R163: A is clean. -/
theorem parityCheck_clean (hrows : rowMismatches a v = []) (hcols : colMismatches a v = []) :
    parityCheck a v = .clean := by
  rw [parityCheck, mismatches_rows, mismatches_cols, hrows, hcols]

/-- R165: everything else is uncorrectable. -/
theorem parityCheck_uncorrectable (hclean : ¬ (rowMismatches a v = [] ∧ colMismatches a v = []))
    (hone : ¬ ((rowMismatches a v).length = 1 ∧ (colMismatches a v).length = 1)) :
    parityCheck a v = .uncorrectable := by
  rw [parityCheck, mismatches_rows, mismatches_cols]
  split
  · rename_i hrows hcols; exact absurd ⟨hrows, hcols⟩ hclean
  · rename_i hrows hcols; simp [hrows, hcols] at hone
  · rfl

theorem bytesToBits_flipBits_eq (a : ByteStr) (k : Nat) :
    bytesToBits (flipBits a (· == k)) = (bytesToBits a).modify k (!·) := by
  rw [bytesToBits_flipBits]
  refine List.ext_getElem? fun p => ?_
  rw [List.getElem?_mapIdx, List.getElem?_modify]
  by_cases h : p = k
  · simp [h]
  · simp [h, Ne.symm h]

/-- R164, R166: inverting the bit at the one row and the one column that mismatch leaves no mismatch, so the re-verification
succeeds. -/
theorem parityCheck_corrected {i j : Nat} (hv : v.length = a.length + 8) (hrows : rowMismatches a v = [i])
    (hcols : colMismatches a v = [j]) :
    ∃ r, bytesToBits r = (bytesToBits a).modify (8 * i + j) (!·) ∧ parityCheck a v = .corrected i j r := by
  have hbits := bytesToBits_flipBits_eq a (8 * i + j)
  have hlen : (flipBits a (· == 8 * i + j)).length = a.length := flipBits_length ..
  obtain ⟨hi, -⟩ := mem_rowMismatches.mp (hrows ▸ List.mem_singleton_self i : i ∈ rowMismatches a v)
  obtain ⟨hj, -⟩ := mem_colMismatches.mp (hcols ▸ List.mem_singleton_self j : j ∈ colMismatches a v)
  have hdiv : (8 * i + j) / 8 = i := by omega
  have hmod : (8 * i + j) % 8 = j := by omega
  have hnoRows : rowMismatches (flipBits a (· == 8 * i + j)) v = [] :=
    List.eq_nil_iff_forall_not_mem.mpr fun x => by
      simp [mem_rowMismatches_of_bit_inverted hbits, hrows, hdiv]
  have hnoCols : colMismatches (flipBits a (· == 8 * i + j)) v = [] :=
    List.eq_nil_iff_forall_not_mem.mpr fun x => by
      simp [mem_colMismatches_of_bit_inverted hbits (by omega), hcols, hmod]
  have hverify : parityOf (flipBits a (· == 8 * i + j)) = v :=
    parityOf_eq_of_no_mismatches (hlen ▸ hv) hnoRows hnoCols
  refine ⟨_, hbits, ?_⟩
  rw [parityCheck, mismatches_rows, mismatches_cols, hrows, hcols]
  exact if_pos hverify

/-! ## Changed payloads -/

theorem parityCheck_of_own_parity (a : ByteStr) : parityCheck a (parityOf a) = .clean :=
  parityCheck_clean (no_mismatches_parityOf a).1 (no_mismatches_parityOf a).2

theorem eq_singleton_of_mem_iff {l : List Nat} {x : Nat} (hl : l.Nodup) (h : ∀ y, y ∈ l ↔ y = x) : l = [x] := by
  refine ((List.perm_ext_iff_of_nodup hl (List.nodup_singleton x)).mpr fun y => ?_).eq_singleton
  rw [h, List.mem_singleton]

/-- The mismatches with a payload's own parity after one bit of it was inverted (R167). -/
theorem mismatches_of_bit_inverted (h : bytesToBits a' = (bytesToBits a).modify k (!·)) (hk : k < 8 * a.length) :
    rowMismatches a' (parityOf a) = [k / 8] ∧ colMismatches a' (parityOf a) = [k % 8] := by
  obtain ⟨hrows, hcols⟩ := no_mismatches_parityOf a
  refine ⟨eq_singleton_of_mem_iff (rowMismatches_nodup ..) fun i => ?_,
    eq_singleton_of_mem_iff (colMismatches_nodup ..) fun j => ?_⟩
  · simp only [mem_rowMismatches_of_bit_inverted h, hrows, List.not_mem_nil, false_iff, not_not]
    omega
  · simp only [mem_colMismatches_of_bit_inverted h hk, hcols, List.not_mem_nil, false_iff, not_not]
    omega

/-- R167: a one-bit change is undone. -/
theorem parityCheck_of_bit_inverted (h : bytesToBits a' = (bytesToBits a).modify k (!·)) (hk : k < 8 * a.length) :
    parityCheck a' (parityOf a) = .corrected (k / 8) (k % 8) a := by
  obtain ⟨hrows, hcols⟩ := mismatches_of_bit_inverted h hk
  have hlen : (parityOf a).length = a'.length + 8 := by rw [parityOf_length, length_eq_of_bit_inverted h]
  obtain ⟨r, hr, hout⟩ := parityCheck_corrected hlen hrows hcols
  have hback : (fun x : Bool => !x) ∘ (fun x => !x) = id := funext Bool.not_not
  rw [Nat.div_add_mod, h, List.modify_modify_eq, hback, List.modify_id] at hr
  rw [hout, bytesToBits_injective hr]

theorem one_lt_length_of_mem {l : List Nat} {x y : Nat} (hx : x ∈ l) (hy : y ∈ l) (hne : x ≠ y) : 1 < l.length := by
  match l with
  | [z] => exact absurd ((List.mem_singleton.mp hx).trans (List.mem_singleton.mp hy).symm) hne
  | _ :: _ :: l => simp

/-- R167: two changed bits stand in two rows or in two columns, and these mismatch. -/
theorem parityCheck_of_two_bits_inverted {a₁ a₂ : ByteStr} {l : Nat} (hkl : k ≠ l)
    (h₁ : bytesToBits a₁ = (bytesToBits a).modify k (!·)) (h₂ : bytesToBits a₂ = (bytesToBits a₁).modify l (!·))
    (hk : k < 8 * a.length) (hl : l < 8 * a.length) : parityCheck a₂ (parityOf a) = .uncorrectable := by
  obtain ⟨hrows, hcols⟩ := mismatches_of_bit_inverted h₁ hk
  have hlen := length_eq_of_bit_inverted h₁
  have hmemRow (i : Nat) : i ∈ rowMismatches a₂ (parityOf a) ↔ i < a.length ∧ ¬ (i = k / 8 ↔ i = l / 8) := by
    rw [mem_rowMismatches_of_bit_inverted h₂, hlen, hrows, List.mem_singleton]
  have hmemCol (j : Nat) : j ∈ colMismatches a₂ (parityOf a) ↔ j < 8 ∧ ¬ (j = k % 8 ↔ j = l % 8) := by
    rw [mem_colMismatches_of_bit_inverted h₂ (hlen ▸ hl), hcols, List.mem_singleton]
  have hmany : 1 < (rowMismatches a₂ (parityOf a)).length ∨ 1 < (colMismatches a₂ (parityOf a)).length := by
    by_cases hrow : k / 8 = l / 8
    · have hcol : k % 8 ≠ l % 8 := by omega
      exact .inr (one_lt_length_of_mem ((hmemCol (k % 8)).mpr (by omega)) ((hmemCol (l % 8)).mpr (by omega)) hcol)
    · exact .inl (one_lt_length_of_mem ((hmemRow (k / 8)).mpr (by omega)) ((hmemRow (l / 8)).mpr (by omega)) hrow)
  refine parityCheck_uncorrectable ?_ ?_
  · rintro ⟨hnoRows, hnoCols⟩
    simp [hnoRows, hnoCols] at hmany
  · omega

end

/-! ## The commands -/

section
variable {s t : State}

/-- PARGEN issued without BUSY (R161). -/
theorem exec_pargen (hidle : s.status.op = .none) :
    exec .pargen s = completed { s with res := { s.res with rv := parityOf s.ports.a } } := by
  change execPargen s = _
  rw [execPargen, issue_of_not_busy _ ((State.busy_eq_false s).mpr hidle)]

/-- What PARGEN hands on to a PARVER after it. -/
theorem exec_pargen_leaves (hidle : s.status.op = .none) (h : exec .pargen s = .next t) :
    t.status.op = .none ∧ t.res.rv = parityOf s.ports.a := by
  rw [exec_pargen hidle] at h
  obtain rfl := Host.Outcome.next.inj h
  exact ⟨hidle, rfl⟩

/-- PARVER issued without BUSY on a V of the matrix's length (R162). -/
theorem exec_parver_of_outcome {out : ParityOutcome} (hidle : s.status.op = .none)
    (hv : s.ports.v.length = s.ports.a.length + 8) (hout : parityCheck s.ports.a s.ports.v = out) :
    exec .parver s = completed { s with res := parityResults s.ports.a s.res out } := by
  change execParver s = _
  rw [execParver, issue_of_not_busy _ ((State.busy_eq_false s).mpr hidle), if_neg (not_not.mpr hv), hout]

/-- The same with A and V written first. -/
theorem exec_parver_on {a : ByteStr} {v : BitStr} {out : ParityOutcome} (hidle : s.status.op = .none)
    (hv : v.length = a.length + 8) (hout : parityCheck a v = out) :
    exec .parver { s with ports := { s.ports with a := a, v := v } } = completed { s with
      ports := { s.ports with a := a, v := v }, res := parityResults a s.res out } :=
  exec_parver_of_outcome (s := { s with ports := { s.ports with a := a, v := v } }) hidle hv hout

/-- PARVER issued without BUSY on a V of another length (R162). -/
theorem exec_parver_of_length_ne (hidle : s.status.op = .none) (hv : s.ports.v.length ≠ s.ports.a.length + 8) :
    exec .parver s = raised ⟨.operandError, 2⟩ s := by
  change execParver s = _
  rw [execParver, issue_of_not_busy _ ((State.busy_eq_false s).mpr hidle), if_pos hv]

end

end Sys2Proof.Machine

open Sys2Proof Sys2Proof.Machine

/-- Settles O29: PARGEN leaves the parity bits of A, and an exclusive-or counts. -/
theorem pargenCountsRowsAndColumns : Obligations.PargenCountsRowsAndColumns := by
  refine ⟨by decide, fun s hidle => ⟨parityOf s.ports.a, ?_, ?_, fun i x hx => ?_, fun j hj => ?_⟩⟩
  · exact exec_pargen hidle
  · exact parityOf_length s.ports.a
  · rw [parityOf_getElem?_row hx, rowPar_eq_odd_count]
  · rw [parityOf_getElem?_col s.ports.a hj, colPar_eq_odd_count]

/-- Settles O30: PARVER turns on the length of V, then on the mismatches alone. -/
theorem parverOutcomeFollowsTheMismatches : Obligations.ParverOutcomeFollowsTheMismatches := by
  refine ⟨by decide, fun s hidle => ⟨fun hv => exec_parver_of_length_ne hidle hv, fun hv => ?_⟩⟩
  simp only [← rowPar_eq_odd_count, ← colPar_eq_odd_count]
  refine ⟨fun hrows hcols => ?_, fun i j hrows hcols => ?_, fun hclean hone => ?_⟩
  · exact exec_parver_of_outcome hidle hv (parityCheck_clean hrows hcols)
  · obtain ⟨r, hr, hout⟩ := parityCheck_corrected hv hrows hcols
    exact ⟨r, hr, exec_parver_of_outcome hidle hv hout⟩
  · exact exec_parver_of_outcome hidle hv (parityCheck_uncorrectable hclean hone)

/-- Settles O31: PARGEN leaves the parity of A, each changed bit then moves its row and its column in or out of the
mismatches, and PARVER ends as O30 says. -/
theorem parverCorrectsOneFlipAndRejectsTwo : Obligations.ParverCorrectsOneFlipAndRejectsTwo := by
  intro s t a₁ a₂ k l hidle h hk hl hkl h₁ h₂
  obtain ⟨hready, hrv⟩ := exec_pargen_leaves hidle h
  rw [← h₁] at h₂
  have hlen₁ := length_eq_of_bit_inverted h₁
  have hlen₂ := (length_eq_of_bit_inverted h₂).trans hlen₁
  have hv : (parityOf s.ports.a).length = s.ports.a.length + 8 := parityOf_length s.ports.a
  rw [hrv]
  refine ⟨?_, ?_, ?_⟩
  · exact exec_parver_on hready hv (parityCheck_of_own_parity s.ports.a)
  · exact exec_parver_on hready (hlen₁ ▸ hv) (parityCheck_of_bit_inverted h₁ hk)
  · exact exec_parver_on hready (hlen₂ ▸ hv) (parityCheck_of_two_bits_inverted hkl h₁ h₂ hk hl)

end

section
/-! PROOFS. The ErrorInjector: what a set draw and a start draw answer, each branch of CorruptPacket, and what INJFLIP,
INJBURST and INJPKT leave (R180 to R187). -/

namespace Sys2Proof.Machine

/-! ## The draws -/

/-- A script that names each position of `P` by its place in the pool left draws `P` (R180, R181). -/
theorem exists_script_drawSubset {P pool : List Nat} (count : Nat) (hnodup : P.Nodup) (hmem : ∀ k ∈ P, k ∈ pool) :
    ∃ script, drawSubset P.length pool ⟨script, count⟩ = (P, ⟨[], count⟩) := by
  induction P generalizing pool with
  | nil => exact ⟨[], rfl⟩
  | cons x P ih =>
    obtain ⟨hx, hnodup⟩ := List.nodup_cons.mp hnodup
    have hpool : x ∈ pool := hmem x List.mem_cons_self
    have hlt : pool.idxOf x < pool.length := List.idxOf_lt_length_iff.mpr hpool
    obtain ⟨script, hscript⟩ := ih (pool := pool.erase x) hnodup fun k hk =>
      (List.mem_erase_of_ne (ne_of_mem_of_not_mem hk hx)).mpr (hmem k (List.mem_cons_of_mem x hk))
    refine ⟨pool.idxOf x :: script, ?_⟩
    simp [drawSubset, drawBelow, DrawSource.next, Nat.mod_eq_of_lt hlt, List.getElem?_eq_getElem hlt, hscript]

/-- FlipN inverts the positions its set draw gives (R181). -/
theorem flipN_of_draw {d d' : DrawSource} {b : ByteStr} {n : Nat} {P : List Nat} (hn : n ≤ 8 * b.length)
    (hdraw : drawSubset n (List.range (8 * b.length)) d = (P, d')) :
    ∃ r, flipN d b n = (d', .ok r) ∧ bytesToBits r = (bytesToBits b).mapIdx fun k x => if k ∈ P then !x else x := by
  refine ⟨flipBits b fun k => P.contains k, ?_, ?_⟩
  · simp [flipN, hdraw, Nat.not_lt.mpr hn]
  · simp only [bytesToBits_flipBits, List.contains_iff_mem]

/-- Burst inverts the run from the start it draws, cut at the end (R182). -/
theorem burst_of_draw {mode : BurstMode} {d d' : DrawSource} {b : ByteStr} {len st : Nat} (hlen : len ≠ 0) (hb : b ≠ [])
    (hdraw : drawBelow (burstStarts mode (8 * b.length) len) d = (st, d')) :
    ∃ r, burst mode d b len = (d', r) ∧
      bytesToBits r = (bytesToBits b).mapIdx fun k x => if st ≤ k ∧ k < st + len then !x else x := by
  refine ⟨flipBits b fun k => decide (st ≤ k) && decide (k < min (st + len) (8 * b.length)), ?_, ?_⟩
  · simp [burst, hdraw, hlen, hb]
  · rw [bytesToBits_flipBits]
    refine List.mapIdx_eq_mapIdx_iff.mpr fun k hk => ?_
    have hk : k < 8 * b.length := by simpa using hk
    simp [hk]

/-- With nothing to invert Burst copies and draws nothing (R182). -/
theorem burst_of_nothing (mode : BurstMode) (d : DrawSource) {b : ByteStr} {len : Nat} (h : len = 0 ∨ b = []) :
    burst mode d b len = (d, b) := by
  rw [burst, if_pos (by simpa using h)]

/-- The start of a run that inverts something (R182). -/
theorem FlipsRun.exists_start {mode : BurstMode} {len : Nat} {a b : ByteStr} (h : FlipsRun mode len a b)
    (hlen : len ≠ 0) (ha : a ≠ []) :
    ∃ st : Nat, (mode = .fit → st ≤ 8 * a.length - len) ∧ (mode = .any → st < 8 * a.length) ∧
      bytesToBits b = (bytesToBits a).mapIdx fun k x => if st ≤ k ∧ k < st + len then !x else x := by
  rwa [FlipsRun, if_neg (by simp [hlen, ha])] at h

/-! ## The branches of CorruptPacket -/

/-- With probability 0 the choice is never to corrupt (R183). -/
theorem ne_zero_of_drawCorrupt {prob : Nat} {d : DrawSource} (h : (drawCorrupt prob d).1 = true) : prob ≠ 0 := by
  rintro rfl
  cases h

/-- With probability 10000 the choice is always to corrupt (R183). -/
theorem ne_of_not_drawCorrupt {prob : Nat} {d : DrawSource} (h : (drawCorrupt prob d).1 = false) : prob ≠ 10000 := by
  rintro rfl
  cases h

/-- The endpoint 10000 draws nothing (R184). -/
theorem drawCorrupt_certain {prob : Nat} (d : DrawSource) (h : prob = 10000) : drawCorrupt prob d = (true, d) := by
  rw [h]
  rfl

/-- Strictly between the endpoints the script's next answer decides (R180, R184). -/
theorem drawCorrupt_of_script {prob : Nat} (h0 : 0 < prob) (h1 : prob < 10000) (c : Bool) (count : Nat) :
    drawCorrupt prob ⟨[c.toNat], count⟩ = (c, ⟨[], count⟩) := by
  rw [drawCorrupt, if_neg (by omega), if_neg (by omega)]
  cases c <;> rfl

section
variable {mode : BurstMode} {d : DrawSource} {p h pay : ByteStr} {n prob len : Nat}

/-- A choice not to corrupt leaves the packet (R183). -/
theorem corruptPacket_of_not_chosen (hc : (drawCorrupt prob d).1 = false) :
    corruptPacket mode d p n prob len = ((drawCorrupt prob d).2, .ok (p, false)) := by
  simp [corruptPacket, hc]

/-- A string with no NL is no packet to corrupt (R183). -/
theorem corruptPacket_of_no_nl (hp : nl ∉ p) :
    corruptPacket mode d p n prob len = ((drawCorrupt prob d).2, .ok (p, false)) := by
  simp [corruptPacket, splitNl_eq_none.mpr hp]

/-- A corruption by a burst (R183). -/
theorem corruptPacket_of_burst (hc : (drawCorrupt prob d).1 = true) (hh : nl ∉ h) (hlen : len ≠ 0) :
    corruptPacket mode d (h ++ nl :: pay) n prob len =
      ((burst mode (drawCorrupt prob d).2 pay len).1,
        .ok (h ++ nl :: (burst mode (drawCorrupt prob d).2 pay len).2, true)) := by
  simp [corruptPacket, hc, splitNl_append hh, Nat.pos_of_ne_zero hlen]

/-- A corruption by single bits that the payload has (R183, R181). -/
theorem corruptPacket_of_flips (hc : (drawCorrupt prob d).1 = true) (hh : nl ∉ h) (hn : n ≤ 8 * pay.length) :
    ∃ d' r, corruptPacket mode d (h ++ nl :: pay) n prob 0 = (d', .ok (h ++ nl :: r, true)) ∧ FlipsBits n pay r := by
  obtain ⟨hlt, -⟩ | ⟨-, d', r, hflip, hr⟩ := flipN_cases (drawCorrupt prob d).2 pay n
  · omega
  · exact ⟨d', r, by simp [corruptPacket, hc, splitNl_append hh, hflip], hr⟩

/-- A corruption by more single bits than the payload has (R183, R181). -/
theorem corruptPacket_of_too_many_flips (hc : (drawCorrupt prob d).1 = true) (hh : nl ∉ h) (hn : 8 * pay.length < n) :
    corruptPacket mode d (h ++ nl :: pay) n prob 0 = ((drawCorrupt prob d).2, .error ⟨.injectRange, 1⟩) := by
  simp [corruptPacket, hc, splitNl_append hh, flipN, hn]

end

/-- Where no flip count is out of range CorruptPacket keeps the header and leaves or corrupts the payload (R183). -/
theorem corruptPacket_keeps_header {h pay : ByteStr} {n prob len : Nat} (mode : BurstMode) (d : DrawSource)
    (hh : nl ∉ h) (hrange : len ≠ 0 ∨ n ≤ 8 * pay.length) :
    ∃ pay2 c d', corruptPacket mode d (h ++ nl :: pay) n prob len = (d', .ok (h ++ nl :: pay2, c)) ∧
      (c = false → pay2 = pay) ∧ (c = true → CorruptedPayload mode n len pay pay2) ∧
      (prob = 0 → c = false) ∧ (prob = 10000 → c = true) := by
  cases hc : (drawCorrupt prob d).1 with
  | false =>
    exact ⟨pay, false, _, corruptPacket_of_not_chosen hc, fun _ => rfl, nofun, fun _ => rfl,
      fun e => absurd e (ne_of_not_drawCorrupt hc)⟩
  | true =>
    have hzero := ne_zero_of_drawCorrupt hc
    by_cases hlen : len = 0
    · subst hlen
      obtain ⟨d', r, hcorrupt, hflips⟩ := corruptPacket_of_flips (mode := mode) hc hh
        (hrange.resolve_left (not_not.mpr rfl))
      exact ⟨r, true, d', hcorrupt, nofun, fun _ => by rwa [CorruptedPayload, if_pos rfl], fun e => absurd e hzero,
        fun _ => rfl⟩
    · refine ⟨_, true, _, corruptPacket_of_burst hc hh hlen, nofun, fun _ => ?_, fun e => absurd e hzero, fun _ => rfl⟩
      rw [CorruptedPayload, if_neg hlen]
      exact burst_flipsRun ..

/-- Strictly between the endpoints a packet can be corrupted by a burst and can be left as it is (R183, R184). -/
theorem exists_corruptPacket_of_script {p : ByteStr} {prob len : Nat} (mode : BurstMode) (n count : Nat) (hp : nl ∈ p)
    (h0 : 0 < prob) (h1 : prob < 10000) (hlen : len ≠ 0) (c : Bool) :
    ∃ d r, corruptPacket mode ⟨[c.toNat], count⟩ p n prob len = (d, .ok (r, c)) := by
  have hchoice := congrArg Prod.fst (drawCorrupt_of_script h0 h1 c count)
  cases c with
  | false => exact ⟨_, _, corruptPacket_of_not_chosen hchoice⟩
  | true =>
    obtain ⟨h, pay, rfl, hh⟩ := List.eq_append_cons_of_mem hp
    exact ⟨_, _, corruptPacket_of_burst hchoice hh hlen⟩

/-! ## The commands -/

section
variable {s : State} {d : DrawSource} {r : ByteStr}

/-- INJFLIP issued without BUSY where FlipN gives a string (R185). -/
theorem exec_injflip_of_ok (hidle : s.status.op = .none)
    (hflip : flipN s.env.draws s.ports.a s.ports.arg0.toNat = (d, .ok r)) :
    exec .injflip s = .next
      { s with
        res := { s.res with r := r }
        env := { s.env with draws := d }
        status := { s.status with err := .ok }
        errInfo := 0 } := by
  change execInjflip s = _
  rw [execInjflip, issue_of_not_busy _ ((State.busy_eq_false s).mpr hidle), hflip]
  rfl

/-- INJFLIP issued without BUSY where FlipN raises (R185). -/
theorem exec_injflip_of_error {e : Raise} (hidle : s.status.op = .none)
    (hflip : flipN s.env.draws s.ports.a s.ports.arg0.toNat = (d, .error e)) :
    exec .injflip s = .next
      { s with
        status := { s.status with err := e.code, faultSeen := true }
        errInfo := e.info
        env := { s.env with draws := d } } := by
  change execInjflip s = _
  rw [execInjflip, issue_of_not_busy _ ((State.busy_eq_false s).mpr hidle), hflip]
  rfl

/-- INJBURST issued without BUSY (R186). -/
theorem exec_injburst (hidle : s.status.op = .none)
    (hburst : burst s.params.burstMode s.env.draws s.ports.a s.ports.arg0.toNat = (d, r)) :
    exec .injburst s = .next
      { s with
        res := { s.res with r := r }
        env := { s.env with draws := d }
        status := { s.status with err := .ok }
        errInfo := 0 } := by
  change execInjburst s = _
  rw [execInjburst, issue_of_not_busy _ ((State.busy_eq_false s).mpr hidle), hburst]
  rfl

/-- INJPKT issued without BUSY with a probability above 10000 (R187). -/
theorem exec_injpkt_of_prob_gt (hidle : s.status.op = .none) (hprob : 10000 < s.ports.arg1.toNat) :
    exec .injpkt s = raised ⟨.operandError, 5⟩ s := by
  change execInjpkt s = _
  rw [execInjpkt, issue_of_not_busy _ ((State.busy_eq_false s).mpr hidle), if_pos hprob]

/-- INJPKT issued without BUSY where CorruptPacket gives a packet (R187). -/
theorem exec_injpkt_of_ok {c : Bool} (hidle : s.status.op = .none) (hprob : s.ports.arg1.toNat ≤ 10000)
    (hcorrupt : corruptPacket s.params.burstMode s.env.draws s.ports.a s.ports.arg0.toNat s.ports.arg1.toNat
      s.ports.arg2.toNat = (d, .ok (r, c))) :
    exec .injpkt s = .next
      { s with
        res := { s.res with r := r, rflag := c }
        env := { s.env with draws := d }
        status := { s.status with err := .ok }
        errInfo := 0 } := by
  change execInjpkt s = _
  rw [execInjpkt, issue_of_not_busy _ ((State.busy_eq_false s).mpr hidle), if_neg (Nat.not_lt.mpr hprob), hcorrupt]
  rfl

/-- INJPKT issued without BUSY where CorruptPacket raises (R187). -/
theorem exec_injpkt_of_error {e : Raise} (hidle : s.status.op = .none) (hprob : s.ports.arg1.toNat ≤ 10000)
    (hcorrupt : corruptPacket s.params.burstMode s.env.draws s.ports.a s.ports.arg0.toNat s.ports.arg1.toNat
      s.ports.arg2.toNat = (d, .error e)) :
    exec .injpkt s = .next
      { s with
        status := { s.status with err := e.code, faultSeen := true }
        errInfo := e.info
        env := { s.env with draws := d } } := by
  change execInjpkt s = _
  rw [execInjpkt, issue_of_not_busy _ ((State.busy_eq_false s).mpr hidle), if_neg (Nat.not_lt.mpr hprob), hcorrupt]
  rfl

end

end Sys2Proof.Machine

open Sys2Proof Sys2Proof.Machine

/-- Settles O32: FlipN raises with no draw, or gives a string with the drawn positions inverted. -/
theorem injflipInvertsExactlyArg0Bits : Obligations.InjflipInvertsExactlyArg0Bits := by
  intro s hidle
  obtain ⟨hlt, hflip⟩ | ⟨hle, d, r, hflip, P, hnodup, hlen, hmem, hbits⟩ :=
    flipN_cases s.env.draws s.ports.a s.ports.arg0.toNat
  · exact ⟨fun _ => exec_injflip_of_error hidle hflip, fun hle => absurd hle (Nat.not_le.mpr hlt)⟩
  · exact ⟨fun hlt => absurd hle (Nat.not_le.mpr hlt),
      fun _ => ⟨P, d, r, hnodup, hlen, hmem, exec_injflip_of_ok hidle hflip, hbits⟩⟩

/-- Settles O33: Burst copies where there is nothing to invert, and otherwise inverts a run from a start it draws. -/
theorem injburstInvertsOneRun : Obligations.InjburstInvertsOneRun := by
  intro s hidle bits len
  refine ⟨fun hnothing => ?_, fun hlen hbits => ?_⟩
  · exact exec_injburst hidle (burst_of_nothing _ _ (hnothing.imp_right fun hb => by simpa [bits] using hb))
  · obtain ⟨st, hfit, hany, hrun⟩ := (burst_flipsRun s.params.burstMode s.env.draws s.ports.a len).exists_start hlen
      (by simpa [bits] using hbits)
    exact ⟨st, _, _, hfit, hany, exec_injburst hidle rfl, hrun⟩

/-- Settles O34: CorruptPacket's choice, then its split at the first NL, then the burst or the single bits. -/
theorem injpktKeepsTheHeader : Obligations.InjpktKeepsTheHeader := by
  intro s hidle copies
  have toNat_zero : ∀ {x : BitVec 16}, x = 0 ↔ x.toNat = 0 := BitVec.toNat_inj.symm
  refine ⟨exec_injpkt_of_prob_gt hidle, fun hprob hnl => ?_,
    fun h pay hh ha hprob => ⟨fun hrange => ?_, fun hlen hn => ?_⟩⟩
  · exact ⟨_, exec_injpkt_of_ok hidle hprob (corruptPacket_of_no_nl hnl)⟩
  · obtain ⟨pay2, c, d, hcorrupt, hkept, hchanged, hnever, halways⟩ := corruptPacket_keeps_header s.params.burstMode
      s.env.draws (prob := s.ports.arg1.toNat) hh (hrange.imp_left (mt toNat_zero.mpr))
    refine ⟨pay2, c, d, ?_, hkept, fun hc hlen => ?_, fun hc hlen => ?_, fun e => hnever (toNat_zero.mp e),
      fun e => halways (congrArg BitVec.toNat e), exec_injpkt_of_ok hidle hprob (ha ▸ hcorrupt)⟩
    · cases c with
      | false => rw [hkept rfl]
      | true => exact (hchanged rfl).length_eq
    · simpa [CorruptedPayload, hlen] using hchanged hc
    · simpa [CorruptedPayload, mt toNat_zero.mpr hlen] using hchanged hc
  · refine ⟨(drawCorrupt s.ports.arg1.toNat s.env.draws).2, ?_⟩
    cases hc : (drawCorrupt s.ports.arg1.toNat s.env.draws).1 with
    | false =>
      exact .inl ⟨fun e => ne_of_not_drawCorrupt hc (congrArg BitVec.toNat e),
        exec_injpkt_of_ok hidle hprob (corruptPacket_of_not_chosen hc)⟩
    | true =>
      refine .inr ⟨mt toNat_zero.mp (ne_zero_of_drawCorrupt hc),
        exec_injpkt_of_error (e := ⟨.injectRange, 1⟩) hidle hprob ?_⟩
      rw [ha, hlen]
      exact corruptPacket_of_too_many_flips hc hh hn

/-- Settles O35: the script names the positions, the start or the choice. -/
theorem everyDrawIsPossible : Obligations.EveryDrawIsPossible := by
  intro s count hidle drawing
  refine ⟨fun P hnodup hmem hlen => ?_, fun st harg ha hfit hany => ?_, fun h0 h1 hnl harg c => ?_⟩
  · have hmem : ∀ k ∈ P, k ∈ List.range (8 * s.ports.a.length) := fun k hk => List.mem_range.mpr (hmem k hk)
    have hle : s.ports.arg0.toNat ≤ 8 * s.ports.a.length := by
      simpa [← hlen] using (hnodup.subperm hmem).length_le
    obtain ⟨script, hdraw⟩ := exists_script_drawSubset count hnodup hmem
    obtain ⟨r, hflip, hbits⟩ := flipN_of_draw hle (hlen ▸ hdraw)
    exact ⟨script, _, exec_injflip_of_ok (s := drawing script) hidle hflip, hbits⟩
  · have hlen : s.ports.arg0.toNat ≠ 0 := fun e => harg (BitVec.eq_of_toNat_eq e)
    have hlt : st < burstStarts s.params.burstMode (8 * s.ports.a.length) s.ports.arg0.toNat := by
      cases hmode : s.params.burstMode with
      | fit => exact Nat.lt_succ_of_le (hfit hmode)
      | any => exact hany hmode
    obtain ⟨r, hburst, hbits⟩ := burst_of_draw (d := ⟨[st], count⟩) (d' := ⟨[], count⟩) hlen ha
      (Prod.ext (Nat.mod_eq_of_lt hlt) rfl)
    exact ⟨[st], _, exec_injburst (s := drawing [st]) hidle hburst, hbits⟩
  · have hlen : s.ports.arg2.toNat ≠ 0 := fun e => harg (BitVec.eq_of_toNat_eq e)
    obtain ⟨d, r, hcorrupt⟩ :=
      exists_corruptPacket_of_script s.params.burstMode s.ports.arg0.toNat count hnl h0 h1 hlen c
    exact ⟨[c.toNat], _, exec_injpkt_of_ok (s := drawing [c.toNat]) hidle h1.le hcorrupt, rfl, rfl⟩

end

section
/-! PROOFS. A noise stage that must flip more bits than a payload has: the draw that corrupts raises INJECT_RANGE(1), and
any other emits the packet as it is (R183, R188). What a SEND, a retransmission, an advance and a receiver's reply keep
then. -/

namespace Sys2Proof.Machine

/-! ## The noise stage -/

/-- How a rule ends whose one emission, of `q`, must flip too many bits: it raises, or it emits `q` where CFG_PROB allows
it. `u` holds the registers written before; of STATUS a raise keeps only what it does not write (R402). -/
def Flow.RaisesOrEmits (s u : State) (q : ByteStr) (r : Flow) : Prop :=
  ∃ d, (s.cfg.prob = 10000 → d = s.env.draws) ∧
    ((∃ st : StatusFields, st.sess = .opened ∧ st.overrun = s.status.overrun ∧
        r = .raise ⟨.injectRange, 1⟩ { u with status := st, env := { s.env with draws := d } }) ∨
      (s.cfg.prob ≠ 10000 ∧ r = .done { u with env := { s.env with draws := d, tx := s.env.tx ++ [q] } }))

/-- The same of a step: the raise has ended the operation and the session (R402). -/
def StepRaisesOrEmits (i : Instr) (s u : State) (q : ByteStr) : Prop :=
  ∃ d, (s.cfg.prob = 10000 → d = s.env.draws) ∧
    (exec i s = .next
      { u with
        env := { s.env with draws := d }
        status := { s.status with
          err := .injectRange, faultSeen := true, op := .none, sndState := .idle, rcvState := .idle,
          sess := .ended, endCause := .fatalError }
        errInfo := 1 } ∨
    (s.cfg.prob ≠ 10000 ∧ exec i s = .next { u with env := { s.env with draws := d, tx := s.env.tx ++ [q] } }))

theorem Flow.RaisesOrEmits.step {i : Instr} {s u : State} {q : ByteStr} {r : Flow} (hr : r.RaisesOrEmits s u q)
    (hexec : exec i s = r.settle) : StepRaisesOrEmits i s u q := by
  obtain ⟨d, hd, ⟨st, hsess, hover, rfl⟩ | ⟨hprob, rfl⟩⟩ := hr
  · refine ⟨d, hd, .inl ?_⟩
    rw [hexec, Flow.settle_raise, State.raiseFatal, if_pos hsess]
    simp only [← hover]
    rfl
  · exact ⟨d, hd, .inr ⟨hprob, hexec⟩⟩

/-- A rule that goes on after the emission, writing at most STATUS. -/
theorem Flow.RaisesOrEmits.andThen {s u : State} {q : ByteStr} {r : Flow} {st : StatusFields} {k : State → Flow}
    (hr : r.RaisesOrEmits s u q)
    (hk : ∀ env, k { u with env := env } = .done { u with status := st, env := env }) :
    (r.andThen k).RaisesOrEmits s { u with status := st } q := by
  obtain ⟨d, hd, ⟨st', hsess, hover, rfl⟩ | ⟨hprob, rfl⟩⟩ := hr
  · exact ⟨d, hd, .inl ⟨st', hsess, hover, rfl⟩⟩
  · exact ⟨d, hd, .inr ⟨hprob, hk _⟩⟩

/-- The session's noise stage must flip more bits than a packet's payload has. -/
abbrev State.FlipsTooMany (s : State) (q : ByteStr) : Prop :=
  Machine.FlipsTooMany s.cfg.num.toNat s.cfg.prob.toNat s.cfg.burst.toNat q

/-- The noise stage's choice decides: corrupting raises, and not corrupting emits the packet (R183, R188). -/
theorem emitNoisy_raisesOrEmits {s : State} {q : ByteStr} (hsess : s.status.sess = .opened) (hq : s.FlipsTooMany q) :
    (emitNoisy q s).RaisesOrEmits s s q := by
  obtain ⟨-, hburst, h, pay, hh, rfl, hn⟩ := hq
  refine ⟨(drawCorrupt s.cfg.prob.toNat s.env.draws).2,
    fun hprob => congrArg Prod.snd (drawCorrupt_certain _ (congrArg BitVec.toNat hprob)), ?_⟩
  unfold emitNoisy noise
  cases hc : (drawCorrupt s.cfg.prob.toNat s.env.draws).1 with
  | false =>
    rw [corruptPacket_of_not_chosen hc]
    exact .inr ⟨fun e => ne_of_not_drawCorrupt hc (congrArg BitVec.toNat e), rfl⟩
  | true =>
    rw [hburst, corruptPacket_of_too_many_flips hc hh hn]
    exact .inl ⟨s.status, hsess, rfl, rfl⟩

/-! ## The rules -/

section
variable {s : State} {p q pay : ByteStr} {h : Hdr}

/-- A retransmission below the ceiling keeps its count (R248). -/
theorem retransmit_raisesOrEmits (why : Why) (hsess : s.status.sess = .opened) (hlast : s.snd.lastPkt = some q)
    (hretry : s.cfg.retry = 0 ∨ s.snd.retryCnt < s.cfg.retry.toNat) (hq : s.FlipsTooMany q) :
    (retransmit why s).RaisesOrEmits s { s with snd := { s.snd with retryCnt := s.snd.retryCnt + 1 } } q := by
  have hbelow : ¬ (s.cfg.retry.toNat > 0 ∧ s.snd.retryCnt + 1 > s.cfg.retry.toNat) := by
    obtain hzero | hlt := hretry
    · simp [hzero]
    · omega
  rw [retransmit, if_neg hbelow, hlast]
  exact emitNoisy_raisesOrEmits (s := { s with snd := { s.snd with retryCnt := s.snd.retryCnt + 1 } }) hsess hq

/-- A first transmission keeps LAST_PKT and RETRY_CNT (R247, R241, R249). -/
theorem transmitFragment_raisesOrEmits {i : Nat} (hsess : s.status.sess = .opened)
    (hpay : s.snd.frags[i]? = some pay) (hq : s.FlipsTooMany (dataPacket s i pay)) :
    (transmitFragment i s).RaisesOrEmits s
      { s with
        snd := { s.snd with lastPkt := some (dataPacket s i pay), retryCnt := 0 }
        status := { s.status with sndState := .waitForReply } } (dataPacket s i pay) := by
  rw [transmitFragment, buildData, hpay]
  exact (emitNoisy_raisesOrEmits
    (s := { s with snd := { s.snd with lastPkt := some (dataPacket s i pay), retryCnt := 0 } }) hsess hq).andThen
      fun _ => rfl

/-- An advance to a fragment keeps SND_IDX and what the transmission writes (R249). -/
theorem advance_raisesOrEmits (hsess : s.status.sess = .opened) (hlast : s.snd.idx + 1 ≠ s.snd.total)
    (hpay : s.snd.frags[s.snd.idx + 1]? = some pay) (hq : s.FlipsTooMany (dataPacket s (s.snd.idx + 1) pay)) :
    (advance s).RaisesOrEmits s
      { s with
        snd := { s.snd with
          idx := s.snd.idx + 1, lastPkt := some (dataPacket s (s.snd.idx + 1) pay), retryCnt := 0 }
        status := { s.status with sndState := .waitForReply } } (dataPacket s (s.snd.idx + 1) pay) := by
  rw [advance, if_neg hlast]
  exact transmitFragment_raisesOrEmits
    (s := { s with
      status := { s.status with sndState := .idle }
      snd := { s.snd with idx := s.snd.idx + 1 } }) hsess hpay hq

/-- A new fragment that does not complete the message keeps RCV_BUF, RCV_TOTAL and the inverted RCV_BIT (R313, R343). -/
theorem newFragment_raisesOrEmits {k : Reply} {rc : ReceiverRegs} (hsess : s.status.sess = .opened)
    (hbuf : bufferFragment h s = .done { s with rcv := rc }) (hopen : bufComplete rc = false)
    (hq : s.FlipsTooMany (buildReply s k h h.n)) :
    (newFragment k h s).RaisesOrEmits s { s with rcv := { rc with bit := !rc.bit } } (buildReply s k h h.n) := by
  have hopen : bufComplete { rc with bit := !rc.bit } = false := hopen
  rw [newFragment, hbuf, Flow.andThen_done]
  dsimp only
  rw [hopen]
  refine (emitNoisy_raisesOrEmits (s := { s with rcv := { rc with bit := !rc.bit } }) hsess hq).andThen fun env => ?_
  obtain ⟨hfull, -⟩ | ⟨-, hdeliver⟩ := deliver_cases { s with rcv := { rc with bit := !rc.bit }, env := env }
  · exact absurd (hopen.symm.trans hfull) nofun
  · exact congrArg Flow.done hdeliver

/-! ## Packets whose payload is too short -/

theorem flipsTooMany_of_payload {hd : ByteStr} (hprob : s.cfg.prob ≠ 0) (hburst : s.cfg.burst = 0) (hh : nl ∉ hd)
    (hn : 8 * pay.length < s.cfg.num.toNat) : s.FlipsTooMany (hd ++ nl :: pay) :=
  ⟨fun e => hprob (BitVec.eq_of_toNat_eq e), congrArg BitVec.toNat hburst, hd, pay, hh, rfl, hn⟩

theorem dataPacket_flipsTooMany {i : Nat} (hprob : s.cfg.prob ≠ 0) (hburst : s.cfg.burst = 0)
    (hn : 8 * pay.length < s.cfg.num.toNat) : s.FlipsTooMany (dataPacket s i pay) :=
  flipsTooMany_of_payload hprob hburst (nl_notMem_header _ _ _ _ _ _) hn

/-- A reply's payload has at most 3 bytes (R245). -/
theorem buildReply_flipsTooMany (k : Reply) (n : Bool) (hprob : s.cfg.prob ≠ 0) (hburst : s.cfg.burst = 0)
    (hn : 24 < s.cfg.num.toNat) : s.FlipsTooMany (buildReply s k h n) := by
  have hlen : k.payload.length ≤ 3 := by cases k <;> decide
  exact flipsTooMany_of_payload hprob hburst (nl_notMem_header _ _ _ _ _ _)
    (show 8 * k.payload.length < s.cfg.num.toNat by omega)

end

/-! ## Which rule an RX runs -/

/-- A sender's rule on a parsed packet without FIN (R254); version 1.0 has none. -/
def senderRule : Version → Hdr → State → Flow
  | .v10 => fun _ _ => .stuck .noSenderRule
  | .v20 => v20SendRx
  | .v21 | .v22 => v21SendRx
  | .v30 => v30SendRx

/-- A receiver's rule on a parsed packet that is neither FIN nor a stale reply (R254). -/
def receiverRule : Version → Hdr → State → Flow
  | .v10 => v10RecvRx
  | .v20 => v20RecvRx
  | .v21 | .v22 => v21RecvRx
  | .v30 => v30RecvRx

section
variable {s : State} {h : Hdr} {p : ByteStr}

theorem rxRule_send (p : ByteStr) (hop : s.status.op = .send) (hver : s.cfg.ver ≠ .v10) :
    rxRule p s = senderRx p (senderRule s.cfg.ver) s := by
  unfold rxRule
  cases hv : s.cfg.ver with
  | v10 => exact absurd hv hver
  | v20 | v21 | v22 | v30 => rw [hop]; rfl

theorem rxRule_recv (p : ByteStr) (hop : s.status.op = .recv) :
    rxRule p s = receiverRx p (receiverRule s.cfg.ver) s := by
  unfold rxRule
  cases s.cfg.ver with
  | v10 | v20 | v21 | v22 | v30 => rw [hop]; rfl

/-- A sender that does not accept a packet retransmits (R284, R311, R312, R341). -/
theorem senderRule_of_not_acceptable (hver : s.cfg.ver ≠ .v10) (hacc : acceptable s h = false) :
    ∃ why, senderRule s.cfg.ver h s = retransmit why s := by
  unfold acceptable at hacc
  cases hv : s.cfg.ver with
  | v10 => exact absurd hv hver
  | v20 =>
    simp only [hv, Bool.and_eq_false_imp, Bool.not_eq_false'] at hacc
    rw [senderRule, v20SendRx, if_neg fun hc => hc.2 (hacc hc.1)]
    split <;> exact ⟨_, rfl⟩
  | v21 =>
    simp only [hv, Bool.and_eq_false_imp, decide_eq_false_iff_not] at hacc
    rw [senderRule, v21SendRx, if_neg fun hc => hacc hc.1 hc.2]
    split <;> exact ⟨_, rfl⟩
  | v22 =>
    simp only [hv] at hacc
    rw [senderRule, v21SendRx]
    split_ifs with hack hstale
    · exact ⟨_, rfl⟩
    · simp [hv, hack] at hacc hstale
      exact absurd hstale hacc
    · exact ⟨_, rfl⟩
    · exact ⟨_, rfl⟩
  | v30 =>
    simp only [hv] at hacc
    rw [senderRule, v30SendRx]
    split
    · exact ⟨_, rfl⟩
    · split
      · exact ⟨_, rfl⟩
      · split
        · exact ⟨_, rfl⟩
        · split
          · exact ⟨_, rfl⟩
          · simp_all

/-- A sender that accepts a packet advances, with SND_BIT inverted in the versions that have it (R284, R311, R341). -/
theorem senderRule_of_acceptable (hacc : acceptable s h = true) : senderRule s.cfg.ver h s =
    advance { s with snd := { s.snd with bit := if s.cfg.ver = .v20 then s.snd.bit else !s.snd.bit } } := by
  unfold acceptable at hacc
  cases hv : s.cfg.ver with
  | v10 => simp [hv] at hacc
  | v20 => simp_all [senderRule, v20SendRx]
  | v21 | v22 => simp_all [senderRule, v21SendRx, acceptAck]
  | v30 => simp_all [senderRule, v30SendRx, acceptAck]

/-- A sender takes a packet it parses, without FIN, to its version's rule (R252). -/
theorem rxRule_send_of_parsed (hop : s.status.op = .send) (hver : s.cfg.ver ≠ .v10)
    (hparse : parse s.cfg.ver.format p = .ok h) (hfin : finFlag h.fl = false) :
    rxRule p s = senderRule s.cfg.ver h s := by
  rw [rxRule_send p hop hver]
  simp [senderRx, State.fmt, hparse, hfin]

/-- A receiver takes a packet it parses, without FIN and no stale reply, to its version's rule (R253). -/
theorem rxRule_recv_of_parsed (hop : s.status.op = .recv) (hparse : parse s.cfg.ver.format p = .ok h)
    (hfin : finFlag h.fl = false) (hstale : staleReply s.cfg.ver h.fl = false) :
    rxRule p s = receiverRule s.cfg.ver h s := by
  rw [rxRule_recv p hop]
  simp [receiverRx, State.fmt, hparse, hfin, hstale]

/-! ## A receiver with an acknowledgment bit -/

/-- The acknowledgment of versions 2.1 to 3.0 (R245). -/
def ackReply (v : Version) : Reply := if v = .v30 then .v30Ack else .textAck

theorem format_eq_cN {v : Version} (hv10 : v ≠ .v10) (hv20 : v ≠ .v20) : v.format = .cN := by
  cases v with
  | v10 => exact absurd rfl hv10
  | v20 => exact absurd rfl hv20
  | v21 | v22 | v30 => rfl

/-- After version 2.0 only version 3.0 drops stale replies (R253). -/
theorem staleReply_eq_false {v : Version} {fl : Byte} (hv20 : v ≠ .v20)
    (hfl : v = .v30 → ackFlag fl = false ∧ nackFlag fl = false) : staleReply v fl = false := by
  by_cases hv : v = .v30
  · simp [staleReply, hfl hv]
  · simp [staleReply, hv, hv20]

/-- An acknowledgment character for character (R245). -/
theorem buildReply_ackReply (h : Hdr) (n : Bool) (hfmt : s.cfg.ver.format = .cN) :
    buildReply s (ackReply s.cfg.ver) h n =
      header .cN h.s h.t (if s.cfg.ver = .v30 then 0x01 else 0x00)
        [false, false, true, true, false, false, false, false] n ++ nl :: ascii ['A', 'C', 'K'] := by
  have hbits : checksumBits ackText = [false, false, true, true, false, false, false, false] := by decide
  unfold buildReply ackReply
  rw [State.fmt, hfmt, ← hbits]
  split <;> rfl

/-- A negative acknowledgment character for character (R245). -/
theorem buildReply_textNak (h : Hdr) (n : Bool) (hfmt : s.cfg.ver.format = .cN) :
    buildReply s .textNak h n =
      header .cN h.s h.t 0x00 [false, false, true, false, false, true, false, true] n ++
        nl :: ascii ['N', 'A', 'K'] := by
  have hbits : checksumBits nakText = [false, false, true, false, false, true, false, true] := by decide
  rw [buildReply, State.fmt, hfmt, ← hbits]
  rfl

/-- A corrupt packet is answered with the prior ACK in version 3.0 and with a NAK before it (R313, R343). -/
theorem receiverRule_of_corrupt (hv10 : s.cfg.ver ≠ .v10) (hv20 : s.cfg.ver ≠ .v20) (hc : h.checks = false) :
    receiverRule s.cfg.ver h s =
      if s.cfg.ver = .v30 then sendReply (buildReply s .v30Ack h (!s.rcv.bit)) true s
      else sendReply (buildReply s .textNak h s.rcv.bit) true s := by
  cases hv : s.cfg.ver with
  | v10 => exact absurd hv hv10
  | v20 => exact absurd hv hv20
  | v21 | v22 => simp [receiverRule, v21RecvRx, hc]
  | v30 => simp [receiverRule, v30RecvRx, hc]

/-- A duplicate is acknowledged again (R313, R343). -/
theorem receiverRule_of_duplicate (hv10 : s.cfg.ver ≠ .v10) (hv20 : s.cfg.ver ≠ .v20) (hc : h.checks = true)
    (hn : h.n ≠ s.rcv.bit) :
    receiverRule s.cfg.ver h s = sendReply (buildReply s (ackReply s.cfg.ver) h h.n) true s := by
  cases hv : s.cfg.ver with
  | v10 => exact absurd hv hv10
  | v20 => exact absurd hv hv20
  | v21 | v22 => simp [receiverRule, v21RecvRx, hc, hn, ackReply]
  | v30 => simp [receiverRule, v30RecvRx, hc, hn, ackReply]

/-- A new fragment is taken (R313, R343). -/
theorem receiverRule_of_new (hv10 : s.cfg.ver ≠ .v10) (hv20 : s.cfg.ver ≠ .v20) (hc : h.checks = true)
    (hn : h.n = s.rcv.bit) : receiverRule s.cfg.ver h s = newFragment (ackReply s.cfg.ver) h s := by
  cases hv : s.cfg.ver with
  | v10 => exact absurd hv hv10
  | v20 => exact absurd hv hv20
  | v21 | v22 => simp [receiverRule, v21RecvRx, hc, hn, ackReply]
  | v30 => simp [receiverRule, v30RecvRx, hc, hn, ackReply]

theorem bufComplete_eq_false {rc : ReceiverRegs} (h : rc.total ≠ some rc.buf.length) : bufComplete rc = false := by
  unfold bufComplete
  split
  · rfl
  · rename_i t ht
    exact decide_eq_false fun e => h (e ▸ ht)

/-- Four digits give at most 9999 (R90). -/
theorem parseRun_four_digits_le {c : BitVec 16} {g : ByteStr} {r : ByteStr × ByteStr}
    (hrun : parseRun 4 isDigit c g = .ok r) : decimalVal r.1 ≤ 9999 := by
  unfold parseRun at hrun
  split at hrun
  · rename_i hdigits
    cases hrun
    obtain ⟨v, hv, hdec⟩ := eq_dec4_iff.mp ⟨by simpa using hdigits.1, hdigits.2⟩
    simp only [hdec]
    simp [decimalVal, dec4, decDigit]
    omega
  · cases hrun

/-- A decoded total is at most 9999 (R90). -/
theorem parse_total_le {f : Format} (hparse : parse f p = .ok h) : h.t ≤ 9999 := by
  unfold parse at hparse
  split at hparse
  · cases hparse
  · unfold parseHeader at hparse
    obtain ⟨_, -, hparse⟩ := except_bind_eq_ok hparse
    obtain ⟨_, -, hparse⟩ := except_bind_eq_ok hparse
    obtain ⟨_, -, hparse⟩ := except_bind_eq_ok hparse
    obtain ⟨t, ht, hparse⟩ := except_bind_eq_ok hparse
    obtain ⟨_, -, hparse⟩ := except_bind_eq_ok hparse
    obtain ⟨_, -, hparse⟩ := except_bind_eq_ok hparse
    obtain ⟨_, -, hparse⟩ := except_bind_eq_ok hparse
    obtain ⟨_, -, hparse⟩ := except_bind_eq_ok hparse
    obtain ⟨_, -, hparse⟩ := except_bind_eq_ok hparse
    split at hparse <;> cases hparse
    exact parseRun_four_digits_le ht

/-! ## The steps -/

theorem exec_rx_of_waiting (p : ByteStr) (hwait : s.waiting = true) : exec (.rx p) s = (rxRule p s).settle := by
  change execRx p s = _
  rw [execRx, if_pos hwait]

theorem exec_timeout_of_timedWait (hwait : s.timedWait = true) : exec .timeout s = (timeoutRule s).settle := by
  change execTimeout s = _
  rw [execTimeout, if_pos hwait]

/-- A SEND issued without BUSY of a message that is cut into 1 to 9999 fragments, after version 1.0 (R241). -/
theorem exec_send_of_fragments (hidle : s.status.op = .none) (hsess : s.status.sess = .opened) (hver : s.cfg.ver ≠ .v10)
    (ha : s.ports.a ≠ []) (hle : s.ports.a.length ≤ 9999 * s.packetDataLen) :
    exec .send s = (transmitFragment 0 { loadMessage (fragment s.ports.a s.packetDataLen) s with
      status := { s.status with op := .send } }).settle := by
  change execSend s = _
  rw [execSend, issue_of_not_busy _ ((State.busy_eq_false s).mpr hidle), inSession_of_opened _ hsess, sendMessage]
  dsimp only
  rw [if_neg (Nat.not_lt.mpr (fragment_length_le hle)), if_neg (fragment_length_ne_zero s.one_le_packetDataLen ha),
    if_neg hver]

end

end Sys2Proof.Machine

open Sys2Proof Sys2Proof.Machine

/-- Settles O49: each rule makes its writes and then emits one packet whose payload is too short for the flips. -/
theorem noiseRangeErrorEndsTheSession : Obligations.NoiseRangeErrorEndsTheSession := by
  intro s hsess hver hprob hburst goes data
  have sender_waits (hop : s.status.op = .send) (hst : s.status.sndState = .waitForReply) : s.waiting = true :=
    s.waiting_iff.mpr (.inl ⟨hop, hst⟩)
  refine ⟨fun hidle ha hle hn => ?_, fun hd pay hop hst hh hlast hretry hn => ?_,
    fun p h pay hop hst hparse hfin hacc hidx hpay hn => ?_, fun p h hop hst hv20 hparse hfin hstale hn => ?_⟩
  · have hpay := fragment_head s.one_le_packetDataLen ha
    have hends := transmitFragment_raisesOrEmits
      (s := { loadMessage (fragment s.ports.a s.packetDataLen) s with status := { s.status with op := .send } })
      hsess hpay (dataPacket_flipsTooMany hprob hburst (by rwa [List.length_take]))
    exact Flow.RaisesOrEmits.step (s := s) hends (exec_send_of_fragments hidle hsess hver ha hle)
  · have hends (why : Why) :=
      retransmit_raisesOrEmits why hsess hlast hretry (flipsTooMany_of_payload hprob hburst hh hn)
    refine ⟨fun hv => (hends .timeout).step ?_, fun p h hparse hfin hacc => ?_⟩
    · rw [exec_timeout_of_timedWait (s.timedWait_iff.mpr (.inl ⟨hop, hst, hv⟩)), timeoutRule, hop]
    · obtain ⟨why, hrule⟩ := senderRule_of_not_acceptable hver hacc
      refine (hends why).step ?_
      rw [exec_rx_of_waiting p (sender_waits hop hst), rxRule_send_of_parsed hop hver hparse hfin, hrule]
  · intro bit q
    have hends := advance_raisesOrEmits (s := { s with snd := { s.snd with bit := bit } }) hsess hidx hpay
      (dataPacket_flipsTooMany hprob hburst hn)
    have hexec : exec (.rx p) s = (advance { s with snd := { s.snd with bit := bit } }).settle := by
      rw [exec_rx_of_waiting p (sender_waits hop hst), rxRule_send_of_parsed hop hver hparse hfin,
        senderRule_of_acceptable hacc]
    rw [← hst] at hends
    exact Flow.RaisesOrEmits.step (s := s) hends hexec
  · intro fl ack nak
    have hfmt : s.cfg.ver.format = .cN := format_eq_cN hver hv20
    have hack (n : Bool) : ack n = buildReply s (ackReply s.cfg.ver) h n := (buildReply_ackReply h n hfmt).symm
    have hnak : nak = buildReply s .textNak h s.rcv.bit := (buildReply_textNak h s.rcv.bit hfmt).symm
    have hexec : exec (.rx p) s = (receiverRule s.cfg.ver h s).settle := by
      rw [exec_rx_of_waiting p (s.waiting_iff.mpr (.inr ⟨hop, hst⟩)),
        rxRule_recv_of_parsed hop (hfmt.symm ▸ hparse) hfin (staleReply_eq_false hv20 hstale)]
    have hreply (k : Reply) (n : Bool) :=
      emitNoisy_raisesOrEmits hsess (buildReply_flipsTooMany (h := h) k n hprob hburst hn)
    simp only [hack, hnak]
    refine ⟨fun hc hv => ?_, fun hc hv => ?_, fun hc hbit => ?_,
      fun hc hbit h1 h2 htotal hlen => ⟨fun hnew hcount => ?_, fun hdup hopen => ?_⟩⟩
    · exact (hreply _ _).step (hexec.trans (by rw [receiverRule_of_corrupt hver hv20 hc, if_neg hv]; rfl))
    · rw [ackReply, if_pos hv]
      exact (hreply _ _).step (hexec.trans (by rw [receiverRule_of_corrupt hver hv20 hc, if_pos hv]; rfl))
    · exact (hreply _ _).step (hexec.trans (by rw [receiverRule_of_duplicate hver hv20 hc hbit]; rfl))
    · rw [receiverRule_of_new hver hv20 hc hbit] at hexec
      exact (newFragment_raisesOrEmits hsess (bufferFragment_new h1 h2 (parse_total_le hparse) htotal hlen hnew)
        (bufComplete_eq_false fun e => hcount ((bufInsert_length hnew).symm.trans (Option.some.inj e).symm))
        (buildReply_flipsTooMany _ _ hprob hburst hn)).step hexec
    · rw [receiverRule_of_new hver hv20 hc hbit] at hexec
      exact (newFragment_raisesOrEmits hsess (bufferFragment_dup h1 h2 (parse_total_le hparse) htotal hlen hdup)
        (bufComplete_eq_false hopen) (buildReply_flipsTooMany _ _ hprob hburst hn)).step hexec

end

section
/-! PROOFS. The noise configuration beside a run: every rule does with CFG_PROB = 0 what it does with any other, but for
the draws and for what each emission becomes, unless the noise stage raises (R188). -/

namespace Sys2Proof.Machine

/-! ## The quiet twin of a state -/

/-- The state with CFG_PROB = 0, in the environment `e`. -/
def State.quiet (e : Env) (t : State) : State := { t with cfg := { t.cfg with prob := 0 }, env := e }

section
variable (e : Env) (t : State)

@[simp] theorem State.quiet_status : (t.quiet e).status = t.status := rfl
@[simp] theorem State.quiet_prob : (t.quiet e).cfg.prob = 0 := rfl
@[simp] theorem State.quiet_snd : (t.quiet e).snd = t.snd := rfl
@[simp] theorem State.quiet_rcv : (t.quiet e).rcv = t.rcv := rfl
@[simp] theorem State.quiet_fmt : (t.quiet e).fmt = t.fmt := rfl
@[simp] theorem State.quiet_packetDataLen : (t.quiet e).packetDataLen = t.packetDataLen := rfl

/-- A fatal raise commutes with the twin (R402). -/
theorem State.raiseFatal_quiet (x : Raise) : (t.quiet e).raiseFatal x = (t.raiseFatal x).quiet e := by
  unfold State.raiseFatal
  split <;> rename_i hsess
  · rw [if_pos (show t.status.sess = .opened from hsess)]; rfl
  · rw [if_neg (show ¬ t.status.sess = .opened from hsess)]; rfl

end

/-- `e` has what a quiet run has emitted where a run under the configuration of `s` has reached `t`. -/
structure QuietEnv (s t : State) (e : Env) : Prop where
  cfg : t.cfg = s.cfg
  params : t.params = s.params
  tx : List.Forall₂ (fun p q => q = p ∨ NoisyCopy s p q) e.tx t.env.tx

/-- Both runs start in the same environment. -/
theorem QuietEnv.refl (s : State) : QuietEnv s s s.env := ⟨rfl, rfl, List.forall₂_same.mpr fun _ _ => .inl rfl⟩

/-- A fatal raise emits nothing (R402). -/
theorem QuietEnv.raiseFatal {s t : State} {e : Env} (h : QuietEnv s t e) (x : Raise) : QuietEnv s (t.raiseFatal x) e :=
  ⟨by simpa using h.cfg, by simpa using h.params, by simpa using h.tx⟩

/-- Both runs emit, the quiet one the packet itself. -/
theorem QuietEnv.append {s t u : State} {e : Env} {ps qs : List ByteStr} (h : QuietEnv s t e) (hcfg : u.cfg = t.cfg)
    (hparams : u.params = t.params) (htx : u.env.tx = t.env.tx ++ qs)
    (hq : List.Forall₂ (fun p q => q = p ∨ NoisyCopy s p q) ps qs) : QuietEnv s u { e with tx := e.tx ++ ps } :=
  ⟨hcfg.trans h.cfg, hparams.trans h.params, htx ▸ List.rel_append h.tx hq⟩

/-- How a rule and its quiet run `r'` end together, unless the noise stage raises. -/
def Flow.HasQuietTwin (s : State) (r r' : Flow) : Prop :=
  match r with
  | .done t => ∃ e, r' = .done (t.quiet e) ∧ QuietEnv s t e
  | .raise x t => x.code = .injectRange ∨ ∃ e, r' = .raise x (t.quiet e) ∧ QuietEnv s t e
  | .stuck _ => True

theorem Flow.HasQuietTwin.andThen {s : State} {r r' : Flow} {k : State → Flow} (hr : r.HasQuietTwin s r')
    (hk : ∀ t e, QuietEnv s t e → (k t).HasQuietTwin s (k (t.quiet e))) :
    (r.andThen k).HasQuietTwin s (r'.andThen k) := by
  cases r with
  | done t => obtain ⟨e, rfl, ht⟩ := hr; exact hk t e ht
  | raise x t =>
    obtain hx | ⟨e, rfl, ht⟩ := hr
    · exact .inl hx
    · exact .inr ⟨e, rfl, ht⟩
  | stuck f => trivial

/-- A choice that both runs make alike. -/
theorem Flow.HasQuietTwin.branch {s : State} {c : Prop} {dec dec' : Decidable c} {a a' b b' : Flow}
    (ha : a.HasQuietTwin s a') (hb : b.HasQuietTwin s b') :
    (@ite Flow c dec a b).HasQuietTwin s (@ite Flow c dec' a' b') := by
  by_cases hc : c
  · simpa only [if_pos hc] using ha
  · simpa only [if_neg hc] using hb

/-- A step that answers `t` goes, without the noise, to the twin of `t`. -/
def GoesToQuietTwin (i : Instr) (s t : State) : Prop :=
  ∃ e, exec i (s.quiet s.env) = .next (t.quiet e) ∧ QuietEnv s t e

theorem Flow.HasQuietTwin.step {i : Instr} {s t : State} {r r' : Flow} (hr : r.HasQuietTwin s r')
    (h : r.settle = .next t) (hexec : exec i (s.quiet s.env) = r'.settle)
    (hrange : t.status.op ≠ .none ∨ t.status.err ≠ .injectRange) : GoesToQuietTwin i s t := by
  obtain rfl | ⟨x, u, rfl, rfl⟩ := Flow.settle_eq_next h
  · obtain ⟨e, rfl, ht⟩ := hr
    exact ⟨e, hexec, ht⟩
  · obtain hx | ⟨e, rfl, ht⟩ := hr
    · simp [hx] at hrange
    · exact ⟨e, by rw [hexec, Flow.settle_raise, State.raiseFatal_quiet], ht.raiseFatal x⟩

/-! ## The shared operations -/

section
variable {s t : State} {e : Env}

/-- The noise stage emits a noisy copy where the quiet run emits the packet (R188). -/
theorem emitNoisy_quiet (p : ByteStr) (h : QuietEnv s t e) :
    (emitNoisy p t).HasQuietTwin s (emitNoisy p (t.quiet e)) := by
  rw [emitNoisy_prob_zero p (State.quiet_prob e t)]
  obtain ⟨d, q, hq, hemit⟩ | ⟨-, d, hemit⟩ := emitNoisy_cases p t <;> rw [hemit]
  · have hq : NoisyCopy s p q := by rwa [NoisyCopy, h.cfg, h.params] at hq
    exact ⟨_, rfl, h.append rfl rfl rfl (.cons (.inr hq) .nil)⟩
  · exact .inl rfl

theorem retransmit_quiet (why : Why) (h : QuietEnv s t e) :
    (retransmit why t).HasQuietTwin s (retransmit why (t.quiet e)) := by
  refine .branch (.inr ⟨e, rfl, h⟩) ?_
  rw [State.quiet_snd]
  cases t.snd.lastPkt with
  | none => trivial
  | some p => exact emitNoisy_quiet (t := { t with snd := { t.snd with retryCnt := t.snd.retryCnt + 1 } }) p { h with }

theorem transmitFragment_quiet (i : Nat) (h : QuietEnv s t e) :
    (transmitFragment i t).HasQuietTwin s (transmitFragment i (t.quiet e)) := by
  unfold transmitFragment
  rw [show buildData (t.quiet e) i = buildData t i from rfl]
  cases buildData t i with
  | none => trivial
  | some p =>
    exact (emitNoisy_quiet (t := { t with snd := { t.snd with lastPkt := some p, retryCnt := 0 } }) p
      { h with }).andThen fun _ e hu => ⟨e, rfl, { hu with }⟩

theorem advance_quiet (h : QuietEnv s t e) : (advance t).HasQuietTwin s (advance (t.quiet e)) :=
  .branch ⟨e, rfl, { h with }⟩
    (transmitFragment_quiet (t := { t with
      status := { t.status with sndState := .idle }
      snd := { t.snd with idx := t.snd.idx + 1 } }) _ { h with })

theorem sendReply_quiet (p : ByteStr) (inj : Bool) (h : QuietEnv s t e) :
    (sendReply p inj t).HasQuietTwin s (sendReply p inj (t.quiet e)) := by
  cases inj with
  | true => exact emitNoisy_quiet p h
  | false => exact ⟨_, rfl, h.append rfl rfl rfl (.cons (.inl rfl) .nil)⟩

theorem bufferFragment_quiet (hd : Hdr) (h : QuietEnv s t e) :
    (bufferFragment hd t).HasQuietTwin s (bufferFragment hd (t.quiet e)) := by
  unfold bufferFragment
  simp only [State.quiet_packetDataLen, State.quiet_rcv]
  cases bufAdd t.packetDataLen t.rcv hd.s hd.t hd.pay with
  | error x => exact .inr ⟨e, rfl, h⟩
  | ok rc => exact ⟨e, rfl, { h with }⟩

theorem deliver_quiet (h : QuietEnv s t e) : (Flow.done (deliver t)).HasQuietTwin s (.done (deliver (t.quiet e))) := by
  unfold deliver
  by_cases hfull : bufComplete t.rcv = true
  · rw [if_pos hfull, if_pos (show bufComplete (t.quiet e).rcv = true from hfull)]
    exact ⟨e, rfl, { h with }⟩
  · rw [if_neg hfull, if_neg (show ¬ bufComplete (t.quiet e).rcv = true from hfull)]
    exact ⟨e, rfl, h⟩

theorem newFragment_quiet (k : Reply) (hd : Hdr) (h : QuietEnv s t e) :
    (newFragment k hd t).HasQuietTwin s (newFragment k hd (t.quiet e)) :=
  (bufferFragment_quiet hd h).andThen fun u _ hu =>
    (sendReply_quiet (t := { u with rcv := { u.rcv with bit := !u.rcv.bit } }) _ _ { hu with }).andThen
      fun _ _ hv => deliver_quiet hv

/-! ## The rules -/

theorem acceptAck_quiet (h : QuietEnv s t e) : (acceptAck t).HasQuietTwin s (acceptAck (t.quiet e)) :=
  advance_quiet (t := { t with snd := { t.snd with bit := !t.snd.bit } }) { h with }

theorem senderRule_quiet (v : Version) (hd : Hdr) (h : QuietEnv s t e) :
    (senderRule v hd t).HasQuietTwin s (senderRule v hd (t.quiet e)) := by
  have hretransmit (why : Why) := retransmit_quiet why h
  cases v with
  | v10 => trivial
  | v20 => exact .branch (advance_quiet h) (.branch (hretransmit _) (hretransmit _))
  | v21 | v22 =>
    exact .branch (.branch (hretransmit _) (acceptAck_quiet h)) (.branch (hretransmit _) (hretransmit _))
  | v30 =>
    exact .branch (hretransmit _) (.branch (hretransmit _) (.branch (hretransmit _)
      (.branch (hretransmit _) (acceptAck_quiet h))))

theorem receiverRule_quiet (v : Version) (hd : Hdr) (h : QuietEnv s t e) :
    (receiverRule v hd t).HasQuietTwin s (receiverRule v hd (t.quiet e)) := by
  have hreply (p : ByteStr) (inj : Bool) := sendReply_quiet p inj h
  have hbuffer := bufferFragment_quiet hd h
  cases v with
  | v10 => exact hbuffer.andThen fun _ _ hu => deliver_quiet hu
  | v20 =>
    exact .branch (hbuffer.andThen fun _ _ hu => (sendReply_quiet _ false hu).andThen fun _ _ hv => deliver_quiet hv)
      (hreply _ false)
  | v21 | v22 | v30 => exact .branch (hreply _ true) (.branch (newFragment_quiet _ hd h) (hreply _ true))

theorem rxRule_quiet (p : ByteStr) (h : QuietEnv s t e) : (rxRule p t).HasQuietTwin s (rxRule p (t.quiet e)) := by
  cases hop : t.status.op with
  | none =>
    rw [rxRule, rxRule, State.quiet_status, hop]
    exact ⟨e, rfl, h⟩
  | send =>
    by_cases hver : t.cfg.ver = .v10
    · rw [rxRule, hop, hver]; trivial
    · rw [rxRule_send p hop hver, rxRule_send (s := t.quiet e) p hop hver, senderRx, senderRx, State.quiet_fmt]
      cases parse t.fmt p with
      | error c => exact .inr ⟨e, rfl, h⟩
      | ok hd => exact .branch (.inr ⟨e, rfl, { h with }⟩) (senderRule_quiet _ hd h)
  | recv =>
    rw [rxRule_recv p hop, rxRule_recv (s := t.quiet e) p hop, receiverRx, receiverRx, State.quiet_fmt]
    cases parse t.fmt p with
    | error c => exact .inr ⟨e, rfl, h⟩
    | ok hd => exact .branch (.inr ⟨e, rfl, { h with }⟩) (.branch ⟨e, rfl, h⟩ (receiverRule_quiet _ hd h))

theorem timeoutRule_quiet (h : QuietEnv s t e) : (timeoutRule t).HasQuietTwin s (timeoutRule (t.quiet e)) := by
  unfold timeoutRule
  rw [State.quiet_status]
  cases t.status.op with
  | send => exact retransmit_quiet .timeout h
  | recv | none => exact ⟨e, rfl, h⟩

theorem sendMessage_quiet (h : QuietEnv s t e) : (sendMessage t).HasQuietTwin s (sendMessage (t.quiet e)) :=
  .branch (.inr ⟨e, rfl, h⟩)
    (.branch ⟨e, rfl, { h with }⟩
      (.branch ⟨_, rfl, h.append rfl rfl rfl (List.forall₂_same.mpr fun _ _ => .inl rfl)⟩
        (transmitFragment_quiet 0 (t := { loadMessage (fragment t.ports.a t.packetDataLen) t with
          status := { t.status with op := .send } }) { h with })))

end

/-! ## The steps -/

section
variable {s t : State}

theorem execSend_quiet (h : execSend s = .next t) (hrange : t.status.op ≠ .none ∨ t.status.err ≠ .injectRange) :
    GoesToQuietTwin .send s t := by
  obtain ⟨hbusy, rfl⟩ | ⟨hbusy, h⟩ := issue_eq_next h
  · exact ⟨s.env, exec_of_busy rfl hbusy, { QuietEnv.refl s with }⟩
  · have hexec : exec .send (s.quiet s.env) = inSession (s.quiet s.env) fun s => (sendMessage s).settle :=
      issue_of_not_busy (s := s.quiet s.env) (fun s => inSession s fun s => (sendMessage s).settle) hbusy
    obtain ⟨hsess, rfl⟩ | ⟨hsess, rfl⟩ | ⟨hsess, h⟩ := inSession_eq_next h
    · exact ⟨s.env, by rw [hexec, inSession, State.quiet_status, hsess]; rfl, { QuietEnv.refl s with }⟩
    · exact ⟨s.env, by rw [hexec, inSession, State.quiet_status, hsess]; rfl, { QuietEnv.refl s with }⟩
    · exact (sendMessage_quiet (.refl s)).step h (hexec.trans (inSession_of_opened _ hsess)) hrange

theorem execRx_quiet {p : ByteStr} (h : execRx p s = .next t)
    (hrange : t.status.op ≠ .none ∨ t.status.err ≠ .injectRange) : GoesToQuietTwin (.rx p) s t := by
  obtain ⟨hwait, h⟩ | ⟨hwait, rfl⟩ := execRx_cases h
  · exact (rxRule_quiet p (.refl s)).step h (exec_rx_of_waiting (s := s.quiet s.env) p hwait) hrange
  · refine ⟨(s.keepInChannel p).env, ?_, { QuietEnv.refl s with }⟩
    exact if_neg (show ¬ (s.quiet s.env).waiting = true from Bool.eq_false_iff.mp hwait)

theorem execTimeout_quiet (h : execTimeout s = .next t) (hrange : t.status.op ≠ .none ∨ t.status.err ≠ .injectRange) :
    GoesToQuietTwin .timeout s t := by
  obtain ⟨hwait, h⟩ | ⟨hwait, rfl⟩ := execTimeout_cases h
  · exact (timeoutRule_quiet (.refl s)).step h (exec_timeout_of_timedWait (s := s.quiet s.env) hwait) hrange
  · exact ⟨_, if_neg (show ¬ (State.quiet _ _).timedWait = true from Bool.eq_false_iff.mp hwait), .refl _⟩

end

end Sys2Proof.Machine

open Sys2Proof Sys2Proof.Machine

/-- Settles O21: a SEND, an RX and a TIMEOUT each go to their quiet twin. -/
theorem noiseChangesNoTransition : Obligations.NoiseChangesNoTransition := by
  intro i s t hi h hrange
  obtain ⟨e, hexec, htwin⟩ : GoesToQuietTwin i s t := by
    obtain rfl | rfl | ⟨p, rfl⟩ := hi
    · exact execSend_quiet h hrange
    · exact execTimeout_quiet h hrange
    · exact execRx_quiet h hrange
  exact ⟨t.quiet e, hexec, rfl, htwin.tx⟩

end

section
/-! PROOFS. The packet codec's two directions: the numbers and bits a text stands for, each part of the parser on the texts it
takes and on those it refuses, and from them that rendering and parsing undo each other and which check fails first (R88 to
R90, R200 to R203). -/

namespace Sys2Proof.Machine

/-! ## Numbers and bits from their texts -/

theorem decDigit_value {d : Nat} (h : d < 10) : (decDigit d).toNat - 48 = d := by
  simp only [decDigit, BitVec.toNat_ofNat]
  omega

theorem hexDigitVal_hexDigit {d : Nat} (h : d < 16) : hexDigitVal (hexDigit d) = d := by
  interval_cases d <;> decide

/-- R12, R90: `decimal` of four digits is the number `dec4` writes. -/
theorem decimalVal_dec4 {n : Nat} (h : n ≤ 9999) : decimalVal (dec4 n) = n := by
  have hdigit (k : Nat) : (decDigit (k % 10)).toNat - 48 = k % 10 := decDigit_value (Nat.mod_lt k (by decide))
  simp only [decimalVal, dec4, List.foldl_cons, List.foldl_nil, hdigit]
  omega

/-- R12, R90: `hexval` of two digits is the byte `hex2` writes. -/
theorem hexVal_hex2 (x : Byte) : hexVal (hex2 x) = x.toNat := by
  have hhi : hexDigitVal (hexDigit (x.toNat / 16)) = x.toNat / 16 := hexDigitVal_hexDigit (by omega)
  have hlo : hexDigitVal (hexDigit (x.toNat % 16)) = x.toNat % 16 := hexDigitVal_hexDigit (by omega)
  simp only [hexVal, hex2, List.foldl_cons, List.foldl_nil, hhi, hlo]
  omega

/-- R12, R90: `bits` of bit characters are the bits `bitchars` writes. -/
@[simp] theorem charBits_bitchars (e : BitStr) : charBits (bitchars e) = e := by
  induction e with
  | nil => rfl
  | cons b e ih =>
    have hb : decide ((decDigit b.toNat).toNat = 49) = b := by cases b <;> decide
    simpa [charBits, bitchars, hb] using ih

@[simp] theorem bitchars_length (e : BitStr) : (bitchars e).length = e.length := List.length_map ..

@[simp] theorem bitchars_append (e e' : BitStr) : bitchars (e ++ e') = bitchars e ++ bitchars e' := List.map_append

/-- One bit character is `dec1` of its bit (R12, R90). -/
theorem eq_dec1_iff {x : ByteStr} : x.length = 1 ∧ x.all isBitChar = true ↔ ∃ b, x = dec1 b := by
  constructor
  · rintro ⟨hlen, hall⟩
    obtain ⟨e, rfl⟩ := eq_bitchars_iff.mp hall
    obtain ⟨b, rfl⟩ := List.length_eq_one_iff.mp (by simpa using hlen)
    exact ⟨b, rfl⟩
  · rintro ⟨b, rfl⟩
    exact ⟨rfl, eq_bitchars_iff.mpr ⟨[b], rfl⟩⟩

/-- The bit a `dec1` stands for, as R90's N field reads it. -/
theorem decimalVal_dec1 (b : Bool) : decide (decimalVal (dec1 b) = 1) = b := by cases b <;> decide

/-! ## A literal and a run -/

theorem except_ok_bind {α β : Type} (a : α) (k : α → Except (BitVec 16) β) : ((.ok a : Except _ α) >>= k) = k a := rfl

theorem except_error_bind {α β : Type} (c : BitVec 16) (k : α → Except (BitVec 16) β) :
    ((.error c : Except _ α) >>= k) = .error c := rfl

theorem parseLit_eq_ok {x h r : ByteStr} {c : BitVec 16} (e : parseLit x c h = .ok r) : h = x ++ r := by
  unfold parseLit at e
  split at e <;> cases e
  exact (List.prefix_iff_eq_append.mp (List.prefix_iff_eq_take.mpr (Eq.symm ‹_›))).symm

theorem parseRun_eq_ok {m : Nat} {cls : Byte → Bool} {c : BitVec 16} {h : ByteStr} {r : ByteStr × ByteStr}
    (e : parseRun m cls c h = .ok r) : (r.1.length = m ∧ r.1.all cls = true) ∧ h = r.1 ++ r.2 := by
  unfold parseRun at e
  split at e <;> cases e
  rename_i hrun
  exact ⟨⟨List.length_take_of_le hrun.1, hrun.2⟩, (List.take_append_drop m h).symm⟩

/-- `run` takes the four digits of a number (R12, R90). -/
theorem parseRun_dec4 {n : Nat} (hn : n ≤ 9999) (c : BitVec 16) (r : ByteStr) :
    parseRun 4 isDigit c (dec4 n ++ r) = .ok (dec4 n, r) := by
  obtain ⟨hlen, hall⟩ := eq_dec4_iff.mpr ⟨n, hn, rfl⟩
  exact parseRun_append c r hlen hall

section
variable {α : Type} {lit h x r : ByteStr} {m : Nat} {cls : Byte → Bool} {c : BitVec 16}
  {k : ByteStr × ByteStr → Except (BitVec 16) α}

/-- A field, its literal and then its run, is taken from the cursor (R90). -/
theorem parseField_append (hx : x.length = m ∧ x.all cls = true) :
    (parseLit lit c (lit ++ (x ++ r)) >>= fun h => parseRun m cls c h >>= k) = k (x, r) := by
  rw [parseLit_append, except_ok_bind, parseRun_append c r hx.1 hx.2, except_ok_bind]

/-- Where no such field stands its sub-code is reported (R90). -/
theorem parseField_error (hno : ∀ x : ByteStr, x.length = m → x.all cls = true → ¬ lit ++ x <+: h) :
    (parseLit lit c h >>= fun h => parseRun m cls c h >>= k) = .error c := by
  by_cases hlit : lit <+: h
  · obtain ⟨r, rfl⟩ := hlit
    rw [parseLit_append, except_ok_bind, parseRun_error c, except_error_bind]
    exact fun x hlen hall hpre => hno x hlen hall ((List.prefix_append_right_inj lit).mpr hpre)
  · rw [parseLit_error c hlit, except_error_bind]

theorem parseField_eq_ok {a : α} (e : (parseLit lit c h >>= fun h => parseRun m cls c h >>= k) = .ok a) :
    ∃ x r, (x.length = m ∧ x.all cls = true) ∧ h = lit ++ (x ++ r) ∧ k (x, r) = .ok a := by
  obtain ⟨h', hlit, e⟩ := except_bind_eq_ok e
  obtain ⟨⟨x, r⟩, hrun, e⟩ := except_bind_eq_ok e
  obtain ⟨hx, hxr⟩ := parseRun_eq_ok hrun
  exact ⟨x, r, hx, hxr ▸ parseLit_eq_ok hlit, e⟩

end

/-! ## The texts of a header, field by field -/

/-- A header up to its S field (R88). -/
def textToS (n : Nat) : ByteStr := ascii ['H', 'E', 'A', 'D', 'E', 'R', ' ', 'S', ':'] ++ dec4 n

/-- A header up to its T field (R88). -/
def textToT (n m : Nat) : ByteStr := textToS n ++ ascii [' ', 'T', ':'] ++ dec4 m

/-- A header up to its F field (R88). -/
def textToF (n m : Nat) (fl : Byte) : ByteStr := textToT n m ++ ascii [' ', 'F', ':'] ++ hex2 fl

/-- The C or EC field of a format that has one (R88). -/
def bitsText (f : Format) (e : BitStr) : ByteStr :=
  (if f.hasC then ascii [' ', 'C', ':'] ++ bitchars e else []) ++
    (if f.hasEC then ascii [' ', 'E', 'C', ':'] ++ bitchars e else [])

/-- A header up to its C or EC field (R88). -/
def textToE (f : Format) (n m : Nat) (fl : Byte) (e : BitStr) : ByteStr :=
  textToF n m fl ++ (if f.hasC then ascii [' ', 'C', ':'] ++ bitchars e else []) ++
    (if f.hasEC then ascii [' ', 'E', 'C', ':'] ++ bitchars e else [])

theorem textToE_eq (f : Format) (n m : Nat) (fl : Byte) (e : BitStr) :
    textToE f n m fl e = textToF n m fl ++ bitsText f e := List.append_assoc ..

/-- The N field of a format that has one (R88). -/
def nText (f : Format) (b : Bool) : ByteStr := if f.hasN then ascii [' ', 'N', ':'] ++ dec1 b else []

theorem header_eq (f : Format) (n m : Nat) (fl : Byte) (e : BitStr) (b : Bool) :
    header f n m fl e b = textToF n m fl ++ (bitsText f e ++ nText f b) := by
  simp only [header, textToF, textToT, textToS, bitsText, nText, List.append_assoc]

/-- The bit strings a format's C or EC field can hold, none where it has neither (R89). -/
def BitsLegal (f : Format) (e : BitStr) : Prop :=
  (f.hasC = true → e.length = 8) ∧ (f.hasEC = true → e ≠ []) ∧ (f.hasC = false → f.hasEC = false → e = [])

/-- No format has both a C and an EC field (R85). -/
theorem Format.hasEC_eq_false {f : Format} (hC : f.hasC = true) : f.hasEC = false := by
  revert hC; cases f <;> decide

theorem Format.hasC_eq_false {f : Format} (hEC : f.hasEC = true) : f.hasC = false := by
  revert hEC; cases f <;> decide

theorem Hdr.legal_iff {f : Format} {h : Hdr} :
    h.legal f = true ↔ h.s ≤ 9999 ∧ h.t ≤ 9999 ∧ BitsLegal f h.e ∧ (f.hasN = false → h.n = false) := by
  have hbits : (if f.hasC then decide (h.e.length = 8) else if f.hasEC then decide (1 ≤ h.e.length)
      else decide (h.e = [])) = true ↔ BitsLegal f h.e := by
    cases f <;> simp [BitsLegal, Format.hasC, Format.hasEC, Nat.one_le_iff_ne_zero]
  rw [Hdr.legal, Bool.and_eq_true, Bool.and_eq_true, Bool.and_eq_true, hbits]
  cases f.hasN <;> simp [and_assoc]

/-! ## The fields after F -/

/-- The C or EC field of R90. -/
def parseBits (f : Format) (h : ByteStr) : Except (BitVec 16) (BitStr × ByteStr) := do
  let c ← parseC f h
  parseEC f c.1 c.2

/-- What R90 does after the F field. -/
def parseAfterF (f : Format) (n m : Nat) (fl : Byte) (pay h : ByteStr) : Except (BitVec 16) Hdr := do
  let e ← parseBits f h
  let b ← parseN f e.2
  if b.2.length = 0 then .ok ⟨n, m, fl, e.1, b.1, pay⟩ else .error 9

theorem parseHeader_textToF {n m : Nat} (f : Format) (hn : n ≤ 9999) (hm : m ≤ 9999) (fl : Byte) (pay r : ByteStr) :
    parseHeader f (textToF n m fl ++ r) pay = parseAfterF f n m fl pay r := by
  have hfl : BitVec.ofNat 8 (hexVal (hex2 fl)) = fl := by rw [hexVal_hex2, BitVec.ofNat_toNat, BitVec.setWidth_eq]
  unfold parseHeader parseAfterF parseBits
  simp only [textToF, textToT, textToS, List.append_assoc]
  rw [parseLit_append, except_ok_bind, parseRun_dec4 hn, except_ok_bind,
    parseField_append (eq_dec4_iff.mpr ⟨m, hm, rfl⟩), parseField_append (eq_hex2_iff.mpr ⟨fl, rfl⟩)]
  simp only [bind_assoc, decimalVal_dec4 hn, decimalVal_dec4 hm, hfl]

/-- A header that parses begins with the S, T and F fields of legal numbers. -/
theorem textToF_of_parseHeader_ok {f : Format} {h pay : ByteStr} {rec : Hdr} (e : parseHeader f h pay = .ok rec) :
    ∃ n ≤ 9999, ∃ m ≤ 9999, ∃ fl r, h = textToF n m fl ++ r := by
  unfold parseHeader at e
  obtain ⟨h1, hlit, e⟩ := except_bind_eq_ok e
  obtain ⟨s, hrun, e⟩ := except_bind_eq_ok e
  obtain ⟨xt, h2, ht, hT, e⟩ := parseField_eq_ok e
  obtain ⟨xf, r, hfl, hF, -⟩ := parseField_eq_ok e
  obtain ⟨hs, hS⟩ := parseRun_eq_ok hrun
  obtain ⟨n, hn, hdec⟩ := eq_dec4_iff.mp hs
  obtain ⟨m, hm, rfl⟩ := eq_dec4_iff.mp ht
  obtain ⟨fl, rfl⟩ := eq_hex2_iff.mp hfl
  refine ⟨n, hn, m, hm, fl, r, ?_⟩
  rw [parseLit_eq_ok hlit, hS, hT, show h2 = _ from hF, hdec]
  simp only [textToF, textToT, textToS, List.append_assoc]

/-- What may follow an EC field: no bit character, the field being as long as it can (R90). -/
def BitsStop (f : Format) (r : ByteStr) : Prop := f.hasEC = true → ∀ b, ¬ dec1 b <+: r

theorem takeWhile_isBitChar_eq_nil {r : ByteStr} (h : ∀ b, ¬ dec1 b <+: r) : r.takeWhile isBitChar = [] := by
  cases r with
  | nil => rfl
  | cons x r =>
    refine List.takeWhile_cons_of_neg fun hx => ?_
    have hall : [x].all isBitChar = true := by simpa using hx
    obtain ⟨b, hb⟩ := eq_dec1_iff.mp ⟨rfl, hall⟩
    exact h b ⟨r, by rw [← hb]; rfl⟩

theorem takeWhile_isBitChar_append {e : BitStr} {r : ByteStr} (h : ∀ b, ¬ dec1 b <+: r) :
    (bitchars e ++ r).takeWhile isBitChar = bitchars e := by
  rw [List.takeWhile_append_of_pos (List.all_eq_true.mp (eq_bitchars_iff.mpr ⟨e, rfl⟩)), takeWhile_isBitChar_eq_nil h,
    List.append_nil]

section
variable {f : Format} {e : BitStr} {r h : ByteStr}

theorem parseBits_of_hasC (hC : f.hasC = true) (h : ByteStr) :
    parseBits f h = parseLit (ascii [' ', 'C', ':']) 6 h >>= fun h => parseRun 8 isBitChar 6 h >>= fun r =>
      .ok (charBits r.1, r.2) := by
  simp [parseBits, parseC, parseEC, hC, Format.hasEC_eq_false hC, except_ok_bind]

theorem parseBits_of_hasEC (hC : f.hasC = false) (hEC : f.hasEC = true) (h : ByteStr) :
    parseBits f h = parseLit (ascii [' ', 'E', 'C', ':']) 7 h >>= fun h =>
      if (h.takeWhile isBitChar).length = 0 then .error 7
      else .ok (charBits (h.takeWhile isBitChar), h.drop (h.takeWhile isBitChar).length) := by
  simp [parseBits, parseC, parseEC, hC, hEC, except_ok_bind]

theorem parseBits_of_none (hC : f.hasC = false) (hEC : f.hasEC = false) (h : ByteStr) : parseBits f h = .ok ([], h) := by
  simp [parseBits, parseC, parseEC, hC, hEC, except_ok_bind]

theorem bitsText_of_hasC (hC : f.hasC = true) (e : BitStr) : bitsText f e = ascii [' ', 'C', ':'] ++ bitchars e := by
  simp [bitsText, hC, Format.hasEC_eq_false hC]

theorem bitsText_of_hasEC (hC : f.hasC = false) (hEC : f.hasEC = true) (e : BitStr) :
    bitsText f e = ascii [' ', 'E', 'C', ':'] ++ bitchars e := by
  simp [bitsText, hC, hEC]

theorem bitsText_of_none (hC : f.hasC = false) (hEC : f.hasEC = false) (e : BitStr) : bitsText f e = [] := by
  simp [bitsText, hC, hEC]

/-- A legal C or EC field is taken, where nothing can lengthen an EC field (R90). -/
theorem parseBits_append (he : BitsLegal f e) (hr : BitsStop f r) : parseBits f (bitsText f e ++ r) = .ok (e, r) := by
  obtain ⟨heC, heEC, henone⟩ := he
  cases hC : f.hasC with
  | true =>
    have hrun : (bitchars e).length = 8 ∧ (bitchars e).all isBitChar = true :=
      ⟨by simpa using heC hC, eq_bitchars_iff.mpr ⟨e, rfl⟩⟩
    rw [parseBits_of_hasC hC, bitsText_of_hasC hC, List.append_assoc, parseField_append hrun, charBits_bitchars]
  | false =>
    cases hEC : f.hasEC with
    | true =>
      have hne : ¬ (bitchars e).length = 0 := by simpa using heEC hEC
      rw [parseBits_of_hasEC hC hEC, bitsText_of_hasEC hC hEC, List.append_assoc, parseLit_append, except_ok_bind,
        takeWhile_isBitChar_append (hr hEC), if_neg hne, charBits_bitchars, List.drop_left]
    | false => rw [parseBits_of_none hC hEC, bitsText_of_none hC hEC, henone hC hEC, List.nil_append]

/-- What is taken as the C or EC field is a legal one (R90). -/
theorem parseBits_eq_ok (hok : parseBits f h = .ok (e, r)) : BitsLegal f e ∧ h = bitsText f e ++ r := by
  cases hC : f.hasC with
  | true =>
    rw [parseBits_of_hasC hC] at hok
    obtain ⟨x, r, ⟨hlen, hall⟩, rfl, hread⟩ := parseField_eq_ok hok
    obtain ⟨e, rfl⟩ := eq_bitchars_iff.mp hall
    cases hread
    refine ⟨⟨fun _ => by simpa using hlen, by simp [Format.hasEC_eq_false hC], by simp [hC]⟩, ?_⟩
    rw [bitsText_of_hasC hC, charBits_bitchars, List.append_assoc]
  | false =>
    cases hEC : f.hasEC with
    | true =>
      rw [parseBits_of_hasEC hC hEC] at hok
      obtain ⟨h', hlit, hok⟩ := except_bind_eq_ok hok
      obtain ⟨e, he⟩ := eq_bitchars_iff.mp (List.all_takeWhile (p := isBitChar) (l := h'))
      obtain ⟨r, hr⟩ := List.takeWhile_prefix isBitChar (l := h')
      split at hok <;> cases hok
      rename_i hne
      rw [he] at hr hne ⊢
      rw [parseLit_eq_ok hlit, bitsText_of_hasEC hC hEC, charBits_bitchars, ← hr, List.drop_left, List.append_assoc]
      exact ⟨⟨by simp [hC], fun _ => by simpa using hne, by simp [hEC]⟩, rfl⟩
    | false =>
      rw [parseBits_of_none hC hEC] at hok
      cases hok
      exact ⟨⟨by simp [hC], by simp [hEC], fun _ _ => rfl⟩, by rw [bitsText_of_none hC hEC, List.nil_append]⟩

/-- R90: sub-code 6 where the format has a C field and none stands. -/
theorem parseBits_error_of_hasC (hC : f.hasC = true) (hno : ∀ e : BitStr, e.length = 8 → ¬ bitsText f e <+: h) :
    parseBits f h = .error 6 := by
  rw [parseBits_of_hasC hC]
  refine parseField_error fun x hlen hall => ?_
  obtain ⟨e, rfl⟩ := eq_bitchars_iff.mp hall
  exact bitsText_of_hasC hC e ▸ hno e (by simpa using hlen)

/-- R90: sub-code 7 where the format has an EC field and none stands. -/
theorem parseBits_error_of_hasEC (hEC : f.hasEC = true) (hno : ∀ e : BitStr, e ≠ [] → ¬ bitsText f e <+: h) :
    parseBits f h = .error 7 := by
  have hC : f.hasC = false := Format.hasC_eq_false hEC
  rw [parseBits_of_hasEC hC hEC]
  by_cases hlit : ascii [' ', 'E', 'C', ':'] <+: h
  · obtain ⟨r, rfl⟩ := hlit
    rw [parseLit_append, except_ok_bind, if_pos]
    obtain ⟨e, he⟩ := eq_bitchars_iff.mp (List.all_takeWhile (p := isBitChar) (l := r))
    have hpre : bitsText f e <+: ascii [' ', 'E', 'C', ':'] ++ r := by
      rw [bitsText_of_hasEC hC hEC, ← he]
      exact (List.prefix_append_right_inj _).mpr (List.takeWhile_prefix _)
    by_contra hlen
    exact hno e (by simpa [he] using hlen) hpre
  · rw [parseLit_error 7 hlit, except_error_bind]

theorem parseN_append (f : Format) (b : Bool) (r : ByteStr) : parseN f (nText f b ++ r) = .ok (f.hasN && b, r) := by
  unfold parseN nText
  cases hN : f.hasN with
  | true => rw [if_pos rfl, if_pos rfl, List.append_assoc, parseField_append (eq_dec1_iff.mpr ⟨b, rfl⟩), decimalVal_dec1,
      Bool.true_and]
  | false => rfl

theorem parseN_eq_ok {b : Bool} (hok : parseN f h = .ok (b, r)) : (f.hasN = false → b = false) ∧ h = nText f b ++ r := by
  unfold parseN at hok
  unfold nText
  cases hN : f.hasN with
  | true =>
    rw [hN, if_pos rfl] at hok
    obtain ⟨x, r, hx, rfl, hread⟩ := parseField_eq_ok hok
    obtain ⟨b, rfl⟩ := eq_dec1_iff.mp hx
    cases hread
    simp [decimalVal_dec1]
  | false =>
    rw [hN] at hok
    cases hok
    exact ⟨fun _ => rfl, rfl⟩

/-- R90: sub-code 8 where the format has an N field and none stands. -/
theorem parseN_error (hN : f.hasN = true) (hno : ∀ b, ¬ nText f b <+: h) : parseN f h = .error 8 := by
  rw [parseN, if_pos hN]
  refine parseField_error fun x hlen hall => ?_
  obtain ⟨b, rfl⟩ := eq_dec1_iff.mp ⟨hlen, hall⟩
  simpa [nText, hN] using hno b

/-- An N field does not lengthen an EC field (R88). -/
theorem bitsStop_nText (f : Format) (b : Bool) : BitsStop f (nText f b) := by
  intro _ b'
  unfold nText
  cases f.hasN <;> cases b <;> cases b' <;> decide

end

/-! ## Whole headers and packets -/

section
variable {f : Format} {n m : Nat} {fl : Byte} {pay h r : ByteStr} {e : BitStr} {b : Bool}

/-- R90: after the last field the header ends, or sub-code 9 is reported. -/
theorem parseAfterF_append (he : BitsLegal f e) (hr : BitsStop f (nText f b ++ r)) :
    parseAfterF f n m fl pay (bitsText f e ++ (nText f b ++ r)) =
      if r.length = 0 then .ok ⟨n, m, fl, e, f.hasN && b, pay⟩ else .error 9 := by
  rw [parseAfterF, parseBits_append he hr, except_ok_bind, parseN_append, except_ok_bind]

theorem parseAfterF_eq_ok {rec : Hdr} (hok : parseAfterF f n m fl pay h = .ok rec) :
    ∃ e b, BitsLegal f e ∧ (f.hasN = false → b = false) ∧ h = bitsText f e ++ nText f b ∧ rec = ⟨n, m, fl, e, b, pay⟩ := by
  obtain ⟨⟨e, h1⟩, hbits, hok⟩ := except_bind_eq_ok hok
  obtain ⟨⟨b, h2⟩, hn, hok⟩ := except_bind_eq_ok hok
  split_ifs at hok with hend
  cases hok
  obtain rfl : h2 = [] := List.length_eq_zero_iff.mp hend
  obtain ⟨he, rfl⟩ := parseBits_eq_ok hbits
  obtain ⟨hb, htext⟩ := parseN_eq_ok hn
  rw [List.append_nil] at htext
  exact ⟨e, b, he, hb, congrArg _ htext, rfl⟩

theorem parseHeader_error_of_begin (hno : ¬ ascii ['H', 'E', 'A', 'D', 'E', 'R', ' ', 'S', ':'] <+: h) :
    parseHeader f h pay = .error 2 := by
  rw [parseHeader, parseLit_error 2 hno, except_error_bind]

theorem parseHeader_error_of_s (hbegin : ascii ['H', 'E', 'A', 'D', 'E', 'R', ' ', 'S', ':'] <+: h)
    (hno : ∀ n ≤ 9999, ¬ textToS n <+: h) : parseHeader f h pay = .error 3 := by
  obtain ⟨r, rfl⟩ := hbegin
  rw [parseHeader, parseLit_append, except_ok_bind, parseRun_error, except_error_bind]
  intro x hlen hall hpre
  obtain ⟨n, hn, rfl⟩ := eq_dec4_iff.mp ⟨hlen, hall⟩
  exact hno n hn ((List.prefix_append_right_inj _).mpr hpre)

theorem parseHeader_error_of_t (hn : n ≤ 9999) (hS : textToS n <+: h) (hno : ∀ m ≤ 9999, ¬ textToT n m <+: h) :
    parseHeader f h pay = .error 4 := by
  obtain ⟨r, rfl⟩ := hS
  rw [parseHeader, textToS, List.append_assoc, parseLit_append, except_ok_bind, parseRun_dec4 hn,
    except_ok_bind, parseField_error]
  intro x hlen hall hpre
  obtain ⟨m, hm, rfl⟩ := eq_dec4_iff.mp ⟨hlen, hall⟩
  apply hno m hm
  rw [textToT, List.append_assoc]
  exact (List.prefix_append_right_inj _).mpr hpre

theorem parseHeader_error_of_f (hn : n ≤ 9999) (hm : m ≤ 9999) (hT : textToT n m <+: h)
    (hno : ∀ fl, ¬ textToF n m fl <+: h) : parseHeader f h pay = .error 5 := by
  obtain ⟨r, rfl⟩ := hT
  rw [parseHeader, textToT, textToS, List.append_assoc, List.append_assoc, List.append_assoc, parseLit_append,
    except_ok_bind, parseRun_dec4 hn, except_ok_bind,
    parseField_append (eq_dec4_iff.mpr ⟨m, hm, rfl⟩), parseField_error]
  intro x hlen hall hpre
  obtain ⟨fl, rfl⟩ := eq_hex2_iff.mp ⟨hlen, hall⟩
  apply hno fl
  rw [textToF, List.append_assoc]
  exact (List.prefix_append_right_inj _).mpr hpre

theorem parseHeader_error_of_c (hn : n ≤ 9999) (hm : m ≤ 9999) (hF : textToF n m fl <+: h) (hC : f.hasC = true)
    (hno : ∀ e : BitStr, e.length = 8 → ¬ textToE f n m fl e <+: h) : parseHeader f h pay = .error 6 := by
  obtain ⟨r, rfl⟩ := hF
  rw [parseHeader_textToF f hn hm, parseAfterF, parseBits_error_of_hasC hC, except_error_bind]
  intro e he hpre
  apply hno e he
  rw [textToE_eq]
  exact (List.prefix_append_right_inj _).mpr hpre

theorem parseHeader_error_of_ec (hn : n ≤ 9999) (hm : m ≤ 9999) (hF : textToF n m fl <+: h) (hEC : f.hasEC = true)
    (hno : ∀ e : BitStr, e ≠ [] → ¬ textToE f n m fl e <+: h) : parseHeader f h pay = .error 7 := by
  obtain ⟨r, rfl⟩ := hF
  rw [parseHeader_textToF f hn hm, parseAfterF, parseBits_error_of_hasEC hEC, except_error_bind]
  intro e he hpre
  apply hno e he
  rw [textToE_eq]
  exact (List.prefix_append_right_inj _).mpr hpre

/-- What follows an EC field that is as long as it can be does not begin with a bit character (R90). -/
theorem bitsStop_of_maximal (hmax : f.hasEC = true → ∀ x, ¬ textToE f n m fl (e ++ [x]) <+: textToE f n m fl e ++ r) :
    BitsStop f r := by
  intro hEC b hpre
  have hC : f.hasC = false := Format.hasC_eq_false hEC
  apply hmax hEC b
  rw [textToE_eq, textToE_eq, bitsText_of_hasEC hC hEC, bitsText_of_hasEC hC hEC, bitchars_append, ← List.append_assoc,
    ← List.append_assoc]
  exact (List.prefix_append_right_inj _).mpr hpre

theorem parseHeader_error_of_n (hn : n ≤ 9999) (hm : m ≤ 9999) (he : BitsLegal f e) (hE : textToE f n m fl e <+: h)
    (hmax : f.hasEC = true → ∀ x, ¬ textToE f n m fl (e ++ [x]) <+: h) (hN : f.hasN = true)
    (hno : ∀ b, ¬ header f n m fl e b <+: h) : parseHeader f h pay = .error 8 := by
  obtain ⟨r, rfl⟩ := hE
  have hstop := bitsStop_of_maximal hmax
  rw [textToE_eq, List.append_assoc, parseHeader_textToF f hn hm, parseAfterF, parseBits_append he hstop, except_ok_bind,
    parseN_error hN, except_error_bind]
  intro b hpre
  apply hno b
  rw [header_eq, textToE_eq, ← List.append_assoc]
  exact (List.prefix_append_right_inj _).mpr hpre

theorem parseHeader_error_of_rest (hn : n ≤ 9999) (hm : m ≤ 9999) (he : BitsLegal f e) (hhdr : header f n m fl e b <+: h)
    (hmax : f.hasEC = true → ∀ x, ¬ textToE f n m fl (e ++ [x]) <+: h) (hne : h ≠ header f n m fl e b) :
    parseHeader f h pay = .error 9 := by
  obtain ⟨r, rfl⟩ := hhdr
  have hr : ¬ r.length = 0 := fun hlen => hne (by rw [List.length_eq_zero_iff.mp hlen, List.append_nil])
  have htext : header f n m fl e b ++ r = textToE f n m fl e ++ (nText f b ++ r) := by
    simp only [header_eq, textToE_eq, List.append_assoc]
  rw [htext] at hmax ⊢
  have hstop := bitsStop_of_maximal hmax
  rw [textToE_eq, List.append_assoc, parseHeader_textToF f hn hm, parseAfterF_append he hstop, if_neg hr]

/-- Parsing a header gives its fields (R88, R90). -/
theorem parseHeader_header (hn : n ≤ 9999) (hm : m ≤ 9999) (he : BitsLegal f e) (hb : f.hasN = false → b = false) :
    parseHeader f (header f n m fl e b) pay = .ok ⟨n, m, fl, e, b, pay⟩ := by
  have hkept : (f.hasN && b) = b := by cases hN : f.hasN <;> simp [hb, hN]
  have hfields := parseAfterF_append (n := n) (m := m) (fl := fl) (pay := pay) (b := b) (r := []) he
    (by simpa using bitsStop_nText f b)
  rw [header_eq, parseHeader_textToF f hn hm]
  simpa [hkept] using hfields

/-- A header that parses is the header of its record, which is legal (R88, R90). -/
theorem parseHeader_eq_ok {rec : Hdr} (hok : parseHeader f h pay = .ok rec) :
    h = header f rec.s rec.t rec.fl rec.e rec.n ∧ rec.pay = pay ∧ rec.legal f = true := by
  obtain ⟨n, hn, m, hm, fl, r, rfl⟩ := textToF_of_parseHeader_ok hok
  rw [parseHeader_textToF f hn hm] at hok
  obtain ⟨e, b, he, hb, rfl, rfl⟩ := parseAfterF_eq_ok hok
  exact ⟨(header_eq ..).symm, rfl, Hdr.legal_iff.mpr ⟨hn, hm, he, hb⟩⟩

/-- A packet is parsed as the header before its first NL and the payload after it (R90). -/
theorem parse_append (f : Format) (pay : ByteStr) (hh : nl ∉ h) : parse f (h ++ nl :: pay) = parseHeader f h pay := by
  simp only [parse, splitNl_append hh]

theorem parse_error_of_no_nl (f : Format) {p : ByteStr} (hp : nl ∉ p) : parse f p = .error 1 := by
  simp only [parse, splitNl_eq_none.mpr hp]

theorem parse_render {rec : Hdr} (hlegal : rec.legal f = true) : parse f (render f rec) = .ok rec := by
  obtain ⟨hs, ht, he, hn⟩ := Hdr.legal_iff.mp hlegal
  have hnl : nl ∉ header f rec.s rec.t rec.fl rec.e rec.n := nl_notMem_header _ _ _ _ _ _
  rw [render, parse_append f rec.pay hnl, parseHeader_header hs ht he hn]

theorem render_of_parse {p : ByteStr} {rec : Hdr} (hok : parse f p = .ok rec) : render f rec = p ∧ rec.legal f = true := by
  unfold parse at hok
  split at hok
  · cases hok
  · rename_i h pay hsplit
    obtain ⟨-, rfl⟩ := splitNl_eq_some hsplit
    obtain ⟨rfl, rfl, hlegal⟩ := parseHeader_eq_ok hok
    exact ⟨rfl, hlegal⟩

end

/-! ## The commands -/

section
variable {s : State}

/-- HDRENC issued without BUSY where a field check fails (R201). -/
theorem exec_hdrenc_of_check {f : Format} {c : BitVec 16} (hidle : s.status.op = .none)
    (hcheck : hdrencCheck f s.ports = some c) : exec (.hdrenc f) s = raised ⟨.malformedHeader, c⟩ s := by
  change execHdrenc f s = _
  rw [execHdrenc, issue_of_not_busy _ ((State.busy_eq_false s).mpr hidle), hcheck]

/-- HDRENC issued without BUSY on legal fields (R201, R211). -/
theorem exec_hdrenc_of_legal {f : Format} (hidle : s.status.op = .none) (hcheck : hdrencCheck f s.ports = none) :
    exec (.hdrenc f) s =
      if (render f (hdrencRecord f s.ports)).length > Config.maxLen then raised ⟨.operandError, 4⟩ s
      else completed { s with res := { s.res with r := render f (hdrencRecord f s.ports) } } := by
  change execHdrenc f s = _
  rw [execHdrenc, issue_of_not_busy _ ((State.busy_eq_false s).mpr hidle), hcheck]

/-- HDRDEC issued without BUSY on a packet that does not parse (R203). -/
theorem exec_hdrdec_of_error {f : Format} {c : BitVec 16} (hidle : s.status.op = .none)
    (hparse : parse f s.ports.a = .error c) : exec (.hdrdec f) s = raised ⟨.malformedHeader, c⟩ s := by
  change execHdrdec f s = _
  rw [execHdrdec, issue_of_not_busy _ ((State.busy_eq_false s).mpr hidle), hparse]

/-- HDRDEC issued without BUSY on a packet that parses (R203). -/
theorem exec_hdrdec_of_ok {f : Format} {h : Hdr} (hidle : s.status.op = .none) (hparse : parse f s.ports.a = .ok h) :
    exec (.hdrdec f) s = completed
      { s with
        res := { s.res with
          rs0 := scalar h.s, rs1 := scalar h.t, rs2 := h.fl.setWidth 32, rs3 := bitScalar h.n, rv := h.e,
          r := h.pay } } := by
  change execHdrdec f s = _
  rw [execHdrdec, issue_of_not_busy _ ((State.busy_eq_false s).mpr hidle), hparse]

/-- The length of a header (R88). -/
theorem header_length (f : Format) (n m : Nat) (fl : Byte) (e : BitStr) (b : Bool) :
    (header f n m fl e b).length =
      25 + (if f.hasC then 3 + e.length else 0) + (if f.hasEC then 4 + e.length else 0) + (if f.hasN then 4 else 0) := by
  simp only [header, List.length_append, apply_ite List.length, bitchars_length]
  simp [ascii, dec4, hex2, dec1, Nat.add_comm]

/-- The length of the packet HDRENC renders from fields that pass its checks (R88, R201). -/
theorem render_hdrencRecord_length {f : Format} {p : OperandPorts} (hc : ¬ (f.hasC = true ∧ p.v.length ≠ 8)) :
    (render f (hdrencRecord f p)).length =
      25 + (if f.hasC then 11 else 0) + (if f.hasEC then 4 + p.v.length else 0) + (if f.hasN then 4 else 0) + 1 +
        p.a.length := by
  rw [render, hdrencRecord, List.length_append, header_length]
  cases hC : f.hasC with
  | true =>
    have hv : p.v.length = 8 := by_contra fun hv => hc ⟨hC, hv⟩
    simp only [hv, Format.hasEC_eq_false hC, List.length_cons, Bool.true_or, if_true, Bool.false_eq_true, if_false]
    omega
  | false =>
    cases hEC : f.hasEC <;> simp only [List.length_cons, Bool.or_true, if_true, Bool.false_eq_true, if_false] <;> omega

end

end Sys2Proof.Machine

open Sys2Proof Sys2Proof.Machine

/-- Settles O36: the header holds no NL, and each field is read back from its text. -/
theorem parseOfRenderIsTheRecord : Obligations.ParseOfRenderIsTheRecord := fun _ _ => parse_render

/-- Settles O37: each part of the parser takes only the text of a legal field. -/
theorem renderOfParseIsThePacket : Obligations.RenderOfParseIsThePacket := fun _ _ _ => render_of_parse

/-- Settles O38: the field checks in their order, and then the packet's length. -/
theorem hdrencChecksThenRenders : Obligations.HdrencChecksThenRenders := by
  refine ⟨by decide, fun f s hidle => ?_⟩
  intro p malformed e headerLen
  have hmalformed {c : BitVec 16} (h : hdrencCheck f p = some c) : malformed c := exec_hdrenc_of_check hidle h
  by_cases hs : 9999 < p.arg0.toNat
  · rw [if_pos hs]
    exact hmalformed (by rw [hdrencCheck, if_pos hs])
  rw [if_neg hs]
  by_cases ht : 9999 < p.arg1.toNat
  · rw [if_pos ht]
    exact hmalformed (by rw [hdrencCheck, if_neg hs, if_pos ht])
  rw [if_neg ht]
  by_cases hfl : 255 < p.arg2.toNat
  · rw [if_pos hfl]
    exact hmalformed (by rw [hdrencCheck, if_neg hs, if_neg ht, if_pos hfl])
  rw [if_neg hfl]
  by_cases hc : f.hasC = true ∧ p.v.length ≠ 8
  · rw [if_pos hc]
    exact hmalformed (by rw [hdrencCheck, if_neg hs, if_neg ht, if_neg hfl, if_pos hc])
  rw [if_neg hc]
  by_cases hec : f.hasEC = true ∧ p.v.length = 0
  · rw [if_pos hec]
    exact hmalformed (by rw [hdrencCheck, if_neg hs, if_neg ht, if_neg hfl, if_neg hc, if_pos hec])
  rw [if_neg hec]
  by_cases hn : f.hasN = true ∧ 1 < p.arg3.toNat
  · rw [if_pos hn]
    exact hmalformed (by rw [hdrencCheck, if_neg hs, if_neg ht, if_neg hfl, if_neg hc, if_neg hec, if_pos hn])
  rw [if_neg hn]
  have hnone : hdrencCheck f p = none := by
    rw [hdrencCheck, if_neg hs, if_neg ht, if_neg hfl, if_neg hc, if_neg hec, if_neg hn]
  have hlength : (render f (hdrencRecord f p)).length = headerLen + 1 + p.a.length := render_hdrencRecord_length hc
  rw [exec_hdrenc_of_legal hidle hnone, hlength]
  split_ifs
  · rfl
  · rw [render, hdrencRecord, ← BitVec.ofNat_toNat]
    rfl

/-- Settles O39: a packet that parses is a rendering (R202), and the header's texts are read in their order, the first that
does not stand giving its sub-code. -/
theorem hdrdecReadsTheFields : Obligations.HdrdecReadsTheFields := by
  intro f s hidle malformed fails
  have hfails {c : BitVec 16} (hparse : parse f s.ports.a = .error c) : fails c :=
    ⟨hparse, exec_hdrdec_of_error hidle hparse⟩
  refine ⟨fun h hlegal ha => ?_, fun hno => ?_, fun hnl => hfails (parse_error_of_no_nl f hnl), fun hdr pay hhdr ha => ?_⟩
  · have hparse : parse f s.ports.a = .ok h := ha ▸ parse_render hlegal
    rw [exec_hdrdec_of_ok hidle hparse, BitVec.ofNat_toNat]
    rfl
  · cases hparse : parse f s.ports.a with
    | ok h =>
      obtain ⟨hrender, hlegal⟩ := render_of_parse hparse
      exact absurd hrender.symm (hno h hlegal)
    | error c =>
      have hrange : ∀ c ∈ ([1, 2, 3, 4, 5, 6, 7, 8, 9] : List (BitVec 16)), 1 ≤ c.toNat ∧ c.toNat ≤ 9 := by simp
      obtain ⟨hlow, hhigh⟩ := hrange c (parse_error_range hparse)
      exact ⟨c, hlow, hhigh, (hfails hparse).2⟩
  · rw [ha, parse_append f pay hhdr] at hfails
    refine ⟨fun h => hfails (parseHeader_error_of_begin h), fun h hno => hfails (parseHeader_error_of_s h hno), ?_⟩
    refine fun n hn hS => ⟨fun hno => hfails (parseHeader_error_of_t hn hS hno), fun m hm hT => ?_⟩
    refine ⟨fun hno => hfails (parseHeader_error_of_f hn hm hT hno), fun fl hF => ?_⟩
    refine ⟨fun hC hno => hfails (parseHeader_error_of_c hn hm hF hC hno),
      fun hEC hno => hfails (parseHeader_error_of_ec hn hm hF hEC hno), fun e heC heEC henone hE hmax => ?_⟩
    have he : BitsLegal f e := ⟨heC, heEC, henone⟩
    exact ⟨fun hN hno => hfails (parseHeader_error_of_n hn hm he hE hmax hN hno),
      fun b hhdr hne => hfails (parseHeader_error_of_rest hn hm he hhdr hmax hne)⟩

end

section
/-! PROOFS. Fragmentation and reassembly: what FRAG, RBCLR and RBADD leave, and that the buffer holds exactly the fragments that
have come, so that it is complete when all have and then joins to the message (R204 to R210). -/

namespace Sys2Proof.Machine

/-! ## Fragments -/

/-- The first `k` chunks of a message join to its first `k · len` bytes (R204). -/
theorem flatMap_chunks (m : ByteStr) (len k : Nat) :
    ((List.range k).flatMap fun i => (m.drop (i * len)).take len) = m.take (k * len) := by
  induction k with
  | zero => simp
  | succ k ih => rw [List.range_succ, List.flatMap_append, ih, List.flatMap_singleton, Nat.succ_mul, List.take_add]

/-- The fragments of a message join to it (R204). -/
theorem fragment_flatten {len : Nat} (m : ByteStr) (hlen : 1 ≤ len) : (fragment m len).flatten = m := by
  have hcover : m.length ≤ (m.length + len - 1) / len * len := by
    have := Nat.lt_div_mul_add (a := m.length + len - 1) hlen
    omega
  exact (flatMap_chunks m len _).trans (List.take_of_length_le hcover)

/-- Fragment `i` has PACKET_DATA_LEN bytes, or what is left (R204). -/
theorem length_of_fragment_getElem? {m pay : ByteStr} {len i : Nat} (h : (fragment m len)[i]? = some pay) :
    pay.length = min len (m.length - i * len) := by
  obtain ⟨hi, rfl⟩ := List.getElem?_eq_some_iff.mp h
  simp [fragment]

/-! ## Adding to the buffer -/

section
variable {len s t : Nat} {rc : ReceiverRegs} {pay : ByteStr}

/-- R206: BufAdd's checks passed. -/
structure BufAddChecks (len : Nat) (rc : ReceiverRegs) (s t : Nat) (pay : ByteStr) : Prop where
  seq : ¬ (s < 1 ∨ t < s ∨ 9999 < t)
  total : ¬ (rc.total ≠ none ∧ rc.total ≠ some t)
  length : ¬ len < pay.length

/-- The first copy of a seq is kept (R206). -/
theorem bufAdd_dup (h : BufAddChecks len rc s t pay) (hdup : bufLookup s rc.buf ≠ none) :
    bufAdd len rc s t pay = .ok (rc, .dup) := by
  obtain ⟨q, hq⟩ := Option.ne_none_iff_exists'.mp hdup
  rw [bufAdd, if_neg h.seq, if_neg h.total, if_neg h.length, hq]

/-- A new seq is buffered (R206). -/
theorem bufAdd_new (h : BufAddChecks len rc s t pay) (hnew : bufLookup s rc.buf = none) :
    bufAdd len rc s t pay = .ok ({ rc with buf := bufInsert s pay rc.buf, total := some t }, .new) := by
  rw [bufAdd, if_neg h.seq, if_neg h.total, if_neg h.length, hnew]

theorem bufComplete_of_total (ht : rc.total = some t) : bufComplete rc = decide (rc.buf.length = t) := by
  rw [bufComplete, ht]

theorem reassemble_of_total (ht : rc.total = some t) :
    reassemble rc = ((List.range t).map fun i => (bufLookup (i + 1) rc.buf).getD []).flatten := by
  rw [reassemble, ht]
  rfl

/-- RBADD's results once the buffer has a total (R209). -/
theorem rbaddResults_of_total (ht : rc.total = some t) (r : BufResult) (res : ResultPorts) :
    rbaddResults rc r res =
      { res with
        rs0 := scalar rc.buf.length, rs1 := bitScalar (decide (r = .dup)), rflag := decide (rc.buf.length = t)
        r := if rc.buf.length = t then ((List.range t).map fun i => (bufLookup (i + 1) rc.buf).getD []).flatten
          else [] } := by
  rw [rbaddResults, bufComplete_of_total ht, reassemble_of_total ht]
  simp only [decide_eq_true_eq]

end

/-! ## The commands -/

section
variable {s : State}

/-- FRAG issued without BUSY (R205). -/
theorem exec_frag (hidle : s.status.op = .none) :
    exec .frag s =
      if (fragment s.ports.a s.packetDataLen).length > 9999 then raised ⟨.malformedHeader, 12⟩ s
      else completed { s with res := { s.res with
        rl := fragment s.ports.a s.packetDataLen, rs0 := scalar (fragment s.ports.a s.packetDataLen).length } } := by
  change execFrag s = _
  rw [execFrag, issue_of_not_busy _ ((State.busy_eq_false s).mpr hidle)]

/-- RBCLR issued without BUSY (R208). -/
theorem exec_rbclr (hidle : s.status.op = .none) :
    exec .rbclr s = completed { s with rcv := { s.rcv with buf := [], total := none } } := by
  change execRbclr s = _
  rw [execRbclr, issue_of_not_busy _ ((State.busy_eq_false s).mpr hidle)]

/-- What RBADD hands to BufAdd (R209). -/
def State.rbadd (s : State) : Except Raise (ReceiverRegs × BufResult) :=
  bufAdd s.packetDataLen s.rcv s.ports.arg0.toNat s.ports.arg1.toNat s.ports.a

/-- RBADD issued without BUSY where BufAdd raises (R209). -/
theorem exec_rbadd_of_error {e : Raise} (hidle : s.status.op = .none) (hadd : s.rbadd = .error e) :
    exec .rbadd s = raised e s := by
  change execRbadd s = _
  rw [execRbadd, issue_of_not_busy _ ((State.busy_eq_false s).mpr hidle), ← State.rbadd, hadd]

/-- RBADD issued without BUSY where BufAdd passes (R209). -/
theorem exec_rbadd_of_ok {rc : ReceiverRegs} {r : BufResult} (hidle : s.status.op = .none) (hadd : s.rbadd = .ok (rc, r)) :
    exec .rbadd s = completed { s with rcv := rc, res := rbaddResults rc r s.res } := by
  change execRbadd s = _
  rw [execRbadd, issue_of_not_busy _ ((State.busy_eq_false s).mpr hidle), ← State.rbadd, hadd]

end

/-! ## Reassembly in any order -/

/-- The buffer after the fragments `fs` with the indices `seen` have come, in some order and with any repetitions: each
under its seq, and nothing else (R204, R206). -/
structure Buffered (fs : List ByteStr) (seen : List Nat) (rc : ReceiverRegs) : Prop where
  wf : bufWf rc.buf
  total : rc.total = if seen = [] then none else some fs.length
  bound : ∀ i ∈ seen, i < fs.length
  zero : bufLookup 0 rc.buf = none
  entry : ∀ i, bufLookup (i + 1) rc.buf = if i ∈ seen then some (fs.getD i []) else none

theorem Buffered.empty (fs : List ByteStr) (bit : Bool) : Buffered fs [] ⟨[], none, bit⟩ :=
  ⟨.nil, rfl, nofun, rfl, fun _ => rfl⟩

section
variable {fs : List ByteStr} {seen : List Nat} {rc : ReceiverRegs} {len i : Nat}

/-- One more fragment keeps the account. -/
theorem Buffered.add (h : Buffered fs seen rc) (hi : i < fs.length) (hcount : fs.length ≤ 9999)
    (hfs : ∀ pay ∈ fs, pay.length ≤ len) :
    ∃ rc', (bufAdd len rc (i + 1) fs.length (fs.getD i [])).map Prod.fst = .ok rc' ∧ Buffered fs (seen ++ [i]) rc' := by
  have hpay : (fs.getD i []).length ≤ len := by
    rw [List.getD_eq_getElem _ _ hi]
    exact hfs _ (List.getElem_mem hi)
  have hchecks : BufAddChecks len rc (i + 1) fs.length (fs.getD i []) :=
    ⟨by omega, by rw [h.total]; split_ifs <;> simp, by omega⟩
  have hbound : ∀ j ∈ seen ++ [i], j < fs.length := by
    simpa [or_imp, forall_and] using ⟨h.bound, hi⟩
  by_cases hseen : i ∈ seen
  · have hdup : bufLookup (i + 1) rc.buf ≠ none := by simp [h.entry, hseen]
    refine ⟨rc, by rw [bufAdd_dup hchecks hdup]; rfl, h.wf, ?_, hbound, h.zero, fun j => ?_⟩
    · rw [h.total, if_neg (List.ne_nil_of_mem hseen), if_neg (by simp)]
    · have hmem : j ∈ seen ++ [i] ↔ j ∈ seen := by
        rw [List.mem_append, List.mem_singleton, or_iff_left_of_imp]
        rintro rfl
        exact hseen
      simp only [h.entry, hmem]
  · have hnew : bufLookup (i + 1) rc.buf = none := by simp [h.entry, hseen]
    refine ⟨_, by rw [bufAdd_new hchecks hnew]; rfl, bufInsert_wf h.wf, by simp, hbound, ?_, fun j => ?_⟩
    · simp [bufLookup_bufInsert, h.zero]
    · rw [bufLookup_bufInsert, h.entry]
      by_cases hj : j = i
      · simp [hj]
      · simp [hj]

/-- R206: fragments added one after the other, in any order. -/
theorem Buffered.foldlM (hcount : fs.length ≤ 9999) (hfs : ∀ pay ∈ fs, pay.length ≤ len) (order : List Nat)
    (horder : ∀ i ∈ order, i < fs.length) (h : Buffered fs seen rc) :
    ∃ rc', order.foldlM (fun rc i => (bufAdd len rc (i + 1) fs.length (fs.getD i [])).map Prod.fst) rc = .ok rc' ∧
      Buffered fs (seen ++ order) rc' := by
  induction order generalizing seen rc with
  | nil => exact ⟨rc, rfl, by simpa using h⟩
  | cons i order ih =>
    obtain ⟨hi, horder⟩ := List.forall_mem_cons.mp horder
    obtain ⟨rc1, hadd, h1⟩ := h.add hi hcount hfs
    obtain ⟨rc', hfold, h'⟩ := ih horder h1
    refine ⟨rc', ?_, by simpa using h'⟩
    rw [List.foldlM_cons, hadd]
    exact hfold

/-- The seqs in the buffer are those of the fragments that have come. -/
theorem Buffered.mem_keys (h : Buffered fs seen rc) (k : Nat) : k ∈ rc.buf.map Prod.fst ↔ ∃ i ∈ seen, i + 1 = k := by
  have hmem : k ∈ rc.buf.map Prod.fst ↔ bufLookup k rc.buf ≠ none := by
    rw [Ne, bufLookup_eq_none]
    simp
  rw [hmem]
  cases k with
  | zero => simp [h.zero]
  | succ i => simp [h.entry]

/-- Seqs stand once each, so as many entries as there are distinct fragments that have come. -/
theorem Buffered.length_eq (h : Buffered fs seen rc) : rc.buf.length = seen.toFinset.card := by
  have hnodup : (rc.buf.map Prod.fst).Nodup := List.pairwise_map.mpr (h.wf.imp Nat.ne_of_lt)
  have hkeys : (rc.buf.map Prod.fst).toFinset = seen.toFinset.map ⟨Nat.succ, Nat.succ_injective⟩ := by
    ext k
    simpa using h.mem_keys k
  calc rc.buf.length = (rc.buf.map Prod.fst).toFinset.card := by rw [List.toFinset_card_of_nodup hnodup, List.length_map]
    _ = seen.toFinset.card := by rw [hkeys, Finset.card_map]

/-- Every fragment has come exactly when as many distinct ones have as there are. -/
theorem Buffered.card_eq_iff (h : Buffered fs seen rc) :
    seen.toFinset.card = fs.length ↔ ∀ i < fs.length, i ∈ seen := by
  have hsub : seen.toFinset ⊆ Finset.range fs.length := fun i hi =>
    Finset.mem_range.mpr (h.bound i (List.mem_toFinset.mp hi))
  constructor
  · intro hcard i hi
    have heq : seen.toFinset = Finset.range fs.length := Finset.eq_of_subset_of_card_le hsub (by simp [hcard])
    exact List.mem_toFinset.mp (heq ▸ Finset.mem_range.mpr hi)
  · intro hall
    have heq : seen.toFinset = Finset.range fs.length :=
      hsub.antisymm fun i hi => List.mem_toFinset.mpr (hall i (Finset.mem_range.mp hi))
    rw [heq, Finset.card_range]

/-- R207, R210: the message is complete exactly when every fragment has come. -/
theorem Buffered.complete_iff (h : Buffered fs seen rc) (hne : fs ≠ []) :
    bufComplete rc = true ↔ ∀ i < fs.length, i ∈ seen := by
  by_cases hseen : seen = []
  · have hopen : bufComplete rc = false := by rw [bufComplete, h.total, if_pos hseen]
    have hmissing : ¬ ∀ i < fs.length, i ∈ seen := fun hall =>
      List.ne_nil_of_mem (hall 0 (List.length_pos_iff.mpr hne)) hseen
    exact iff_of_false (Bool.eq_false_iff.mp hopen) hmissing
  · rw [bufComplete_of_total (h.total.trans (if_neg hseen)), decide_eq_true_eq, h.length_eq, h.card_eq_iff]

/-- R207, R210: once every fragment has come the buffer joins to the fragments in their order. -/
theorem Buffered.reassemble_eq (h : Buffered fs seen rc) (hne : fs ≠ []) (hall : ∀ i < fs.length, i ∈ seen) :
    reassemble rc = fs.flatten := by
  have hseen : seen ≠ [] := List.ne_nil_of_mem (hall 0 (List.length_pos_iff.mpr hne))
  have hjoin : ((List.range fs.length).map fun i => (bufLookup (i + 1) rc.buf).getD []) = fs := by
    refine List.ext_getElem (by simp) fun i _ hi => ?_
    simp [h.entry, hall i hi, hi]
  rw [reassemble_of_total (h.total.trans (if_neg hseen)), hjoin]

end

end Sys2Proof.Machine

open Sys2Proof Sys2Proof.Machine

/-- Settles O40: the fragments are more than 9999 exactly when A has more than 9999 · PACKET_DATA_LEN bytes. -/
theorem fragCutsAIntoChunks : Obligations.FragCutsAIntoChunks := by
  refine ⟨by decide, fun s hidle => ⟨fun hlong => ?_, fun hshort => ⟨fragment s.ports.a s.packetDataLen, ?_, ?_, ?_, ?_⟩⟩⟩
  · rw [exec_frag hidle, if_pos (lt_fragment_length s.one_le_packetDataLen hlong)]
    rfl
  · rw [exec_frag hidle, if_neg (Nat.not_lt.mpr (fragment_length_le hshort))]
    rfl
  · exact fragment_flatten _ s.one_le_packetDataLen
  · exact fragment_length _ _
  · exact fun _ _ => length_of_fragment_getElem?

/-- Settles O41: the state RBCLR completes with, in which only the buffer's two registers are written. -/
theorem rbclrEmptiesTheBuffer : Obligations.RbclrEmptiesTheBuffer := ⟨by decide, fun _ => exec_rbclr⟩

/-- Settles O42: BufAdd's checks in their order, and then a duplicate or an insertion. -/
theorem rbaddBuffersAFragment : Obligations.RbaddBuffersAFragment := by
  intro s hidle hwf seq total malformed joined
  by_cases hseq : seq < 1 ∨ total < seq ∨ 9999 < total
  · rw [if_pos hseq]
    exact exec_rbadd_of_error hidle (if_pos hseq)
  rw [if_neg hseq]
  by_cases htotal : s.rcv.total ≠ none ∧ s.rcv.total ≠ some total
  · rw [if_pos htotal]
    exact exec_rbadd_of_error hidle ((if_neg hseq).trans (if_pos htotal))
  rw [if_neg htotal]
  by_cases hlen : s.packetDataLen < s.ports.a.length
  · rw [if_pos hlen]
    exact exec_rbadd_of_error hidle ((if_neg hseq).trans ((if_neg htotal).trans (if_pos hlen)))
  rw [if_neg hlen]
  have hchecks : BufAddChecks s.packetDataLen s.rcv seq total s.ports.a := ⟨hseq, htotal, hlen⟩
  refine ⟨fun hdup ht => ?_, fun hnew => ⟨bufInsert seq s.ports.a s.rcv.buf, bufInsert_wf hwf, ?_, ?_, ?_⟩⟩
  · rw [exec_rbadd_of_ok hidle (bufAdd_dup hchecks hdup), rbaddResults_of_total ht]
    rfl
  · exact fun k => bufLookup_bufInsert seq k s.ports.a s.rcv.buf
  · exact bufInsert_length hnew
  · rw [exec_rbadd_of_ok hidle (bufAdd_new hchecks hnew), rbaddResults_of_total rfl]
    rfl

/-- Settles O43: from empty, each fragment keeps the account of which have come, and the account decides completeness and the
message. -/
theorem reassemblyGivesTheMessageInAnyOrder : Obligations.ReassemblyGivesTheMessageInAnyOrder := by
  intro m len order bit hm hlen hle fs horder
  have hcount : fs.length ≤ 9999 := fragment_length_le hle
  have hfs : ∀ pay ∈ fs, pay.length ≤ len := fun pay hpay => (fragment_mem_length hlen hpay).2
  have hne : fs ≠ [] := fun h => fragment_length_ne_zero hlen (List.ne_nil_of_length_pos hm) (congrArg List.length h)
  obtain ⟨rc, hfold, h⟩ := (Buffered.empty fs bit).foldlM hcount hfs order horder
  have hcomplete : bufComplete rc = true ↔ ∀ i < fs.length, i ∈ order := h.complete_iff hne
  exact ⟨rc, hfold, hcomplete, fun hc => (h.reassemble_eq hne (hcomplete.mp hc)).trans (fragment_flatten m hlen)⟩

end

section
/-! PROOFS. The session commands: what OPEN, SEND, RECV and FINISH leave without BUSY, inside a session and outside one (R240
to R243, R402). -/

namespace Sys2Proof.Machine

section
variable {s : State}

/-! ## The commands and their preconditions -/

/-- OPEN issued without BUSY (R240). -/
theorem exec_openSession (v : Version) (hidle : s.status.op = .none) :
    exec (.openSession v) s =
      if s.status.sess = .opened then raised ⟨.sessionOpen, 0⟩ s
      else if s.ports.arg1.toNat > 10000 then raised ⟨.configError, 1⟩ s
      else completed (openState v s) := by
  change execOpen v s = _
  rw [execOpen, issue_of_not_busy _ ((State.busy_eq_false s).mpr hidle)]

/-- SEND issued without BUSY (R241). -/
theorem exec_send (hidle : s.status.op = .none) : exec .send s = inSession s fun s => (sendMessage s).settle :=
  issue_of_not_busy (fun s => inSession s fun s => (sendMessage s).settle) ((State.busy_eq_false s).mpr hidle)

/-- RECV issued without BUSY (R242). -/
theorem exec_recv (hidle : s.status.op = .none) :
    exec .recv s = inSession s fun s => .next
      { s with
        rcv := { s.rcv with buf := [], total := none }
        status := { s.status with op := .recv, rcvState := .waitForPacket } } := by
  change execRecv s = _
  rw [execRecv, issue_of_not_busy _ ((State.busy_eq_false s).mpr hidle)]

/-- FINISH issued without BUSY (R243). -/
theorem exec_finish (hidle : s.status.op = .none) :
    exec .finish s = inSession s fun s => completed ((s.emit (buildFin s)).endSession .finSent) := by
  change execFinish s = _
  rw [execFinish, issue_of_not_busy _ ((State.busy_eq_false s).mpr hidle)]

/-- SEND, RECV and FINISH issued without BUSY first look for a session (R241 to R243). -/
theorem exec_eq_inSession {i : Instr} (hi : i = .send ∨ i = .recv ∨ i = .finish) (hidle : s.status.op = .none) :
    ∃ body, exec i s = inSession s body := by
  obtain rfl | rfl | rfl := hi
  · exact ⟨_, exec_send hidle⟩
  · exact ⟨_, exec_recv hidle⟩
  · exact ⟨_, exec_finish hidle⟩

theorem inSession_of_none (body : State → Host.Outcome State Fault Refusal) (hsess : s.status.sess = .none) :
    inSession s body = raised ⟨.noSession, 0⟩ s := by
  rw [inSession, hsess]

theorem inSession_of_ended (body : State → Host.Outcome State Fault Refusal) (hsess : s.status.sess = .ended) :
    inSession s body = raised ⟨.channelClosed, 1⟩ s := by
  rw [inSession, hsess]

/-! ## The end of a session -/

/-- A fatal raise in an open session, register by register (R402). -/
theorem State.raiseFatal_of_opened (e : Raise) (hsess : s.status.sess = .opened) :
    s.raiseFatal e =
      { s with
        status := { s.status with
          err := e.code, faultSeen := true, op := .none, sndState := .idle, rcvState := .idle,
          sess := .ended, endCause := .fatalError }
        errInfo := e.info } := by
  rw [State.raiseFatal, if_pos hsess]
  rfl

/-- A fatal raise of a rule that has ended the session itself keeps that rule's cause (R402). -/
theorem State.raiseFatal_endSession (cause : EndCause) (e : Raise) :
    (s.endSession cause).raiseFatal e =
      { s with
        status := { s.status with
          err := e.code, faultSeen := true, op := .none, sndState := .idle, rcvState := .idle,
          sess := .ended, endCause := cause }
        errInfo := e.info } := by
  rw [State.raiseFatal, if_neg nofun]
  rfl

/-! ## In a session -/

/-- SEND in an open session (R241). -/
theorem exec_send_of_opened (hidle : s.status.op = .none) (hsess : s.status.sess = .opened) :
    exec .send s = (sendMessage s).settle :=
  (exec_send hidle).trans (inSession_of_opened _ hsess)

/-- An empty message has no fragment (R204). -/
theorem fragment_nil {len : Nat} (hlen : 1 ≤ len) : fragment [] len = [] := by
  rw [← List.length_eq_zero_iff, fragment_length]
  exact Nat.div_eq_of_lt (by simp; omega)

theorem sendMessage_of_empty (ha : s.ports.a = []) : sendMessage s = .done (loadMessage [] s).complete := by
  simp [sendMessage, ha, fragment_nil s.one_le_packetDataLen]

theorem sendMessage_of_overlong (hlong : 9999 * s.packetDataLen < s.ports.a.length) :
    sendMessage s = .raise ⟨.malformedHeader, 12⟩ s :=
  if_pos (lt_fragment_length s.one_le_packetDataLen hlong)

/-- Where a packet's payload has the bits to flip, or need not flip them, the noise stage does not raise (R183, R181). -/
theorem not_flipsTooMany {hd pay : ByteStr} {n prob len : Nat} (hh : nl ∉ hd)
    (hrange : prob = 0 ∨ len ≠ 0 ∨ n ≤ 8 * pay.length) : ¬ FlipsTooMany n prob len (hd ++ nl :: pay) := by
  rintro ⟨hprob, hlen, hd', pay', hh', heq, hlt⟩
  have hsplit : some (hd, pay) = some (hd', pay') := by rw [← splitNl_append hh, heq, splitNl_append hh']
  obtain ⟨-, rfl⟩ := Prod.mk.inj (Option.some.inj hsplit)
  omega

/-- A first transmission that the noise stage cannot refuse stores the clean packet, emits a noisy copy of it and waits
(R247, R241, R249). -/
theorem transmitFragment_of_range {i : Nat} {pay : ByteStr} (hpay : s.snd.frags[i]? = some pay)
    (hrange : s.cfg.prob = 0 ∨ s.cfg.burst ≠ 0 ∨ s.cfg.num.toNat ≤ 8 * pay.length) :
    ∃ q d, NoisyCopy s (dataPacket s i pay) q ∧ transmitFragment i s = .done
      { s with
        snd := { s.snd with lastPkt := some (dataPacket s i pay), retryCnt := 0 }
        env := { s.env with draws := d, tx := s.env.tx ++ [q] }
        status := { s.status with sndState := .waitForReply } } := by
  have hbuild : buildData s i = some (dataPacket s i pay) := by rw [buildData, hpay]; rfl
  obtain ⟨hnone, -⟩ | ⟨p, hp, hends⟩ := transmitFragment_cases i s
  · exact absurd (hbuild.symm.trans hnone) nofun
  obtain rfl : dataPacket s i pay = p := Option.some.inj (hbuild.symm.trans hp)
  obtain ⟨d, q, hq, hdone⟩ | ⟨hmany, -⟩ := hends
  · exact ⟨q, d, hq, hdone⟩
  · refine absurd hmany (not_flipsTooMany (nl_notMem_header _ _ _ _ _ _) ?_)
    exact hrange.imp (congrArg BitVec.toNat) (Or.imp_left (mt fun e => BitVec.eq_of_toNat_eq e))

/-- The FIN packet character for character, the checksum of the empty payload and the bit where the format has them
(R246). -/
theorem buildFin_eq (s : State) : buildFin s =
    ascii ['H', 'E', 'A', 'D', 'E', 'R', ' ', 'S', ':', '0', '0', '0', '0', ' ', 'T', ':', '0', '0', '0', '0', ' ', 'F', ':',
      '0', '2'] ++
    (if s.fmt.hasC then ascii [' ', 'C', ':', '1', '1', '1', '1', '1', '1', '1', '1'] else []) ++
    (if s.fmt.hasN then ascii [' ', 'N', ':', if s.snd.bit then '1' else '0'] else []) ++ [nl] := by
  rw [buildFin, State.fmt]
  cases s.cfg.ver <;> cases s.snd.bit <;> rfl

end

end Sys2Proof.Machine

open Sys2Proof Sys2Proof.Machine

/-- Settles O44: OPEN's two checks in their order, and then the fresh session it completes with. -/
theorem openStartsAFreshSession : Obligations.OpenStartsAFreshSession := by
  refine ⟨by decide, fun v s hidle => ⟨fun hsess => ?_, fun hsess hprob => ?_, fun hsess hprob => ?_⟩⟩
  · rw [exec_openSession v hidle, if_pos hsess]
    rfl
  · rw [exec_openSession v hidle, if_neg hsess, if_pos hprob]
    rfl
  · rw [exec_openSession v hidle, if_neg hsess, if_neg (Nat.not_lt.mpr hprob)]
    rfl

/-- Settles O45: the three commands look for an open session before anything else. -/
theorem sessionCommandsNeedAnOpenSession : Obligations.SessionCommandsNeedAnOpenSession := by
  intro i s hi hidle
  obtain ⟨body, hexec⟩ := exec_eq_inSession hi hidle
  exact ⟨fun hsess => hexec.trans (inSession_of_none body hsess), fun hsess => hexec.trans (inSession_of_ended body hsess)⟩

/-- Settles O46: an empty message has no fragments, and one above 9999 · PACKET_DATA_LEN bytes has more than 9999. -/
theorem sendOfAnEmptyOrOverlongMessage : Obligations.SendOfAnEmptyOrOverlongMessage := by
  intro s hidle hsess
  refine ⟨fun hempty => ?_, fun hlong => ?_⟩
  · rw [exec_send_of_opened hidle hsess, sendMessage_of_empty hempty]
    rfl
  · rw [exec_send_of_opened hidle hsess, sendMessage_of_overlong hlong, Flow.settle_raise, State.raiseFatal_of_opened _ hsess]

/-- Settles O48: the message is loaded, and its first fragment transmitted. -/
theorem sendTransmitsTheFirstFragment : Obligations.SendTransmitsTheFirstFragment := by
  intro s hidle hsess hver ha hle hrange fs pay p
  have hpay : fs[0]? = some pay := fragment_head s.one_le_packetDataLen ha
  obtain ⟨q, d, hq, hsent⟩ := transmitFragment_of_range
    (s := { loadMessage fs s with status := { s.status with op := .send } }) hpay (by rwa [List.length_take])
  refine ⟨q, d, hq, hq.eq_of_prob_zero, ?_⟩
  rw [exec_send_of_fragments hidle hsess hver ha hle, hsent]
  rfl

/-- Settles O50. -/
theorem recvStartsAWait : Obligations.RecvStartsAWait := fun _ hidle hsess =>
  (exec_recv hidle).trans (inSession_of_opened _ hsess)

/-- Settles O51: the FIN packet's text, read off for each version. -/
theorem finishEmitsFinAndEnds : Obligations.FinishEmitsFinAndEnds := by
  intro s hidle hsess fixed check bit p
  have hp : p = buildFin s := by
    rw [buildFin_eq, State.fmt]
    dsimp only [p]
    cases s.cfg.ver <;> rfl
  rw [exec_finish hidle, inSession_of_opened _ hsess, hp]
  rfl

end

section
/-! PROOFS. A blocking operation's waits: what a sender does on a reply it accepts and on one it does not, that it emits
noisy copies of LAST_PKT alone, and what ends the operation and the session (R247 to R249, R252, R253, R206, R257). -/

namespace Sys2Proof.Machine

/-! ## A sender emits noisy copies of LAST_PKT -/

/-- `t` is reached from `s` with no emission, or with one of a noisy copy of the LAST_PKT it holds. -/
def EmitsOnlyLastPkt (s t : State) : Prop :=
  t.env.tx = s.env.tx ∨ ∃ p q, t.snd.lastPkt = some p ∧ NoisyCopy s p q ∧ t.env.tx = s.env.tx ++ [q]

/-- A rule that emits at most a noisy copy of the LAST_PKT it leaves, and nothing where it raises. -/
def Flow.EmitsOnlyLastPkt (s : State) (r : Flow) : Prop :=
  r.Ends (Machine.EmitsOnlyLastPkt s) fun _ t => t.env.tx = s.env.tx

theorem Flow.EmitsOnlyLastPkt.settle {s t : State} {r : Flow} (hr : r.EmitsOnlyLastPkt s) (h : r.settle = .next t) :
    Machine.EmitsOnlyLastPkt s t := by
  obtain rfl | ⟨e, u, rfl, rfl⟩ := Flow.settle_eq_next h
  · exact hr
  · exact .inl ((congrArg Env.tx (State.raiseFatal_env u e)).trans hr)

section
variable (s : State)

/-- A retransmission sends the LAST_PKT it keeps (R248). -/
theorem retransmit_emitsOnlyLastPkt (why : Why) : (retransmit why s).EmitsOnlyLastPkt s := by
  obtain ⟨-, -, e⟩ | ⟨-, ⟨-, e⟩ | ⟨p, hp, ⟨d, q, hq, e⟩ | ⟨-, d, e⟩⟩⟩ := retransmit_cases why s <;> rw [e]
  · rfl
  · trivial
  · exact .inr ⟨p, q, hp, hq, rfl⟩
  · rfl

/-- A first transmission sends the packet it stores (R247). -/
theorem transmitFragment_emitsOnlyLastPkt (i : Nat) : (transmitFragment i s).EmitsOnlyLastPkt s := by
  obtain ⟨-, e⟩ | ⟨p, -, ⟨d, q, hq, e⟩ | ⟨-, d, e⟩⟩ := transmitFragment_cases i s <;> rw [e]
  · trivial
  · exact .inr ⟨p, q, rfl, hq, rfl⟩
  · rfl

theorem advance_emitsOnlyLastPkt : (advance s).EmitsOnlyLastPkt s := by
  obtain ⟨-, e⟩ | ⟨-, e⟩ := advance_cases s <;> rw [e]
  · exact .inl rfl
  · exact transmitFragment_emitsOnlyLastPkt
      { s with
        status := { s.status with sndState := .idle }
        snd := { s.snd with idx := s.snd.idx + 1 } } (s.snd.idx + 1)

theorem rxRule_send_emitsOnlyLastPkt (p : ByteStr) (hop : s.status.op = .send) : (rxRule p s).EmitsOnlyLastPkt s := by
  obtain ⟨-, e⟩ | ⟨c, -, e⟩ | e | ⟨why, e⟩ | ⟨b, e⟩ := rxRule_send_cases p hop <;> rw [e]
  · trivial
  · rfl
  · rfl
  · exact retransmit_emitsOnlyLastPkt s why
  · exact advance_emitsOnlyLastPkt { s with snd := { s.snd with bit := b } }

theorem timeoutRule_send_emitsOnlyLastPkt (hop : s.status.op = .send) : (timeoutRule s).EmitsOnlyLastPkt s := by
  rw [timeoutRule, hop]
  exact retransmit_emitsOnlyLastPkt s .timeout

end

section
variable {s : State} {p q pay : ByteStr} {h : Hdr}

/-! ## A sender's reply -/

theorem ne_v10_of_acceptable (hacc : acceptable s h = true) : s.cfg.ver ≠ .v10 := by
  intro hver
  rw [acceptable, hver] at hacc
  cases hacc

/-- RX in a sender's wait, of a packet that parses and is no FIN (R252, R254). -/
theorem exec_rx_of_sending (hop : s.status.op = .send) (hwait : s.status.sndState = .waitForReply)
    (hver : s.cfg.ver ≠ .v10) (hparse : parse s.cfg.ver.format p = .ok h) (hfin : finFlag h.fl = false) :
    exec (.rx p) s = (senderRule s.cfg.ver h s).settle := by
  rw [exec_rx_of_waiting p (s.waiting_iff.mpr (.inl ⟨hop, hwait⟩)), rxRule_send_of_parsed hop hver hparse hfin]

/-- Advance past the last fragment (R249). -/
theorem advance_of_last (hlast : s.snd.idx + 1 = s.snd.total) : advance s = .done
    (({ s with
        status := { s.status with sndState := .idle, op := .none }
        snd := { s.snd with idx := s.snd.idx + 1 } } : State).complete) := by
  obtain ⟨-, e⟩ | ⟨hmore, -⟩ := advance_cases s
  · exact e
  · exact absurd hlast hmore

/-- With CFG_PROB 0 a packet is stored and emitted as it is (R247). -/
theorem transmit_prob_zero (q : ByteStr) (hprob : s.cfg.prob = 0) :
    transmit q s = .done ({ s with snd := { s.snd with lastPkt := some q, retryCnt := 0 } }.emit q) :=
  emitNoisy_prob_zero (s := { s with snd := { s.snd with lastPkt := some q, retryCnt := 0 } }) q hprob

/-- With CFG_PROB 0 a fragment's packet is transmitted as it is (R241, R249). -/
theorem transmitFragment_prob_zero {i : Nat} (hpay : s.snd.frags[i]? = some pay) (hprob : s.cfg.prob = 0) :
    transmitFragment i s = .done
      { s with
        snd := { s.snd with lastPkt := some (dataPacket s i pay), retryCnt := 0 }
        env := { s.env with tx := s.env.tx ++ [dataPacket s i pay] }
        status := { s.status with sndState := .waitForReply } } := by
  rw [transmitFragment, buildData, hpay]
  dsimp only [Option.map_some]
  rw [transmit_prob_zero _ hprob]
  rfl

/-- With CFG_PROB 0 Advance sends the next fragment's packet as it is (R249). -/
theorem advance_prob_zero (hmore : s.snd.idx + 1 ≠ s.snd.total) (hpay : s.snd.frags[s.snd.idx + 1]? = some pay)
    (hprob : s.cfg.prob = 0) : advance s = .done
      { s with
        snd := { s.snd with
          idx := s.snd.idx + 1, lastPkt := some (dataPacket s (s.snd.idx + 1) pay), retryCnt := 0 }
        env := { s.env with tx := s.env.tx ++ [dataPacket s (s.snd.idx + 1) pay] }
        status := { s.status with sndState := .waitForReply } } := by
  obtain ⟨hlast, -⟩ | ⟨-, e⟩ := advance_cases s
  · exact absurd hlast hmore
  · rw [e]
    exact transmitFragment_prob_zero (s := { s with
      status := { s.status with sndState := .idle }
      snd := { s.snd with idx := s.snd.idx + 1 } }) hpay hprob

/-- With CFG_PROB 0 a retransmission below the ceiling counts itself and sends LAST_PKT as it is (R248). -/
theorem retransmit_prob_zero (why : Why) (hlast : s.snd.lastPkt = some q)
    (hretry : s.cfg.retry = 0 ∨ s.snd.retryCnt < s.cfg.retry.toNat) (hprob : s.cfg.prob = 0) :
    retransmit why s = .done
      { s with
        snd := { s.snd with retryCnt := s.snd.retryCnt + 1 }
        env := { s.env with tx := s.env.tx ++ [q] } } := by
  have hbelow : ¬ (s.cfg.retry.toNat > 0 ∧ s.snd.retryCnt + 1 > s.cfg.retry.toNat) := by
    obtain hzero | hlt := hretry
    · simp [hzero]
    · omega
  rw [retransmit, if_neg hbelow, hlast]
  exact emitNoisy_prob_zero (s := { s with snd := { s.snd with retryCnt := s.snd.retryCnt + 1 } }) q hprob

/-- Why a version's rule retransmits on a packet it does not accept (R284, R311, R312, R341). -/
def rejection (s : State) (h : Hdr) : Why :=
  match s.cfg.ver with
  | .v10 => .garbled
  | .v20 => if nackFlag h.fl then .nack else .garbled
  | .v21 => if h.checks && decide (h.pay = nakText) then .nack else .garbled
  | .v22 =>
    if h.checks && decide (h.pay = nakText) then .nack
    else if h.checks && decide (h.pay = ackText) then .stale
    else .garbled
  | .v30 => if nackFlag h.fl then .nack else if ackFlag h.fl && h.checks then .stale else .garbled

/-- The retry ceiling reports the reason by its code (R248, R401). -/
theorem rejection_raise (s : State) (h : Hdr) : (rejection s h).raise = ⟨.checksumMismatch, rejectionCode s h⟩ := by
  unfold rejection rejectionCode
  cases s.cfg.ver with
  | v10 => rfl
  | v20 | v21 | v22 | v30 => dsimp only; split_ifs <;> rfl

/-- A packet that is no acknowledgment of versions 2.1 and 2.2 (R311). -/
theorem v21SendRx_of_not_ack (hack : ¬ (h.checks = true ∧ h.pay = ackText)) :
    v21SendRx h s = retransmit (if h.checks && decide (h.pay = nakText) then .nack else .garbled) s := by
  rw [v21SendRx, if_neg hack, apply_ite (retransmit · s)]
  simp only [Bool.and_eq_true, decide_eq_true_eq]

/-- An acknowledgment of the other bit in version 2.2 (R312). -/
theorem v21SendRx_of_stale (hver : s.cfg.ver = .v22) (hack : h.checks = true ∧ h.pay = ackText) (hbit : h.n ≠ s.snd.bit) :
    v21SendRx h s = retransmit .stale s := by
  rw [v21SendRx, if_pos hack, if_pos ⟨hver, hbit⟩]

/-- Version 3.0 on a packet it does not accept (R341). -/
theorem v30SendRx_of_rejected
    (hrej : nackFlag h.fl = false → ackFlag h.fl = true → h.checks = true → h.n ≠ s.snd.bit) :
    v30SendRx h s =
      retransmit (if nackFlag h.fl then .nack else if ackFlag h.fl && h.checks then .stale else .garbled) s := by
  unfold v30SendRx
  cases hnack : nackFlag h.fl with
  | true => rfl
  | false =>
    cases hack : ackFlag h.fl with
    | false => rfl
    | true =>
      cases hc : h.checks with
      | false => rfl
      | true => simp [hrej hnack hack hc]

/-- A reply that is not accepted is retransmitted for its reason (R284, R311, R312, R341). -/
theorem senderRule_of_rejected (hver : s.cfg.ver ≠ .v10) (hacc : acceptable s h = false) :
    senderRule s.cfg.ver h s = retransmit (rejection s h) s := by
  unfold acceptable at hacc
  unfold rejection
  cases hv : s.cfg.ver with
  | v10 => exact absurd hv hver
  | v20 =>
    simp only [hv, Bool.and_eq_false_imp, Bool.not_eq_false'] at hacc
    rw [senderRule, v20SendRx, if_neg fun hc => hc.2 (hacc hc.1), apply_ite (retransmit · s)]
  | v21 =>
    simp only [hv, Bool.and_eq_false_imp, decide_eq_false_iff_not] at hacc
    exact v21SendRx_of_not_ack fun hack => hacc hack.1 hack.2
  | v22 =>
    simp only [hv] at hacc
    by_cases hack : h.checks = true ∧ h.pay = ackText
    · have hbit : h.n ≠ s.snd.bit := by simpa [hack] using hacc
      simpa [senderRule, hack, show ackText ≠ nakText by decide] using v21SendRx_of_stale hv hack hbit
    · simpa [senderRule, hack] using v21SendRx_of_not_ack hack
  | v30 =>
    simp only [hv] at hacc
    exact v30SendRx_of_rejected fun hnack hack hc => by simpa [hnack, hack, hc] using hacc

/-! ## Packets that end the session -/

/-- A wait whose RX has a rule: a sender's after version 1.0, or a receiver's (R254, R255). -/
def State.HasRxRule (s : State) : Prop :=
  (s.status.op = .send ∧ s.status.sndState = .waitForReply ∧ s.cfg.ver ≠ .v10) ∨
    (s.status.op = .recv ∧ s.status.rcvState = .waitForPacket)

theorem State.HasRxRule.waiting (hrule : s.HasRxRule) : s.waiting = true := by
  obtain ⟨hop, hwait, -⟩ | hrecv := hrule
  · exact s.waiting_iff.mpr (.inl ⟨hop, hwait⟩)
  · exact s.waiting_iff.mpr (.inr hrecv)

theorem rxRule_of_parse_error {c : BitVec 16} (hrule : s.HasRxRule) (hparse : parse s.cfg.ver.format p = .error c) :
    rxRule p s = .raise ⟨.malformedHeader, c⟩ s := by
  obtain ⟨hop, -, hver⟩ | ⟨hop, -⟩ := hrule
  · rw [rxRule_send p hop hver, senderRx, State.fmt, hparse]
  · rw [rxRule_recv p hop, receiverRx, State.fmt, hparse]

theorem rxRule_of_fin (hrule : s.HasRxRule) (hparse : parse s.cfg.ver.format p = .ok h) (hfin : finFlag h.fl = true) :
    rxRule p s = finReceived s := by
  obtain ⟨hop, -, hver⟩ | ⟨hop, -⟩ := hrule
  · rw [rxRule_send p hop hver, senderRx, State.fmt, hparse]
    exact if_pos hfin
  · rw [rxRule_recv p hop, receiverRx, State.fmt, hparse]
    exact if_pos hfin

/-- The fragments a receiver's version buffers (R281, R285, R313, R343, R253). -/
def State.Buffers (s : State) (h : Hdr) : Prop :=
  match s.cfg.ver with
  | .v10 => True
  | .v20 => h.checks = true ∧ ackFlag h.fl = false ∧ nackFlag h.fl = false
  | .v21 | .v22 => h.checks = true ∧ h.n = s.rcv.bit
  | .v30 => h.checks = true ∧ ackFlag h.fl = false ∧ nackFlag h.fl = false ∧ h.n = s.rcv.bit

theorem State.Buffers.not_stale (hbuf : s.Buffers h) : staleReply s.cfg.ver h.fl = false := by
  unfold State.Buffers at hbuf
  cases hv : s.cfg.ver with
  | v10 | v21 | v22 => rfl
  | v20 =>
    rw [hv] at hbuf
    obtain ⟨-, hack, hnack⟩ := hbuf
    simp [staleReply, hack, hnack]
  | v30 =>
    rw [hv] at hbuf
    obtain ⟨-, hack, hnack, -⟩ := hbuf
    simp [staleReply, hack, hnack]

/-- A fragment that a version buffers goes to BufAdd first of all. -/
theorem State.Buffers.receiverRule_eq (hbuf : s.Buffers h) :
    ∃ k, receiverRule s.cfg.ver h s = (bufferFragment h s).andThen k := by
  unfold State.Buffers at hbuf
  cases hv : s.cfg.ver with
  | v10 => exact ⟨_, rfl⟩
  | v20 =>
    rw [hv] at hbuf
    exact ⟨_, if_pos hbuf.1⟩
  | v21 | v22 =>
    rw [hv] at hbuf
    obtain ⟨hc, hn⟩ := hbuf
    exact ⟨_, (if_neg (not_not.mpr hc)).trans (if_pos hn)⟩
  | v30 =>
    rw [hv] at hbuf
    obtain ⟨hc, -, -, hn⟩ := hbuf
    exact ⟨_, (if_neg (not_not.mpr hc)).trans (if_pos hn)⟩

/-- Where BufAdd refuses a fragment the receiver raises its error with nothing written (R206). -/
theorem rxRule_of_bufAdd_error {e : Raise} (hop : s.status.op = .recv) (hparse : parse s.cfg.ver.format p = .ok h)
    (hfin : finFlag h.fl = false) (hbuf : s.Buffers h) (hadd : bufAdd s.packetDataLen s.rcv h.s h.t h.pay = .error e) :
    rxRule p s = .raise e s := by
  obtain ⟨k, hrule⟩ := hbuf.receiverRule_eq
  rw [rxRule_recv_of_parsed hop hparse hfin hbuf.not_stale, hrule, bufferFragment, hadd]
  rfl

/-- A wait's RX that raises ends an open session (R402). -/
theorem exec_rx_of_raise {e : Raise} (hrule : s.HasRxRule) (hsess : s.status.sess = .opened)
    (hraise : rxRule p s = .raise e s) :
    exec (.rx p) s = .next
      { s with
        status := { s.status with
          err := e.code, faultSeen := true, op := .none, sndState := .idle, rcvState := .idle, sess := .ended,
          endCause := .fatalError }
        errInfo := e.info } := by
  rw [exec_rx_of_waiting p hrule.waiting, hraise, Flow.settle_raise, State.raiseFatal_of_opened e hsess]

end

end Sys2Proof.Machine

open Sys2Proof Sys2Proof.Machine

/-- Settles O20: of the rules of a sender's wait only a retransmission and a first transmission emit, each a noisy copy of
the LAST_PKT it leaves. -/
theorem senderEmitsNoisyCopiesOfLastPkt : Obligations.SenderEmitsNoisyCopiesOfLastPkt := by
  intro i s t hi hop _ h
  have key : EmitsOnlyLastPkt s t := by
    obtain rfl | ⟨p, rfl⟩ := hi
    · obtain ⟨-, h⟩ | ⟨-, rfl⟩ := execTimeout_cases h
      · exact (timeoutRule_send_emitsOnlyLastPkt s hop).settle h
      · exact .inl rfl
    · obtain ⟨-, h⟩ | ⟨-, rfl⟩ := execRx_cases h
      · exact (rxRule_send_emitsOnlyLastPkt s p hop).settle h
      · exact .inl rfl
  exact key

/-- Settles O52: each version's rule on an accepted reply is Advance with the new bit, which ends or goes on. -/
theorem senderAdvancesOnAnAcceptedReply : Obligations.SenderAdvancesOnAnAcceptedReply := by
  intro p h s hop hwait hparse hfin hacc bit
  have hexec : exec (.rx p) s = (advance { s with snd := { s.snd with bit := bit } }).settle := by
    rw [exec_rx_of_sending hop hwait (ne_v10_of_acceptable hacc) hparse hfin, senderRule_of_acceptable hacc]
  refine ⟨fun hlast => ?_, fun pay hmore hpay hprob => ?_⟩
  · rw [hexec, advance_of_last (s := { s with snd := { s.snd with bit := bit } }) hlast]
    rfl
  · rw [hexec, advance_prob_zero (s := { s with snd := { s.snd with bit := bit } }) hmore hpay hprob, ← hwait]
    rfl

/-- Settles O53: each version's rule on a rejected reply is Retransmit, which counts and sends or raises the rejection's
code. -/
theorem senderRetransmitsOnARejectedReply : Obligations.SenderRetransmitsOnARejectedReply := by
  intro p q h s hop hwait hsess hver hparse hfin hacc hlast
  have hexec : exec (.rx p) s = (retransmit (rejection s h) s).settle := by
    rw [exec_rx_of_sending hop hwait hver hparse hfin, senderRule_of_rejected hver hacc]
  refine ⟨fun hretry hprob => ?_, fun hceil hused => ?_⟩
  · rw [hexec, retransmit_prob_zero _ hlast hretry hprob]
    rfl
  · rw [hexec, retransmit_at_ceiling hceil hused, rejection_raise, Flow.settle_raise, State.raiseFatal_of_opened _ hsess]

/-- Settles O57: the prologue raises on a packet that does not parse and on a FIN, and the rule of a fragment to buffer
begins with BufAdd's checks in their order. -/
theorem fatalPacketsEndTheSession : Obligations.FatalPacketsEndTheSession := by
  intro p s hsess hrule ends
  have hrule : s.HasRxRule := hrule
  refine ⟨fun c hparse => exec_rx_of_raise hrule hsess (rxRule_of_parse_error hrule hparse),
    fun h hparse => ⟨fun hfin => ?_, fun hfin hop hbuf => ?_⟩⟩
  · change exec (.rx p) s = _
    rw [exec_rx_of_waiting p hrule.waiting, rxRule_of_fin hrule hparse hfin, finReceived, Flow.settle_raise,
      State.raiseFatal_endSession]
  · have hbuf : s.Buffers h := hbuf
    have hends {c : BitVec 16} (hadd : bufAdd s.packetDataLen s.rcv h.s h.t h.pay = .error ⟨.malformedHeader, c⟩) :
        ends .malformedHeader c .fatalError :=
      exec_rx_of_raise hrule hsess (rxRule_of_bufAdd_error hop hparse hfin hbuf hadd)
    have htle := parse_total_le hparse
    refine ⟨fun hseq => hends (if_pos (by omega)), fun h1 h2 hsome hother => hends ?_, fun h1 h2 htotal hlong => hends ?_⟩
    · rw [bufAdd, if_neg (by omega), if_pos ⟨hsome, hother⟩]
    · rw [bufAdd, if_neg (by omega), if_neg (by tauto), if_pos hlong]

/-- Settles O59: CHAN_CLOSE ends an open session with its own cause, which the raise of an aborted operation keeps. -/
theorem chanCloseEndsTheSession : Obligations.ChanCloseEndsTheSession := by
  intro s
  refine ⟨fun hsess => if_neg hsess, fun hsess hop => (if_pos hsess).trans (if_pos hop), fun hsess hop => ?_⟩
  rw [← State.raiseFatal_endSession .channelClosed ⟨.channelClosed, 3⟩]
  exact (if_pos hsess).trans (if_neg hop)

end

section
/-! PROOFS. SEND in version 1.0: the packets of a whole message, and the registers a SEND that never waits leaves (R280). -/

namespace Sys2Proof.Machine

section
variable {s : State}

/-- A version 1.0 packet character for character: neither a checksum nor a bit (R86, R244). -/
theorem dataPacket_of_v10 (i : Nat) (pay : ByteStr) (hver : s.cfg.ver = .v10) :
    dataPacket s i pay = header .plain (i + 1) s.snd.total 0x00 [] false ++ nl :: pay := by
  rw [dataPacket, State.fmt, hver]
  rfl

/-- A message's packets, counted by the fragments' numbers (R280). -/
theorem allPackets_eq (s : State) : allPackets s =
    (List.range s.snd.frags.length).map fun i => dataPacket s i (s.snd.frags.getD i []) := by
  refine List.ext_getElem (by simp [allPackets]) fun i hi _ => ?_
  have hi : i < s.snd.frags.length := by simpa [allPackets] using hi
  simp [allPackets, hi]

/-- A fragment that is there has a packet (R244). -/
theorem buildData_of_lt {i : Nat} (hi : i < s.snd.frags.length) :
    buildData s i = some (dataPacket s i (s.snd.frags.getD i [])) := by
  rw [buildData, List.getElem?_eq_getElem hi, List.getD_eq_getElem _ _ hi]
  rfl

/-- A version 1.0 SEND of 1 to 9999 fragments sends them all and completes (R241, R280). -/
theorem sendMessage_of_v10 (hver : s.cfg.ver = .v10) (ha : s.ports.a ≠ [])
    (hle : s.ports.a.length ≤ 9999 * s.packetDataLen) :
    sendMessage s = .done (v10Send (loadMessage (fragment s.ports.a s.packetDataLen) s)).complete := by
  rw [sendMessage]
  dsimp only
  rw [if_neg (Nat.not_lt.mpr (fragment_length_le hle)), if_neg (fragment_length_ne_zero s.one_le_packetDataLen ha),
    if_pos hver]

end

end Sys2Proof.Machine

open Sys2Proof Sys2Proof.Machine

/-- Settles O47: the packets are those of all the fragments by number, and the last of them is LAST_PKT. -/
theorem v10SendEmitsEveryFragment : Obligations.V10SendEmitsEveryFragment := by
  intro s hidle hsess hver ha hle fs packet
  have hpacket (i : Nat) : dataPacket (loadMessage fs s) i (fs.getD i []) = packet i := dataPacket_of_v10 i _ hver
  have hall : allPackets (loadMessage fs s) = (List.range fs.length).map packet :=
    (allPackets_eq _).trans (List.map_congr_left fun i _ => hpacket i)
  have hfs : fs.length ≠ 0 := fragment_length_ne_zero s.one_le_packetDataLen ha
  have hlast : buildData (loadMessage fs s) (fs.length - 1) = some (packet (fs.length - 1)) :=
    (buildData_of_lt (Nat.sub_one_lt hfs)).trans (congrArg some (hpacket _))
  rw [exec_send_of_opened hidle hsess, sendMessage_of_v10 hver ha hle, ← hall, ← hlast]
  rfl

end

section
/-! PROOFS. The receivers of versions 1.0 and 2.0: which packets they drop, refuse and buffer, their replies, and the end of
a message (R281, R285, R253, R250). -/

namespace Sys2Proof.Machine

section
variable {s : State} {h : Hdr} {p : ByteStr}

/-- RX in a receiver's wait, of a packet that parses and is neither FIN nor a stale reply (R253, R254). -/
theorem exec_rx_of_receiving (hop : s.status.op = .recv) (hwait : s.status.rcvState = .waitForPacket)
    (hparse : parse s.cfg.ver.format p = .ok h) (hfin : finFlag h.fl = false)
    (hstale : staleReply s.cfg.ver h.fl = false) :
    exec (.rx p) s = (receiverRule s.cfg.ver h s).settle := by
  rw [exec_rx_of_waiting p (s.waiting_iff.mpr (.inr ⟨hop, hwait⟩)), rxRule_recv_of_parsed hop hparse hfin hstale]

/-- A receiver's wait drops a stale reply (R253). -/
theorem exec_rx_of_stale (hop : s.status.op = .recv) (hwait : s.status.rcvState = .waitForPacket)
    (hparse : parse s.cfg.ver.format p = .ok h) (hfin : finFlag h.fl = false)
    (hstale : staleReply s.cfg.ver h.fl = true) : exec (.rx p) s = .next s := by
  rw [exec_rx_of_waiting p (s.waiting_iff.mpr (.inr ⟨hop, hwait⟩)), rxRule_recv p hop]
  simp [receiverRx, State.fmt, hparse, hfin, hstale]

/-- Before version 2.1 only version 2.0 has replies to drop (R253). -/
theorem staleReply_iff_of_v10_or_v20 {v : Version} (fl : Byte) (hver : v = .v10 ∨ v = .v20) :
    staleReply v fl = true ↔ v = .v20 ∧ (ackFlag fl = true ∨ nackFlag fl = true) := by
  obtain rfl | rfl := hver <;> simp [staleReply]

/-- A flag-only reply of version 2.0 character for character, with the checksum of the empty payload (R245). -/
theorem buildReply_of_empty_payload {k : Reply} (h : Hdr) (n : Bool) (hfmt : s.cfg.ver.format = .c)
    (hk : k.payload = []) :
    buildReply s k h n =
      header .c h.s h.t k.flags [true, true, true, true, true, true, true, true] false ++ [nl] := by
  have hbits : checksumBits [] = [true, true, true, true, true, true, true, true] := by decide
  rw [buildReply, State.fmt, hfmt, hk, hbits]
  rfl

/-- What the receivers of versions 1.0 and 2.0 emit for a fragment they accept: nothing in 1.0, a flag-only ACK in 2.0
(R281, R285). -/
def bufferedReplies (s : State) (h : Hdr) : List ByteStr :=
  if s.cfg.ver = .v20 then [buildReply s .v20Ack h false] else []

/-- Deliver does nothing before the message is complete (R250). -/
theorem deliver_of_incomplete (hcount : s.rcv.total ≠ some s.rcv.buf.length) : deliver s = s :=
  if_neg (by rw [bufComplete_eq_false hcount]; exact Bool.false_ne_true)

/-- Deliver completes the RECV with the message (R250). -/
theorem deliver_of_complete (hcount : s.rcv.total = some s.rcv.buf.length) : deliver s =
    { s with
      res := { s.res with r := reassemble s.rcv }
      status := { s.status with rcvState := .idle, op := .none, err := .ok }
      errInfo := 0 } :=
  if_pos (by rw [bufComplete_of_total hcount, decide_eq_true rfl])

/-- A corrupt fragment in version 2.0 (R285). -/
theorem receiverRule_of_v20_corrupt (hver : s.cfg.ver = .v20) (hc : h.checks = false) :
    receiverRule s.cfg.ver h s = .done (s.emit (buildReply s .v20Nack h false)) := by
  rw [hver]
  exact if_neg (by rw [hc]; exact Bool.false_ne_true)

/-- A fragment that BufAdd takes is answered, in version 2.0, and the message delivered if it completes it (R281, R285). -/
theorem receiverRule_of_buffered {rc : ReceiverRegs} (hver : s.cfg.ver = .v10 ∨ s.cfg.ver = .v20)
    (hvalid : s.cfg.ver = .v10 ∨ h.checks = true) (hadd : bufferFragment h s = .done { s with rcv := rc }) :
    receiverRule s.cfg.ver h s = .done (deliver
      { s with rcv := rc, env := { s.env with tx := s.env.tx ++ bufferedReplies s h } }) := by
  obtain hv | hv := hver
  · have hnone : bufferedReplies s h = [] := if_neg (by rw [hv]; nofun)
    rw [hnone, List.append_nil, hv, receiverRule, v10RecvRx, hadd, Flow.andThen_done]
  · have hc : h.checks = true := hvalid.resolve_left (by rw [hv]; nofun)
    have hack : bufferedReplies s h = [buildReply s .v20Ack h false] := if_pos hv
    rw [hack, hv, receiverRule, v20RecvRx, if_pos hc, hadd, Flow.andThen_done]
    rfl

/-- A fragment that leaves the message incomplete is buffered and answered (R281, R285, R250). -/
theorem settle_receiverRule_of_incomplete {rc : ReceiverRegs} (hver : s.cfg.ver = .v10 ∨ s.cfg.ver = .v20)
    (hvalid : s.cfg.ver = .v10 ∨ h.checks = true) (hadd : bufferFragment h s = .done { s with rcv := rc })
    (hcount : rc.total ≠ some rc.buf.length) : (receiverRule s.cfg.ver h s).settle = .next
      { s with rcv := rc, env := { s.env with tx := s.env.tx ++ bufferedReplies s h } } := by
  rw [receiverRule_of_buffered hver hvalid hadd, deliver_of_incomplete hcount, Flow.settle_done]

/-- A fragment with which the message is complete is buffered and answered, and the message delivered (R281, R285,
R250). -/
theorem settle_receiverRule_of_complete {rc : ReceiverRegs} (hver : s.cfg.ver = .v10 ∨ s.cfg.ver = .v20)
    (hvalid : s.cfg.ver = .v10 ∨ h.checks = true) (hadd : bufferFragment h s = .done { s with rcv := rc })
    (hcount : rc.total = some rc.buf.length) : (receiverRule s.cfg.ver h s).settle = .next
      { s with
        rcv := rc
        env := { s.env with tx := s.env.tx ++ bufferedReplies s h }
        res := { s.res with r := reassemble rc }
        status := { s.status with rcvState := .idle, op := .none, err := .ok }
        errInfo := 0 } := by
  rw [receiverRule_of_buffered hver hvalid hadd, deliver_of_complete hcount, Flow.settle_done]

end

end Sys2Proof.Machine

open Sys2Proof Sys2Proof.Machine

/-- Settles O54: a stale reply is dropped, a corrupt fragment refused, and one that BufAdd takes answered and delivered; the
four cases of BufAdd and Deliver differ in the buffer alone. -/
theorem receiverV10AndV20 : Obligations.ReceiverV10AndV20 := by
  intro p h s hop hwait hver hparse hfin isReply valid ones reply answered
  have hstale : staleReply s.cfg.ver h.fl = true ↔ isReply := staleReply_iff_of_v10_or_v20 h.fl hver
  have hexec (hnot : ¬ isReply) : exec (.rx p) s = (receiverRule s.cfg.ver h s).settle :=
    exec_rx_of_receiving hop hwait hparse hfin (Bool.eq_false_of_not_eq_true (mt hstale.mp hnot))
  have hreply {k : Reply} (hv : s.cfg.ver = .v20) (hk : k.payload = []) : buildReply s k h false = reply k.flags :=
    buildReply_of_empty_payload h false (by rw [hv]; rfl) hk
  have hanswered : bufferedReplies s h = answered := by
    refine ite_congr rfl (fun hv => ?_) fun _ => rfl
    rw [hreply hv rfl]
    rfl
  refine ⟨fun hreplies => exec_rx_of_stale hop hwait hparse hfin (hstale.mpr hreplies), fun hnot hinvalid => ?_,
    fun hnot hvalid h1 h2 htotal hlen => ?_⟩
  · obtain ⟨hv10, hc⟩ := not_or.mp hinvalid
    have hv : s.cfg.ver = .v20 := hver.resolve_left hv10
    rw [hexec hnot, receiverRule_of_v20_corrupt hv (Bool.eq_false_of_not_eq_true hc), hreply hv rfl]
    rfl
  · have htle := parse_total_le hparse
    have hdup (hin : bufLookup h.s s.rcv.buf ≠ none) := bufferFragment_dup h1 h2 htle htotal hlen hin
    have hnew (hout : bufLookup h.s s.rcv.buf = none) := bufferFragment_new h1 h2 htle htotal hlen hout
    have hlength (hout : bufLookup h.s s.rcv.buf = none) := bufInsert_length (pay := h.pay) hout
    simp only [hexec hnot, ← hanswered]
    refine ⟨fun hin hcount => ?_, fun hin hcount => ?_, fun hout hcount => ?_, fun hout hcount => ?_⟩
    · exact settle_receiverRule_of_incomplete hver hvalid (hdup hin) hcount
    · exact settle_receiverRule_of_complete hver hvalid (hdup hin) hcount
    · exact settle_receiverRule_of_incomplete hver hvalid (hnew hout)
        fun e => hcount ((hlength hout).symm.trans (Option.some.inj e).symm)
    · exact settle_receiverRule_of_complete hver hvalid (hnew hout)
        (congrArg some ((hlength hout).trans hcount).symm)

end

section
/-! PROOFS. TIMEOUT in the waits that have a timer (R256, R282, R342, R344). -/

namespace Sys2Proof.Machine

section
variable {s : State}

/-- TIMEOUT in the wait of a version 3.0 sender (R342). -/
theorem exec_timeout_of_sending (hop : s.status.op = .send) (hwait : s.status.sndState = .waitForReply)
    (hver : s.cfg.ver = .v30) : exec .timeout s = (retransmit .timeout s).settle := by
  rw [exec_timeout_of_timedWait (s.timedWait_iff.mpr (.inl ⟨hop, hwait, hver⟩)), timeoutRule, hop]

/-- TIMEOUT in the wait of a version 1.0 or 3.0 receiver (R282, R344). -/
theorem exec_timeout_of_receiving (hop : s.status.op = .recv) (hwait : s.status.rcvState = .waitForPacket)
    (hver : s.cfg.ver = .v10 ∨ s.cfg.ver = .v30) : exec .timeout s = .next s := by
  rw [exec_timeout_of_timedWait (s.timedWait_iff.mpr (.inr ⟨hop, hwait, hver⟩)), timeoutRule, hop]
  rfl

end

end Sys2Proof.Machine

open Sys2Proof Sys2Proof.Machine

/-- Settles O58: a receiver's timer has no rule but to wait on, and the version 3.0 sender's is Retransmit, which counts and
sends or raises TIMEOUT_EXCEEDED. -/
theorem timeoutRetransmitsOrKeepsWaiting : Obligations.TimeoutRetransmitsOrKeepsWaiting := by
  intro s
  refine ⟨exec_timeout_of_receiving, fun q hop hwait hsess hver hlast => ⟨fun hretry hprob => ?_, fun hceil hused => ?_⟩⟩
  · rw [exec_timeout_of_sending hop hwait hver, retransmit_prob_zero _ hlast hretry hprob]
    rfl
  · rw [exec_timeout_of_sending hop hwait hver, retransmit_at_ceiling hceil hused, Flow.settle_raise,
      State.raiseFatal_of_opened _ hsess]
    rfl

end

section
/-! PROOFS. The receivers of versions 2.1 to 3.0: which packets they drop, answer and buffer, their acknowledgments, which
stay clean on the last fragment or with CFG_PROB = 0, and the end of a message (R313, R343, R253, R245, R250, R251). -/

namespace Sys2Proof.Machine

section
variable {s : State} {h : Hdr} {k : Reply} {rc : ReceiverRegs}

/-- The versions whose receivers keep RCV_BIT. -/
theorem ne_v10_and_ne_v20 {v : Version} (hver : v = .v21 ∨ v = .v22 ∨ v = .v30) : v ≠ .v10 ∧ v ≠ .v20 := by
  obtain rfl | rfl | rfl := hver <;> exact ⟨nofun, nofun⟩

/-- After version 2.0 only version 3.0 has replies to drop (R253). -/
theorem staleReply_iff_of_ne_v20 {v : Version} (fl : Byte) (hv20 : v ≠ .v20) :
    staleReply v fl = true ↔ v = .v30 ∧ (ackFlag fl = true ∨ nackFlag fl = true) := by
  simp [staleReply, hv20]

/-- A reply that is not injected, or with CFG_PROB 0, is sent as it is (R251). -/
theorem sendReply_of_clean {inj : Bool} (q : ByteStr) (hclean : inj = false ∨ s.cfg.prob = 0) :
    sendReply q inj s = .done (s.emit q) := by
  cases inj with
  | false => rfl
  | true => exact emitNoisy_prob_zero q (hclean.resolve_left nofun)

/-- A fragment that BufAdd takes inverts RCV_BIT and is acknowledged; the ACK is clean when it completes the message or
CFG_PROB = 0 (R313, R343). -/
theorem newFragment_of_clean_ack (hadd : bufferFragment h s = .done { s with rcv := rc })
    (hclean : bufComplete rc = true ∨ s.cfg.prob = 0) : newFragment k h s = .done (deliver
      { s with
        rcv := { rc with bit := !rc.bit }
        env := { s.env with tx := s.env.tx ++ [buildReply s k h h.n] } }) := by
  have hclean : (!bufComplete { rc with bit := !rc.bit }) = false ∨ s.cfg.prob = 0 :=
    hclean.imp_left fun hfull => congrArg not hfull
  rw [newFragment, hadd, Flow.andThen_done]
  dsimp only
  rw [sendReply_of_clean (s := { s with rcv := { rc with bit := !rc.bit } }) _ hclean]
  rfl

/-- A fragment that leaves the message incomplete (R313, R343, R250). -/
theorem settle_newFragment_of_incomplete (hadd : bufferFragment h s = .done { s with rcv := rc })
    (hprob : s.cfg.prob = 0) (hcount : rc.total ≠ some rc.buf.length) : (newFragment k h s).settle = .next
      { s with
        rcv := { rc with bit := !rc.bit }
        env := { s.env with tx := s.env.tx ++ [buildReply s k h h.n] } } := by
  rw [newFragment_of_clean_ack hadd (.inr hprob), deliver_of_incomplete hcount, Flow.settle_done]

/-- A fragment with which the message is complete; its ACK is clean whatever CFG_PROB is (R313, R343, R250). -/
theorem settle_newFragment_of_complete (hadd : bufferFragment h s = .done { s with rcv := rc })
    (hcount : rc.total = some rc.buf.length) : (newFragment k h s).settle = .next
      { s with
        rcv := { rc with bit := !rc.bit }
        env := { s.env with tx := s.env.tx ++ [buildReply s k h h.n] }
        res := { s.res with r := reassemble rc }
        status := { s.status with rcvState := .idle, op := .none, err := .ok }
        errInfo := 0 } := by
  have hfull : bufComplete rc = true := by rw [bufComplete_of_total hcount, decide_eq_true rfl]
  rw [newFragment_of_clean_ack hadd (.inl hfull), deliver_of_complete hcount, Flow.settle_done]
  rfl

end

end Sys2Proof.Machine

open Sys2Proof Sys2Proof.Machine

/-- Settles O55: the packet goes to the rule of a new fragment, which BufAdd takes; whether it completes the message decides
on the noise stage and on Deliver. -/
theorem receiverTakesANewFragment : Obligations.ReceiverTakesANewFragment := by
  intro p h s hop hwait hver hparse hfin hreply hc hn h1 h2 htotal hlen hnew fl ack rcv
  obtain ⟨hv10, hv20⟩ := ne_v10_and_ne_v20 hver
  have hfmt : s.cfg.ver.format = .cN := format_eq_cN hv10 hv20
  have hack : ack = buildReply s (ackReply s.cfg.ver) h h.n := (buildReply_ackReply h h.n hfmt).symm
  have hexec : exec (.rx p) s = (newFragment (ackReply s.cfg.ver) h s).settle := by
    rw [exec_rx_of_receiving hop hwait (hfmt.symm ▸ hparse) hfin (staleReply_eq_false hv20 hreply),
      receiverRule_of_new hv10 hv20 hc hn]
  have hadd := bufferFragment_new h1 h2 (parse_total_le hparse) htotal hlen hnew
  have hlength := bufInsert_length (pay := h.pay) hnew
  rw [hexec, hack]
  refine ⟨fun hcount hprob => ?_, fun hcount => ?_⟩
  · exact settle_newFragment_of_incomplete hadd hprob fun e => hcount (hlength.symm.trans (Option.some.inj e).symm)
  · exact settle_newFragment_of_complete hadd (congrArg some (hlength.trans hcount).symm)

/-- Settles O56: a stale reply is dropped, a corrupt packet and one of the other bit are answered alone, and a fragment
already there is acknowledged as a new one with the buffer as it was. -/
theorem receiverAnswersCorruptAndDuplicatePackets : Obligations.ReceiverAnswersCorruptAndDuplicatePackets := by
  intro p h s hop hwait hver hparse hfin hprob isReply fl ack nak answers
  obtain ⟨hv10, hv20⟩ := ne_v10_and_ne_v20 hver
  have hfmt : s.cfg.ver.format = .cN := format_eq_cN hv10 hv20
  have hack (n : Bool) : ack n = buildReply s (ackReply s.cfg.ver) h n := (buildReply_ackReply h n hfmt).symm
  have hnak : nak = buildReply s .textNak h s.rcv.bit := (buildReply_textNak h s.rcv.bit hfmt).symm
  have hstale : staleReply s.cfg.ver h.fl = true ↔ isReply := staleReply_iff_of_ne_v20 h.fl hv20
  have hexec (hnot : ¬ isReply) : exec (.rx p) s = (receiverRule s.cfg.ver h s).settle :=
    exec_rx_of_receiving hop hwait (hfmt.symm ▸ hparse) hfin (Bool.eq_false_of_not_eq_true (mt hstale.mp hnot))
  have hanswers {q : ByteStr} (hnot : ¬ isReply) (hrule : receiverRule s.cfg.ver h s = sendReply q true s) :
      answers q := by
    change exec (.rx p) s = _
    rw [hexec hnot, hrule, sendReply_of_clean q (.inr hprob)]
    rfl
  simp only [hack, hnak]
  refine ⟨fun hreplies => ?_, fun hnot hc hv => ?_, fun hnot hc hv => ?_, fun hnot hc hn => ?_,
    fun hnot hc hn h1 h2 htotal hlen hdup => ?_⟩
  · exact exec_rx_of_stale hop hwait (hfmt.symm ▸ hparse) hfin (hstale.mpr hreplies)
  · exact hanswers hnot (by rw [receiverRule_of_corrupt hv10 hv20 hc, if_neg hv])
  · exact hanswers hnot (by rw [receiverRule_of_corrupt hv10 hv20 hc, if_pos hv, ackReply, if_pos hv])
  · exact hanswers hnot (receiverRule_of_duplicate hv10 hv20 hc hn)
  · have hadd := bufferFragment_dup h1 h2 (parse_total_le hparse) htotal hlen hdup
    rw [hexec hnot, receiverRule_of_new hv10 hv20 hc hn]
    exact ⟨settle_newFragment_of_incomplete hadd hprob, settle_newFragment_of_complete hadd⟩

end

section
/-! PROOFS. What a datapath command leaves alone: each ends over the state it starts from, or one that differs in the draw
source or in the reassembly buffer alone, and writes the results and the report there (R402, R403, R208, R209, R66). -/

namespace Sys2Proof.Machine

/-- A command's outcome once its draws and its writes to the receiver have led to `u`: it completes with results, or reports
an error and writes none (R402, R403). -/
def EndsOver (u : State) (o : Host.Outcome State Fault Refusal) : Prop :=
  (∃ res, o = completed { u with res := res }) ∨ ∃ e, o = raised e u

theorem EndsOver.exists_next {u : State} {o : Host.Outcome State Fault Refusal} (h : EndsOver u o) : ∃ t, o = .next t := by
  obtain ⟨res, rfl⟩ | ⟨e, rfl⟩ := h <;> exact ⟨_, rfl⟩

/-- A choice between two ends. -/
theorem EndsOver.branch {u : State} {c : Prop} [Decidable c] {a b : Host.Outcome State Fault Refusal}
    (ha : EndsOver u a) (hb : EndsOver u b) : EndsOver u (if c then a else b) := by
  split
  · exact ha
  · exact hb

theorem endsOver_completed (u : State) (res : ResultPorts) : EndsOver u (completed { u with res := res }) :=
  .inl ⟨res, rfl⟩

theorem endsOver_raised (e : Raise) (u : State) : EndsOver u (raised e u) := .inr ⟨e, rfl⟩

/-- `s` after draws and a write of RCV_BUF and RCV_TOTAL. -/
def State.withDrawsAndBuffer (d : DrawSource) (buf : List (Nat × ByteStr)) (total : Option Nat) (s : State) : State :=
  { s with rcv := { s.rcv with buf := buf, total := total }, env := { s.env with draws := d } }

/-- A datapath command ends over its own state, but the injector's commands may have drawn, and RBCLR and RBADD may have
written RCV_BUF and RCV_TOTAL (R185 to R187, R208, R209). -/
def DatapathOutcome (i : Instr) (s : State) : Prop :=
  ∃ d buf total, EndsOver (s.withDrawsAndBuffer d buf total) (exec i s) ∧
    (i ≠ .injflip → i ≠ .injburst → i ≠ .injpkt → d = s.env.draws) ∧
    (i ≠ .rbclr → i ≠ .rbadd → buf = s.rcv.buf ∧ total = s.rcv.total)

section
variable {s t : State} {i : Instr}

theorem EndsOver.issue {u : State} {body : State → Host.Outcome State Fault Refusal} (hbusy : s.busy = false)
    (h : EndsOver u (body s)) : EndsOver u (issue s body) := by
  rwa [issue_of_not_busy body hbusy]

/-- What a command that ends over `u` leaves of it: all but the results, ERR, ERR_INFO and FAULT_SEEN. -/
theorem EndsOver.next {u : State} {o : Host.Outcome State Fault Refusal} (h : EndsOver u o) (ht : o = .next t) :
    ∃ res err seen info, t =
      { u with res := res, status := { u.status with err := err, faultSeen := seen }, errInfo := info } := by
  obtain ⟨res, rfl⟩ | ⟨e, rfl⟩ := h <;> cases ht
  · exact ⟨res, .ok, u.status.faultSeen, 0, rfl⟩
  · exact ⟨u.res, e.code, true, e.info, rfl⟩

theorem DatapathOutcome.of_endsOver (h : EndsOver s (exec i s)) : DatapathOutcome i s :=
  ⟨s.env.draws, s.rcv.buf, s.rcv.total, h, fun _ _ _ => rfl, fun _ _ => ⟨rfl, rfl⟩⟩

theorem DatapathOutcome.of_draws (hi : i = .injflip ∨ i = .injburst ∨ i = .injpkt) (d : DrawSource)
    (h : EndsOver (s.setDraws d) (exec i s)) : DatapathOutcome i s :=
  ⟨d, s.rcv.buf, s.rcv.total, h, fun h1 h2 h3 => absurd hi (by simp [h1, h2, h3]), fun _ _ => ⟨rfl, rfl⟩⟩

theorem DatapathOutcome.exists_next (h : DatapathOutcome i s) : ∃ t, exec i s = .next t := by
  obtain ⟨_, _, _, hends, -⟩ := h
  exact hends.exists_next

theorem execInjflip_endsOver (hbusy : s.busy = false) : ∃ d, EndsOver (s.setDraws d) (execInjflip s) := by
  obtain ⟨-, e⟩ | ⟨-, d, r, e, -⟩ := flipN_cases s.env.draws s.ports.a s.ports.arg0.toNat
  · exact ⟨_, .issue hbusy (by rw [e]; exact endsOver_raised ..)⟩
  · exact ⟨d, .issue hbusy (by rw [e]; exact endsOver_completed ..)⟩

theorem execInjpkt_endsOver (hbusy : s.busy = false) : ∃ d, EndsOver (s.setDraws d) (execInjpkt s) := by
  by_cases hprob : s.ports.arg1.toNat > 10000
  · exact ⟨s.env.draws, .issue hbusy (by rw [if_pos hprob]; exact endsOver_raised ..)⟩
  · obtain ⟨d, q, c, e, -⟩ | ⟨d, e, -⟩ := corruptPacket_cases s.params.burstMode s.env.draws s.ports.a
      s.ports.arg0.toNat s.ports.arg1.toNat s.ports.arg2.toNat
    · exact ⟨d, .issue hbusy (by rw [if_neg hprob, e]; exact endsOver_completed ..)⟩
    · exact ⟨d, .issue hbusy (by rw [if_neg hprob, e]; exact endsOver_raised ..)⟩

theorem execHdrenc_endsOver (f : Format) (hbusy : s.busy = false) : EndsOver s (execHdrenc f s) := by
  refine .issue hbusy ?_
  cases hdrencCheck f s.ports with
  | some c => exact endsOver_raised ..
  | none => exact .branch (endsOver_raised ..) (endsOver_completed ..)

theorem execHdrdec_endsOver (f : Format) (hbusy : s.busy = false) : EndsOver s (execHdrdec f s) := by
  refine .issue hbusy ?_
  cases parse f s.ports.a with
  | error c => exact endsOver_raised ..
  | ok h => exact endsOver_completed ..

/-- BufAdd leaves RCV_BIT alone (R206). -/
theorem bufAdd_keeps_bit {len n m : Nat} {pay : ByteStr} {rc rc' : ReceiverRegs} {r : BufResult}
    (h : bufAdd len rc n m pay = .ok (rc', r)) : ∃ buf total, rc' = { rc with buf := buf, total := total } := by
  obtain ⟨c, -, e⟩ | ⟨-, e⟩ | ⟨-, -, -, -, -, -, e⟩ := bufAdd_cases len rc n m pay <;> rw [e] at h <;> cases h
  · exact ⟨rc.buf, rc.total, rfl⟩
  · exact ⟨_, _, rfl⟩

theorem execRbadd_endsOver (hbusy : s.busy = false) :
    ∃ buf total, EndsOver (s.withDrawsAndBuffer s.env.draws buf total) (execRbadd s) := by
  cases hadd : bufAdd s.packetDataLen s.rcv s.ports.arg0.toNat s.ports.arg1.toNat s.ports.a with
  | error e => exact ⟨s.rcv.buf, s.rcv.total, .issue hbusy (by rw [hadd]; exact endsOver_raised ..)⟩
  | ok r =>
    obtain ⟨rc, res⟩ := r
    obtain ⟨buf, total, rfl⟩ := bufAdd_keeps_bit hadd
    exact ⟨buf, total, .issue hbusy (by rw [hadd]; exact endsOver_completed ..)⟩

/-- Every datapath command that is executed ends, and over what its kind allows. -/
theorem exec_datapath_outcome (hi : i.isDatapath = true) (hbusy : s.busy = false) : DatapathOutcome i s := by
  cases i with
  | b2bits | ckgen | pargen =>
    refine .of_endsOver ?_
    unfold exec
    refine .issue hbusy ?_
    exact endsOver_completed ..
  | bits2b | ckver | parver | frag =>
    refine .of_endsOver ?_
    unfold exec
    refine .issue hbusy ?_
    exact .branch (endsOver_raised ..) (endsOver_completed ..)
  | hdrenc f => exact .of_endsOver (execHdrenc_endsOver f hbusy)
  | hdrdec f => exact .of_endsOver (execHdrdec_endsOver f hbusy)
  | injflip =>
    obtain ⟨d, h⟩ := execInjflip_endsOver hbusy
    exact .of_draws (.inl rfl) d h
  | injburst =>
    refine .of_draws (.inr (.inl rfl)) (burst s.params.burstMode s.env.draws s.ports.a s.ports.arg0.toNat).1 ?_
    unfold exec
    refine .issue hbusy ?_
    exact endsOver_completed ..
  | injpkt =>
    obtain ⟨d, h⟩ := execInjpkt_endsOver hbusy
    exact .of_draws (.inr (.inr rfl)) d h
  | rbclr =>
    refine ⟨s.env.draws, [], none, ?_, fun _ _ _ => rfl, fun h => absurd rfl h⟩
    unfold exec
    refine .issue hbusy ?_
    exact endsOver_completed ..
  | rbadd =>
    obtain ⟨buf, total, h⟩ := execRbadd_endsOver hbusy
    exact ⟨s.env.draws, buf, total, h, fun _ _ _ => rfl, fun _ h => absurd rfl h⟩
  | _ => cases hi

/-- Every datapath command is written to CMD (R82). -/
theorem isCommand_of_isDatapath (hi : i.isDatapath = true) : i.isCommand = true := by
  cases i with
  | rx p | timeout | chanClose | reset => cases hi
  | _ => rfl

end

end Sys2Proof.Machine

open Sys2Proof Sys2Proof.Machine

/-- Settles O17: an overrun writes the sticky bits alone, and a command that is executed ends over a state that differs in
what its kind allows. -/
theorem datapathCommandsLeaveTheSession : Obligations.DatapathCommandsLeaveTheSession := by
  intro i s t hi h
  cases hbusy : s.busy with
  | true =>
    rw [exec_of_busy (isCommand_of_isDatapath hi) hbusy] at h
    cases h
    exact ⟨rfl, rfl, rfl, rfl, rfl, rfl, rfl, rfl, rfl, rfl, rfl, fun _ _ => rfl, fun _ _ _ => rfl⟩
  | false =>
    obtain ⟨d, buf, total, hends, hdraws, hbuf⟩ := exec_datapath_outcome hi hbusy
    obtain ⟨res, err, seen, info, rfl⟩ := hends.next h
    refine ⟨rfl, rfl, rfl, rfl, rfl, rfl, rfl, rfl, rfl, rfl, rfl, fun h1 h2 => ?_, hdraws⟩
    obtain ⟨rfl, rfl⟩ := hbuf h1 h2
    rfl

end

section
/-! PROOFS. No step stops: a command reports or completes, and no rule of a blocking operation meets a state without a
packet or a rule while the invariant holds (R400, R81, R254, R262). -/

namespace Sys2Proof.Machine

/-! ## The rules of a blocking operation -/

/-- A rule that runs to its end or raises. -/
def Flow.Runs (r : Flow) : Prop := ∀ f, r ≠ .stuck f

theorem Flow.runs_done (s : State) : (Flow.done s).Runs := nofun

theorem Flow.runs_raise (e : Raise) (s : State) : (Flow.raise e s).Runs := nofun

theorem Flow.Runs.andThen {r : Flow} {k : State → Flow} (hr : r.Runs) (hk : ∀ t, (k t).Runs) : (r.andThen k).Runs := by
  cases r with
  | done t => exact hk t
  | raise e t => exact Flow.runs_raise e t
  | stuck f => exact absurd rfl (hr f)

theorem Flow.Runs.settle {r : Flow} (hr : r.Runs) : ∃ t, r.settle = .next t := by
  cases r with
  | done t => exact ⟨t, rfl⟩
  | raise e t => exact ⟨t.raiseFatal e, rfl⟩
  | stuck f => exact absurd rfl (hr f)

section
variable {s : State}

/-- A first transmission has a packet where there is a fragment (R244). -/
theorem transmitFragment_runs {i : Nat} (hi : i < s.snd.frags.length) : (transmitFragment i s).Runs := by
  obtain ⟨hnone, -⟩ | ⟨p, -, ⟨d, q, -, e⟩ | ⟨-, d, e⟩⟩ := transmitFragment_cases i s
  · exact absurd ((buildData_of_lt hi).symm.trans hnone) nofun
  · exact e ▸ Flow.runs_done _
  · exact e ▸ Flow.runs_raise _ _

/-- A retransmission has a packet where LAST_PKT is set (R248). -/
theorem retransmit_runs {p : ByteStr} (why : Why) (hlast : s.snd.lastPkt = some p) : (retransmit why s).Runs := by
  obtain ⟨-, -, e⟩ | ⟨-, ⟨hnone, -⟩ | ⟨p, -, ⟨d, q, -, e⟩ | ⟨-, d, e⟩⟩⟩ := retransmit_cases why s
  · exact e ▸ Flow.runs_raise _ _
  · exact absurd (hlast.symm.trans hnone) nofun
  · exact e ▸ Flow.runs_done _
  · exact e ▸ Flow.runs_raise _ _

/-- Advance from a fragment of the message ends the SEND or finds the next one (R249). -/
theorem advance_runs (htotal : s.snd.total = s.snd.frags.length) (hidx : s.snd.idx < s.snd.total) : (advance s).Runs := by
  obtain ⟨-, e⟩ | ⟨hmore, e⟩ := advance_cases s <;> rw [e]
  · exact Flow.runs_done _
  · refine transmitFragment_runs (s := { s with
      status := { s.status with sndState := .idle }, snd := { s.snd with idx := s.snd.idx + 1 } }) ?_
    dsimp only
    omega

theorem sendReply_runs (p : ByteStr) (inj : Bool) (s : State) : (sendReply p inj s).Runs := by
  obtain ⟨d, q, -, e⟩ | ⟨-, -, d, e⟩ := sendReply_cases p inj s
  · exact e ▸ Flow.runs_done _
  · exact e ▸ Flow.runs_raise _ _

theorem bufferFragment_runs (h : Hdr) (s : State) : (bufferFragment h s).Runs := by
  obtain ⟨c, -, e⟩ | ⟨-, e⟩ | ⟨-, -, -, -, -, -, e⟩ := bufferFragment_cases h s
  · exact e ▸ Flow.runs_raise _ _
  · exact e ▸ Flow.runs_done _
  · exact e ▸ Flow.runs_done _

theorem rxRule_send_runs (p : ByteStr) (hregs : RegsInv s) (hwaits : WaitInv s) (hop : s.status.op = .send) :
    (rxRule p s).Runs := by
  obtain ⟨-, -, hver, pay, -, hlast⟩ := hwaits.sending hop
  obtain ⟨hv10, -⟩ | ⟨c, -, e⟩ | e | ⟨why, e⟩ | ⟨b, e⟩ := rxRule_send_cases p hop
  · exact absurd hv10 hver
  · exact e ▸ Flow.runs_raise _ _
  · exact e ▸ Flow.runs_raise _ _
  · exact e ▸ retransmit_runs why hlast
  · exact e ▸ advance_runs hregs.total.1 (hwaits.idx_lt_total hregs hop)

theorem rxRule_recv_runs (p : ByteStr) (hop : s.status.op = .recv) : (rxRule p s).Runs := by
  obtain ⟨c, -, e⟩ | e | e | ⟨q, inj, e⟩ | ⟨h, e⟩ | ⟨h, e⟩ | ⟨k, h, e⟩ := rxRule_recv_cases p hop <;> rw [e]
  · exact Flow.runs_raise _ _
  · exact Flow.runs_raise _ _
  · exact Flow.runs_done _
  · exact sendReply_runs q inj s
  · exact (bufferFragment_runs h s).andThen fun _ => Flow.runs_done _
  · exact (bufferFragment_runs h s).andThen fun t => (sendReply_runs _ _ t).andThen fun _ => Flow.runs_done _
  · exact (bufferFragment_runs h s).andThen fun t => (sendReply_runs _ _ _).andThen fun _ => Flow.runs_done _

theorem rxRule_runs (p : ByteStr) (hregs : RegsInv s) (hwaits : WaitInv s) : (rxRule p s).Runs := by
  cases hop : s.status.op with
  | none => rw [rxRule, hop]; exact Flow.runs_done s
  | send => exact rxRule_send_runs p hregs hwaits hop
  | recv => exact rxRule_recv_runs p hop

theorem timeoutRule_runs (hwaits : WaitInv s) : (timeoutRule s).Runs := by
  unfold timeoutRule
  cases hop : s.status.op with
  | send =>
    obtain ⟨-, -, -, pay, -, hlast⟩ := hwaits.sending hop
    exact retransmit_runs .timeout hlast
  | recv | none => exact Flow.runs_done s

/-- SEND transmits a first fragment only where the message has one (R241). -/
theorem sendMessage_runs (s : State) : (sendMessage s).Runs := by
  unfold sendMessage
  dsimp only
  split_ifs with hmany hempty
  · exact Flow.runs_raise _ s
  · exact Flow.runs_done _
  · exact Flow.runs_done _
  · exact transmitFragment_runs (Nat.pos_of_ne_zero hempty)

end

/-! ## The instructions and the step -/

section
variable {s : State}

theorem inSession_exists_next {body : State → Host.Outcome State Fault Refusal} (h : ∃ t, body s = .next t) :
    ∃ t, inSession s body = .next t := by
  unfold inSession
  cases s.status.sess with
  | none | ended => exact ⟨_, rfl⟩
  | opened => exact h

theorem exec_command_exists_next {i : Instr} (hi : i.isCommand = true) (hbusy : s.busy = false) :
    ∃ t, exec i s = .next t := by
  have hidle := s.busy_eq_false.mp hbusy
  cases i with
  | rx p | timeout | chanClose | reset => cases hi
  | openSession v =>
    rw [exec_openSession v hidle]
    split_ifs <;> exact ⟨_, rfl⟩
  | illegal w => exact ⟨_, issue_of_not_busy _ hbusy⟩
  | send =>
    rw [exec_send hidle]
    exact inSession_exists_next (sendMessage_runs s).settle
  | recv =>
    rw [exec_recv hidle]
    exact inSession_exists_next ⟨_, rfl⟩
  | finish =>
    rw [exec_finish hidle]
    exact inSession_exists_next ⟨_, rfl⟩
  | _ => exact DatapathOutcome.exists_next (exec_datapath_outcome rfl hbusy)

theorem exec_event_exists_next {i : Instr} (hi : i.isCommand = false) (hs : CoreInv s) : ∃ t, exec i s = .next t := by
  cases i with
  | rx p =>
    by_cases hwait : s.waiting = true
    · rw [exec_rx_of_waiting p hwait]
      exact (rxRule_runs p hs.regs hs.waits).settle
    · exact ⟨_, if_neg hwait⟩
  | timeout =>
    by_cases hwait : s.timedWait = true
    · rw [exec_timeout_of_timedWait hwait]
      exact (timeoutRule_runs hs.waits).settle
    · exact ⟨_, if_neg hwait⟩
  | chanClose =>
    change ∃ t, execChanClose s = .next t
    unfold execChanClose
    split_ifs <;> exact ⟨_, rfl⟩
  | reset => exact ⟨_, rfl⟩
  | _ => cases hi

/-- Every instruction has an effect under the invariant (R400). -/
theorem exec_exists_next (i : Instr) (hs : CoreInv s) : ∃ t, exec i s = .next t := by
  cases hi : i.isCommand with
  | false => exact exec_event_exists_next hi hs
  | true =>
    cases hbusy : s.busy with
    | true => exact ⟨_, exec_of_busy hi hbusy⟩
    | false => exact exec_command_exists_next hi hbusy

end

end Sys2Proof.Machine

open Sys2Proof Sys2Proof.Machine

/-- Settles O10: a step idles, takes a port write, or runs an instruction on a state that differs in CMD and the environment
alone, which keeps the invariant. -/
theorem noStepStopsUnderInv : Obligations.NoStepStopsUnderInv := by
  intro s hs
  unfold step fetch
  cases htake : takeEnabled s s.env.pending with
  | none => exact ⟨s, rfl⟩
  | some taken =>
    obtain ⟨inp, rest⟩ := taken
    dsimp only
    cases hacc : accept inp (s.setPending rest) with
    | idle => exact ⟨s, rfl⟩
    | portWritten t => exact ⟨t, rfl⟩
    | run i u =>
      obtain ⟨-, c, rfl⟩ := accept_run (inputEnabled_of_takeEnabled htake) rest hacc
      exact exec_exists_next i (hs.write_cmd c rest)

end

section
/-! PROOFS. A step that ends with an error in ERR has written no result port: a rule writes R only in Deliver, which
completes with OK, and a datapath command that raises writes no result (R402, R403, R250). -/

namespace Sys2Proof.Machine

/-- A step that writes a result port only if it leaves ERR at OK. -/
def KeepsResultsOnError (s t : State) : Prop := t.status.err ≠ .ok → t.res = s.res

theorem KeepsResultsOnError.of_ok {s t : State} (h : t.status.err = .ok) : KeepsResultsOnError s t :=
  fun herr => absurd h herr

theorem KeepsResultsOnError.of_res_eq {s t : State} (h : t.res = s.res) : KeepsResultsOnError s t := fun _ => h

/-- Where no port may be written the results are the same (R23). -/
theorem WritesOnly.eq_of_nil {a b : ResultPorts} (h : WritesOnly [] a b) : b = a := by
  cases a; cases b
  simpa [WritesOnly] using h

theorem StepFrame.res_eq {s t : State} (h : StepFrame [] s t) : t.res = s.res := h.results.eq_of_nil

/-! ## The rules of a receiver -/

/-- A rule that writes no result port before a raise, and one before its end only if it leaves ERR at OK. -/
def Flow.KeepsResultsOnError (s : State) (r : Flow) : Prop :=
  r.Ends (Machine.KeepsResultsOnError s) fun _ t => t.res = s.res

theorem Flow.KeepsResultsOnError.settle {s t : State} {r : Flow} (hr : r.KeepsResultsOnError s)
    (h : r.settle = .next t) : Machine.KeepsResultsOnError s t := by
  obtain rfl | ⟨e, u, rfl, rfl⟩ := Flow.settle_eq_next h
  · exact hr
  · exact .of_res_eq ((State.raiseFatal_res u e).trans hr)

/-- A rule that may write no result port writes none, whether it runs to its end or raises. -/
theorem Flow.Framed.res_eq {s : State} {r : Flow} (hr : r.Framed [] s) :
    r.Ends (fun t => t.res = s.res) fun _ t => t.res = s.res := by
  cases r with
  | done t => exact (RuleFrame.results hr).eq_of_nil
  | raise e t => exact (RuleFrame.results hr.2).eq_of_nil
  | stuck f => trivial

theorem Flow.Framed.keepsResultsOnError {s : State} {r : Flow} (hr : r.Framed [] s) : r.KeepsResultsOnError s := by
  cases r with
  | done t => exact .of_res_eq hr.res_eq
  | raise e t => exact hr.res_eq
  | stuck f => trivial

/-- What a rule writes before another rule, other than to the result ports, does not matter. -/
theorem Flow.KeepsResultsOnError.trans {s t : State} {r : Flow} (hst : t.res = s.res)
    (hr : r.KeepsResultsOnError t) : r.KeepsResultsOnError s := by
  cases r with
  | done u => exact fun herr => (hr herr).trans hst
  | raise e u => exact Eq.trans hr hst
  | stuck f => trivial

/-- A rule that may write no result port, and then another. -/
theorem Flow.Framed.andThen_keepsResultsOnError {s : State} {r : Flow} {k : State → Flow} (hr : r.Framed [] s)
    (hk : ∀ t, (k t).KeepsResultsOnError t) : (r.andThen k).KeepsResultsOnError s :=
  Flow.Ends.andThen hr.res_eq fun t ht => Flow.KeepsResultsOnError.trans ht (hk t)

section
variable {s t : State}

theorem deliver_keepsResultsOnError (s : State) : (Flow.done (deliver s)).KeepsResultsOnError s := by
  obtain ⟨-, e⟩ | ⟨-, e⟩ := deliver_cases s <;> rw [e]
  · exact .of_ok rfl
  · exact .of_res_eq rfl

theorem newFragment_keepsResultsOnError (k : Reply) (h : Hdr) (s : State) : (newFragment k h s).KeepsResultsOnError s :=
  (bufferFragment_framed [] s h).andThen_keepsResultsOnError fun t =>
    (sendReply_framed [] { t with rcv := { t.rcv with bit := !t.rcv.bit } } _ _).andThen_keepsResultsOnError
      deliver_keepsResultsOnError

theorem rxRule_recv_keepsResultsOnError (p : ByteStr) (hop : s.status.op = .recv) :
    (rxRule p s).KeepsResultsOnError s := by
  obtain ⟨c, -, e⟩ | e | e | ⟨q, inj, e⟩ | ⟨h, e⟩ | ⟨h, e⟩ | ⟨k, h, e⟩ := rxRule_recv_cases p hop <;> rw [e]
  · exact (rfl : s.res = s.res)
  · exact (rfl : s.res = s.res)
  · exact .of_res_eq rfl
  · exact (sendReply_framed [] s q inj).keepsResultsOnError
  · exact (bufferFragment_framed [] s h).andThen_keepsResultsOnError deliver_keepsResultsOnError
  · exact (bufferFragment_framed [] s h).andThen_keepsResultsOnError fun t =>
      (sendReply_framed [] t _ _).andThen_keepsResultsOnError deliver_keepsResultsOnError
  · exact newFragment_keepsResultsOnError k h s

theorem rxRule_keepsResultsOnError (p : ByteStr) (s : State) : (rxRule p s).KeepsResultsOnError s := by
  cases hop : s.status.op with
  | none => rw [rxRule, hop]; exact .of_res_eq rfl
  | send => exact (rxRule_send_framed [] p hop).keepsResultsOnError
  | recv => exact rxRule_recv_keepsResultsOnError p hop

/-! ## The instructions -/

/-- A datapath command that raises writes no result (R402). -/
theorem DatapathEnds.keepsResultsOnError {i : Instr} (h : DatapathEnds i s t) : KeepsResultsOnError s t := by
  obtain ⟨e, d, -, rfl⟩ | ⟨d, rc, res, -, rfl⟩ := h
  · exact .of_res_eq rfl
  · exact .of_ok rfl

theorem exec_command_keepsResultsOnError {i : Instr} (hi : i.isCommand = true) (hbusy : s.busy = false)
    (h : exec i s = .next t) : KeepsResultsOnError s t := by
  cases i with
  | rx p | timeout | chanClose | reset => cases hi
  | openSession v =>
    obtain ⟨e, -, rfl⟩ | ⟨-, rfl⟩ := execOpen_cases hbusy h
    · exact .of_res_eq rfl
    · exact .of_ok rfl
  | illegal w =>
    obtain rfl := execIllegal_eq hbusy h
    exact .of_res_eq rfl
  | send => exact .of_res_eq (execSend_frame [] hbusy h).res_eq
  | recv => exact .of_res_eq (execRecv_frame [] hbusy h).res_eq
  | finish => exact .of_res_eq (execFinish_frame [] hbusy h).res_eq
  | _ => exact (exec_datapath_ends rfl hbusy h).keepsResultsOnError

theorem exec_event_keepsResultsOnError {i : Instr} (hi : i.isCommand = false) (h : exec i s = .next t) :
    KeepsResultsOnError s t := by
  cases i with
  | rx p =>
    obtain ⟨-, h⟩ | ⟨-, rfl⟩ := execRx_cases h
    · exact (rxRule_keepsResultsOnError p s).settle h
    · exact .of_res_eq rfl
  | timeout => exact .of_res_eq (execTimeout_frame [] h).res_eq
  | chanClose => exact .of_res_eq (execChanClose_frame [] h).res_eq
  | reset => cases h; exact .of_ok rfl
  | _ => cases hi

end

end Sys2Proof.Machine

open Sys2Proof Sys2Proof.Machine

/-- Settles O15: an overrun writes no result, and neither does an instruction that ends with an error. -/
theorem errorsLeaveResultPorts : Obligations.ErrorsLeaveResultPorts := by
  intro i s t h
  have key : KeepsResultsOnError s t := by
    cases hi : i.isCommand with
    | false => exact exec_event_keepsResultsOnError hi h
    | true =>
      cases hbusy : s.busy with
      | false => exact exec_command_keepsResultsOnError hi hbusy h
      | true =>
        rw [exec_of_busy hi hbusy] at h
        cases h
        exact .of_res_eq rfl
  exact key

end

section
/-! PROOFS. How many packets a rule emits: a transmission, a retransmission and a reply one at most, the rest of a rule none
(R462, R247, R248, R251). -/

namespace Sys2Proof.Machine

/-- `t` is reached from `s` with at most `n` emissions. -/
def EmitsAtMost (n : Nat) (s t : State) : Prop := ∃ out : List ByteStr, t.env.tx = s.env.tx ++ out ∧ out.length ≤ n

theorem EmitsAtMost.of_tx_eq {s t : State} (n : Nat) (h : t.env.tx = s.env.tx) : EmitsAtMost n s t :=
  ⟨[], by rw [h, List.append_nil], Nat.zero_le n⟩

theorem EmitsAtMost.of_emission {s t : State} (q : ByteStr) (h : t.env.tx = s.env.tx ++ [q]) : EmitsAtMost 1 s t :=
  ⟨[q], h, le_rfl⟩

theorem EmitsAtMost.mono {m n : Nat} {s t : State} (h : EmitsAtMost m s t) (hle : m ≤ n) : EmitsAtMost n s t := by
  obtain ⟨out, htx, hlen⟩ := h
  exact ⟨out, htx, hlen.trans hle⟩

theorem EmitsAtMost.trans {m n : Nat} {s t u : State} (hst : EmitsAtMost m s t) (htu : EmitsAtMost n t u) :
    EmitsAtMost (m + n) s u := by
  obtain ⟨out, htx, hlen⟩ := hst
  obtain ⟨out', htx', hlen'⟩ := htu
  refine ⟨out ++ out', by rw [htx', htx, List.append_assoc], ?_⟩
  rw [List.length_append]
  omega

/-! ## The rules of a blocking operation -/

/-- A rule with at most `n` emissions, whether it runs to its end or raises. -/
def Flow.EmitsAtMost (n : Nat) (s : State) (r : Flow) : Prop :=
  r.Ends (Machine.EmitsAtMost n s) fun _ => Machine.EmitsAtMost n s

theorem Flow.EmitsAtMost.mono {m n : Nat} {s : State} {r : Flow} (hr : r.EmitsAtMost m s) (hle : m ≤ n) :
    r.EmitsAtMost n s := by
  cases r with
  | done t | raise e t => exact Machine.EmitsAtMost.mono hr hle
  | stuck f => trivial

/-- The emissions of two rules one after the other add up. -/
theorem Flow.EmitsAtMost.andThen {m n : Nat} {s : State} {r : Flow} {k : State → Flow} (hr : r.EmitsAtMost m s)
    (hk : ∀ t, (k t).EmitsAtMost n t) : (r.andThen k).EmitsAtMost (m + n) s := by
  cases r with
  | done t =>
    change (k t).EmitsAtMost (m + n) s
    have hkt := hk t
    cases hu : k t with
    | done u | raise e u => rw [hu] at hkt; exact Machine.EmitsAtMost.trans hr hkt
    | stuck f => trivial
  | raise e t => exact Machine.EmitsAtMost.mono hr (Nat.le_add_right m n)
  | stuck f => trivial

theorem Flow.EmitsAtMost.settle {n : Nat} {s t : State} {r : Flow} (hr : r.EmitsAtMost n s) (h : r.settle = .next t) :
    Machine.EmitsAtMost n s t := by
  obtain rfl | ⟨e, u, rfl, rfl⟩ := Flow.settle_eq_next h
  · exact hr
  · rw [Machine.EmitsAtMost, State.raiseFatal_env]
    exact hr

section
variable (s : State)

theorem retransmit_emitsAtMost_one (why : Why) : (retransmit why s).EmitsAtMost 1 s := by
  obtain ⟨-, -, e⟩ | ⟨-, ⟨-, e⟩ | ⟨p, -, ⟨d, q, -, e⟩ | ⟨-, d, e⟩⟩⟩ := retransmit_cases why s <;> rw [e]
  · exact .of_tx_eq 1 rfl
  · trivial
  · exact .of_emission q rfl
  · exact .of_tx_eq 1 rfl

theorem transmitFragment_emitsAtMost_one (i : Nat) : (transmitFragment i s).EmitsAtMost 1 s := by
  obtain ⟨-, e⟩ | ⟨p, -, ⟨d, q, -, e⟩ | ⟨-, d, e⟩⟩ := transmitFragment_cases i s <;> rw [e]
  · trivial
  · exact .of_emission q rfl
  · exact .of_tx_eq 1 rfl

theorem advance_emitsAtMost_one : (advance s).EmitsAtMost 1 s := by
  obtain ⟨-, e⟩ | ⟨-, e⟩ := advance_cases s <;> rw [e]
  · exact .of_tx_eq 1 rfl
  · exact transmitFragment_emitsAtMost_one
      { s with status := { s.status with sndState := .idle }, snd := { s.snd with idx := s.snd.idx + 1 } } _

theorem sendReply_emitsAtMost_one (p : ByteStr) (inj : Bool) : (sendReply p inj s).EmitsAtMost 1 s := by
  obtain ⟨d, q, -, e⟩ | ⟨-, -, d, e⟩ := sendReply_cases p inj s <;> rw [e]
  · exact .of_emission q rfl
  · exact .of_tx_eq 1 rfl

theorem bufferFragment_emits_none (h : Hdr) : (bufferFragment h s).EmitsAtMost 0 s := by
  obtain ⟨c, -, e⟩ | ⟨-, e⟩ | ⟨-, -, -, -, -, -, e⟩ := bufferFragment_cases h s <;> rw [e] <;> exact .of_tx_eq 0 rfl

theorem deliver_emits_none : (Flow.done (deliver s)).EmitsAtMost 0 s := by
  obtain ⟨-, e⟩ | ⟨-, e⟩ := deliver_cases s <;> rw [e] <;> exact .of_tx_eq 0 rfl

theorem newFragment_emitsAtMost_one (k : Reply) (h : Hdr) : (newFragment k h s).EmitsAtMost 1 s :=
  (bufferFragment_emits_none s h).andThen (n := 1) fun t =>
    (sendReply_emitsAtMost_one { t with rcv := { t.rcv with bit := !t.rcv.bit } } _ _).andThen deliver_emits_none

theorem rxRule_send_emitsAtMost_one (p : ByteStr) (hop : s.status.op = .send) : (rxRule p s).EmitsAtMost 1 s := by
  obtain ⟨-, e⟩ | ⟨c, -, e⟩ | e | ⟨why, e⟩ | ⟨b, e⟩ := rxRule_send_cases p hop <;> rw [e]
  · trivial
  · exact .of_tx_eq 1 rfl
  · exact .of_tx_eq 1 rfl
  · exact retransmit_emitsAtMost_one s why
  · exact advance_emitsAtMost_one { s with snd := { s.snd with bit := b } }

theorem rxRule_recv_emitsAtMost_one (p : ByteStr) (hop : s.status.op = .recv) : (rxRule p s).EmitsAtMost 1 s := by
  obtain ⟨c, -, e⟩ | e | e | ⟨q, inj, e⟩ | ⟨h, e⟩ | ⟨h, e⟩ | ⟨k, h, e⟩ := rxRule_recv_cases p hop <;> rw [e]
  · exact .of_tx_eq 1 rfl
  · exact .of_tx_eq 1 rfl
  · exact .of_tx_eq 1 rfl
  · exact sendReply_emitsAtMost_one s q inj
  · exact ((bufferFragment_emits_none s h).andThen deliver_emits_none).mono (Nat.zero_le 1)
  · exact (bufferFragment_emits_none s h).andThen (n := 1) fun t =>
      (sendReply_emitsAtMost_one t _ _).andThen deliver_emits_none
  · exact newFragment_emitsAtMost_one s k h

theorem rxRule_emitsAtMost_one (p : ByteStr) : (rxRule p s).EmitsAtMost 1 s := by
  cases hop : s.status.op with
  | none => rw [rxRule, hop]; exact .of_tx_eq 1 rfl
  | send => exact rxRule_send_emitsAtMost_one s p hop
  | recv => exact rxRule_recv_emitsAtMost_one s p hop

theorem timeoutRule_emitsAtMost_one : (timeoutRule s).EmitsAtMost 1 s := by
  unfold timeoutRule
  cases s.status.op with
  | send => exact retransmit_emitsAtMost_one s .timeout
  | recv | none => exact .of_tx_eq 1 rfl

end

end Sys2Proof.Machine

open Sys2Proof Sys2Proof.Machine

/-- Settles O19: RX and TIMEOUT emit what their rule emits, the other events nothing. -/
theorem anEventEmitsAtMostOnePacket : Obligations.AnEventEmitsAtMostOnePacket := by
  intro i s t hi h
  have key : EmitsAtMost 1 s t := by
    cases i with
    | rx p =>
      obtain ⟨-, h⟩ | ⟨-, rfl⟩ := execRx_cases h
      · exact (rxRule_emitsAtMost_one s p).settle h
      · exact .of_tx_eq 1 rfl
    | timeout =>
      obtain ⟨-, h⟩ | ⟨-, rfl⟩ := execTimeout_cases h
      · exact (timeoutRule_emitsAtMost_one s).settle h
      · exact .of_tx_eq 1 rfl
    | chanClose => exact .of_tx_eq 1 (execChanClose_tx_eq h)
    | reset => cases h; exact .of_tx_eq 1 rfl
    | _ => cases hi
  exact key

end

section
/-! PROOFS. The operand ports beside an operation in progress: no rule of a wait reads them, so a rule run with other operand
ports ends as it does with these, but for the ports (R456, R22). -/

namespace Sys2Proof.Machine

/-- `s` with the operand ports `q`. -/
def State.withPorts (q : OperandPorts) (s : State) : State := { s with ports := q }

/-- The end of a rule with the operand ports `q`. -/
def Flow.withPorts (q : OperandPorts) : Flow → Flow
  | .done t => .done (t.withPorts q)
  | .raise e t => .raise e (t.withPorts q)
  | .stuck f => .stuck f

section
variable (q : OperandPorts) (s : State)

@[simp] theorem State.withPorts_status : (s.withPorts q).status = s.status := rfl
@[simp] theorem State.withPorts_cfg : (s.withPorts q).cfg = s.cfg := rfl
@[simp] theorem State.withPorts_snd : (s.withPorts q).snd = s.snd := rfl
@[simp] theorem State.withPorts_rcv : (s.withPorts q).rcv = s.rcv := rfl
@[simp] theorem State.withPorts_fmt : (s.withPorts q).fmt = s.fmt := rfl
@[simp] theorem State.withPorts_packetDataLen : (s.withPorts q).packetDataLen = s.packetDataLen := rfl

end

section
variable {q : OperandPorts} {s : State}

theorem State.raiseFatal_withPorts (e : Raise) (s : State) :
    (s.withPorts q).raiseFatal e = (s.raiseFatal e).withPorts q := by
  unfold State.raiseFatal
  rw [State.withPorts_status]
  split <;> rfl

theorem Flow.settle_withPorts {r : Flow} {t : State} (h : r.settle = .next t) :
    (r.withPorts q).settle = .next (t.withPorts q) := by
  obtain rfl | ⟨e, u, rfl, rfl⟩ := Flow.settle_eq_next h
  · rfl
  · exact congrArg Host.Outcome.next (State.raiseFatal_withPorts e u)

theorem Flow.andThen_withPorts {r r' : Flow} {k : State → Flow} (hr : r' = r.withPorts q)
    (hk : ∀ t, k (t.withPorts q) = (k t).withPorts q) : r'.andThen k = (r.andThen k).withPorts q := by
  subst hr
  cases r with
  | done t => exact hk t
  | raise e t | stuck f => rfl

/-- A choice made alike with both ports. -/
theorem Flow.branch_withPorts {c : Prop} {dec dec' : Decidable c} {a a' b b' : Flow} (ha : a' = a.withPorts q)
    (hb : b' = b.withPorts q) : @ite Flow c dec' a' b' = (@ite Flow c dec a b).withPorts q := by
  by_cases hc : c
  · simpa only [if_pos hc] using ha
  · simpa only [if_neg hc] using hb

/-! ## The shared operations -/

theorem emitNoisy_withPorts (p : ByteStr) : emitNoisy p (s.withPorts q) = (emitNoisy p s).withPorts q := by
  unfold emitNoisy
  rw [show noise (s.withPorts q) p = noise s p from rfl]
  obtain ⟨d, r | r⟩ := noise s p <;> rfl

theorem retransmit_withPorts (why : Why) : retransmit why (s.withPorts q) = (retransmit why s).withPorts q := by
  refine Flow.branch_withPorts rfl ?_
  rw [State.withPorts_snd]
  cases s.snd.lastPkt with
  | none => rfl
  | some p => exact emitNoisy_withPorts (s := { s with snd := { s.snd with retryCnt := s.snd.retryCnt + 1 } }) p

theorem transmitFragment_withPorts (i : Nat) :
    transmitFragment i (s.withPorts q) = (transmitFragment i s).withPorts q := by
  unfold transmitFragment
  rw [show buildData (s.withPorts q) i = buildData s i from rfl]
  cases buildData s i with
  | none => rfl
  | some p =>
    exact Flow.andThen_withPorts
      (emitNoisy_withPorts (s := { s with snd := { s.snd with lastPkt := some p, retryCnt := 0 } }) p) fun _ => rfl

theorem advance_withPorts : advance (s.withPorts q) = (advance s).withPorts q :=
  Flow.branch_withPorts rfl (transmitFragment_withPorts
    (s := { s with status := { s.status with sndState := .idle }, snd := { s.snd with idx := s.snd.idx + 1 } }) _)

theorem acceptAck_withPorts : acceptAck (s.withPorts q) = (acceptAck s).withPorts q :=
  advance_withPorts (s := { s with snd := { s.snd with bit := !s.snd.bit } })

theorem sendReply_withPorts (p : ByteStr) (inj : Bool) :
    sendReply p inj (s.withPorts q) = (sendReply p inj s).withPorts q := by
  cases inj with
  | true => exact emitNoisy_withPorts p
  | false => rfl

theorem bufferFragment_withPorts (h : Hdr) : bufferFragment h (s.withPorts q) = (bufferFragment h s).withPorts q := by
  unfold bufferFragment
  rw [State.withPorts_packetDataLen, State.withPorts_rcv]
  cases bufAdd s.packetDataLen s.rcv h.s h.t h.pay <;> rfl

theorem deliver_withPorts (s : State) : Flow.done (deliver (s.withPorts q)) = (Flow.done (deliver s)).withPorts q := by
  unfold deliver
  rw [State.withPorts_rcv]
  split <;> rfl

theorem newFragment_withPorts (k : Reply) (h : Hdr) :
    newFragment k h (s.withPorts q) = (newFragment k h s).withPorts q :=
  Flow.andThen_withPorts (bufferFragment_withPorts h) fun t =>
    Flow.andThen_withPorts (sendReply_withPorts (s := { t with rcv := { t.rcv with bit := !t.rcv.bit } }) _ _)
      deliver_withPorts

/-! ## The rules of a blocking operation -/

theorem senderRule_withPorts (v : Version) (h : Hdr) :
    senderRule v h (s.withPorts q) = (senderRule v h s).withPorts q := by
  have hretransmit (why : Why) : retransmit why (s.withPorts q) = (retransmit why s).withPorts q :=
    retransmit_withPorts why
  cases v with
  | v10 => rfl
  | v20 =>
    exact Flow.branch_withPorts advance_withPorts (Flow.branch_withPorts (hretransmit _) (hretransmit _))
  | v21 | v22 =>
    exact Flow.branch_withPorts (Flow.branch_withPorts (hretransmit _) acceptAck_withPorts)
      (Flow.branch_withPorts (hretransmit _) (hretransmit _))
  | v30 =>
    exact Flow.branch_withPorts (hretransmit _) (Flow.branch_withPorts (hretransmit _)
      (Flow.branch_withPorts (hretransmit _) (Flow.branch_withPorts (hretransmit _) acceptAck_withPorts)))

theorem receiverRule_withPorts (v : Version) (h : Hdr) :
    receiverRule v h (s.withPorts q) = (receiverRule v h s).withPorts q := by
  have hreply (p : ByteStr) (inj : Bool) : sendReply p inj (s.withPorts q) = (sendReply p inj s).withPorts q :=
    sendReply_withPorts p inj
  have hbuffer : bufferFragment h (s.withPorts q) = (bufferFragment h s).withPorts q := bufferFragment_withPorts h
  cases v with
  | v10 => exact Flow.andThen_withPorts hbuffer deliver_withPorts
  | v20 =>
    exact Flow.branch_withPorts (Flow.andThen_withPorts hbuffer fun _ =>
      Flow.andThen_withPorts (sendReply_withPorts _ false) deliver_withPorts) (hreply _ false)
  | v21 | v22 | v30 =>
    exact Flow.branch_withPorts (hreply _ true) (Flow.branch_withPorts (newFragment_withPorts _ h) (hreply _ true))

theorem rxRule_withPorts (p : ByteStr) : rxRule p (s.withPorts q) = (rxRule p s).withPorts q := by
  cases hop : s.status.op with
  | none =>
    rw [rxRule, rxRule, State.withPorts_status, hop]
    rfl
  | send =>
    by_cases hver : s.cfg.ver = .v10
    · rw [rxRule, rxRule, State.withPorts_status, State.withPorts_cfg, hop, hver]
      rfl
    · rw [rxRule_send p hop hver, rxRule_send (s := s.withPorts q) p hop hver, senderRx, senderRx,
        State.withPorts_fmt]
      cases parse s.fmt p with
      | error c => rfl
      | ok h => exact Flow.branch_withPorts rfl (senderRule_withPorts _ h)
  | recv =>
    rw [rxRule_recv p hop, rxRule_recv (s := s.withPorts q) p hop, receiverRx, receiverRx,
      State.withPorts_fmt]
    cases parse s.fmt p with
    | error c => rfl
    | ok h => exact Flow.branch_withPorts rfl (Flow.branch_withPorts rfl (receiverRule_withPorts _ h))

theorem timeoutRule_withPorts : timeoutRule (s.withPorts q) = (timeoutRule s).withPorts q := by
  unfold timeoutRule
  rw [State.withPorts_status]
  cases s.status.op with
  | send => exact retransmit_withPorts .timeout
  | recv | none => rfl

/-! ## The events -/

theorem exec_rx_withPorts {p : ByteStr} {t : State} (h : exec (.rx p) s = .next t) :
    exec (.rx p) (s.withPorts q) = .next (t.withPorts q) := by
  obtain ⟨hwait, h⟩ | ⟨hwait, rfl⟩ := execRx_cases h
  · rw [exec_rx_of_waiting (s := s.withPorts q) p hwait, rxRule_withPorts, Flow.settle_withPorts h]
  · exact if_neg (show ¬ (s.withPorts q).waiting = true from Bool.eq_false_iff.mp hwait)

theorem exec_timeout_withPorts {t : State} (h : exec .timeout s = .next t) :
    exec .timeout (s.withPorts q) = .next (t.withPorts q) := by
  obtain ⟨hwait, h⟩ | ⟨hwait, rfl⟩ := execTimeout_cases h
  · rw [exec_timeout_of_timedWait (s := s.withPorts q) hwait, timeoutRule_withPorts, Flow.settle_withPorts h]
  · exact if_neg (show ¬ (State.withPorts q _).timedWait = true from Bool.eq_false_iff.mp hwait)

theorem exec_chanClose_withPorts {t : State} (h : exec .chanClose s = .next t) :
    exec .chanClose (s.withPorts q) = .next (t.withPorts q) := by
  obtain ⟨hsess, hop, rfl⟩ | ⟨hsess, hop, rfl⟩ | ⟨hsess, rfl⟩ := execChanClose_cases h
  · exact (if_pos hsess).trans (if_pos hop)
  · rw [← State.raiseFatal_withPorts]
    exact (if_pos hsess).trans (if_neg hop)
  · exact if_neg hsess

end

end Sys2Proof.Machine

open Sys2Proof Sys2Proof.Machine

/-- Settles O22: the rules of RX and TIMEOUT ignore the operand ports, and CHAN_CLOSE has none to read. -/
theorem operandWritesDoNotDisturbAWait : Obligations.OperandWritesDoNotDisturbAWait := by
  intro i s t q hi h
  obtain rfl | rfl | ⟨p, rfl⟩ := hi
  · exact exec_timeout_withPorts h
  · exact exec_chanClose_withPorts h
  · exact exec_rx_withPorts h

end

section
/-! PROOFS. A command given while BUSY, and reset (R455, R450, R41). -/

open Sys2Proof Sys2Proof.Machine

/-- Settles O11. -/
theorem busyCommandIsAnOverrun : Obligations.BusyCommandIsAnOverrun := fun _ s hi hop =>
  exec_of_busy hi (s.busy_eq_true.mpr hop)

/-- Settles O12: every register that STATUS reads has its reset value, so the word is 0. -/
theorem resetGivesEveryRegisterItsValue : Obligations.ResetGivesEveryRegisterItsValue := by
  intro s
  refine ⟨rfl, rfl, fun t h => ?_⟩
  cases h
  have hword : State.reset.statusWord = 0 := by decide
  exact hword

end
